-- ==== Sys2Proof/Word.lean ====
section
/-! DEFINITION. The word types of PTVR-RAST: the 32-bit word of every register, address and memory access (rules R6, R7, R8),
the byte of the framebuffer space (rule R44), and the 32-bit pattern of a binary32 number (rule R93). -/

namespace Sys2Proof

/-- A 32-bit word: a register, an address, an `i32` or a `u32` operand (rules R7, R8). -/
abbrev Word := BitVec 32

/-- A byte of the framebuffer space (rule R44). -/
abbrev Byte := BitVec 8

/-- The 32 bits of an IEEE 754 binary32 number (rule R93). -/
abbrev F32 := BitVec 32

end Sys2Proof
end

