-- ==== Sys2Proof/Syntax.lean ====
section
/-! DEFINITION. The syntax: the five commands of spec/opcode_table.json (rule R94), the registers of the window (rule R21), and
what the host can do to the block and to the framebuffer memory (rules R14, R91, R97, R220, R280, R283). -/

namespace Sys2Proof

/-- The five commands (rule R94), one constructor per row of spec/opcode_table.json. A command word has no operand field: the
operands are registers (rules R90, R92). -/
inductive Instr where
  /-- POLY_CREATE, command word 0x00000001 (rule R200). -/
  | polyCreate
  /-- VTX_WRITE, command word 0x00000002 (rule R202). -/
  | vtxWrite
  /-- POLY_DESTROY, command word 0x00000003 (rule R204). -/
  | polyDestroy
  /-- DRAW_SPAN, command word 0x00000010 (rule R120). -/
  | drawSpan
  /-- FILL_POLY, command word 0x00000011 (rule R150). -/
  | fillPoly
deriving DecidableEq, Repr

/-- The registers of the 64-byte window (rule R21); `reserved` stands for offsets 0x30 to 0x3C (rule R31). -/
inductive Reg where
  | cmd | status | fbBase | color | arg0 | arg1 | arg2 | nvert
  | geomW | geomH | geomStride | vtxCap | reserved
deriving DecidableEq, Repr

/-- One thing the host does. Offsets are relative to `REG_BASE`, as 95_test_vectors.md section 4 writes a program. -/
inductive HostAccess where
  /-- A host store of `size` bytes at `REG_BASE + offset` (rules R32, R91); a 4-byte one at offset 0 issues a command. -/
  | store (size offset : Nat) (data : Word)
  /-- A host load of `size` bytes from `REG_BASE + offset` (rule R32). -/
  | load (size offset : Nat)
  /-- The host writes one byte of framebuffer memory while no command runs (rules R14, R71). -/
  | memStore (addr : Word) (value : Byte)
  /-- The host reads one byte of framebuffer memory while no command runs (rules R14, R71). -/
  | memLoad (addr : Word)
  /-- The reset event, while no command runs (rule R280). -/
  | reset
  /-- A `CMD` write of `word` whose command the reset event ends after `done` accesses on the framebuffer port
  (rule R283). -/
  | resetDuring (word : Word) (done : Nat)
deriving DecidableEq, Repr

/-- One line of a host program (rule R97) or one of the source's calls (rule R98). -/
inductive HostCall where
  /-- `WR reg, value`. -/
  | wr (r : Reg) (v : Word)
  /-- `RD reg`. -/
  | rd (r : Reg)
  /-- A command's mnemonic on a line of its own. -/
  | command (i : Instr)
  /-- `drawSpan row, x1, x2, color`. -/
  | drawSpan (row x1 x2 color : Word)
  /-- `create n`. -/
  | create (n : Word)
  /-- `setVertex i, x, y`, the coordinates as binary32 bits. -/
  | setVertex (i : Word) (x y : F32)
  /-- `destroy`. -/
  | destroy
  /-- `fillPolygon fb`. -/
  | fillPolygon (fb : Word)
  /-- `renderFrame angle, fb`, with the rotated coordinates that the host computed from the angle (rules R5, R227). -/
  | renderFrame (rotated : List (F32 × F32)) (fb : Word)
deriving DecidableEq, Repr

end Sys2Proof
end

