-- ==== Sys2Proof/WellFormed.lean ====
section
/-! DEFINITION. Which syntax the spec gives a meaning: every command (none has an operand field, rule R90), and the host
accesses that are 32-bit, 4-byte aligned and inside the 64-byte window (rules R21, R31, R32). -/

namespace Sys2Proof

/-- Every command is well formed: a command has no operand field to check (rule R90). -/
def Instr.wellFormed : Instr → Bool
  | .polyCreate => true
  | .vtxWrite => true
  | .polyDestroy => true
  | .drawSpan => true
  | .fillPoly => true

/-- A register access is defined when it is 32-bit, aligned and inside the window (rules R21, R31, R32). -/
def registerAccessDefined (size offset : Nat) : Bool :=
  size == 4 && offset % 4 == 0 && decide (offset < 64)

/-- A host access is well formed when the spec defines it. -/
def HostAccess.wellFormed : HostAccess → Bool
  | .store size offset _ => registerAccessDefined size offset
  | .load size offset => registerAccessDefined size offset
  | .memStore _ _ => true
  | .memLoad _ => true
  | .reset => true
  | .resetDuring _ _ => true

end Sys2Proof
end

