-- ==== Sys2Proof/Decode.lean ====
section
/-! DEFINITION. Decoding a command word (rules R90, R94, R95), total on every 32-bit word and rejecting by name, and the encoder
of the same table. -/

namespace Sys2Proof

/-- Why a command word is reserved (rule R95). -/
inductive Reserved where
  /-- A bit of the field `zero`, bits 31:8, is 1; the field is kept. -/
  | nonzeroField (bits : BitVec 24)
  /-- Bits 31:8 are 0 and the opcode is none of the five. -/
  | opcode (op : BitVec 8)
deriving DecidableEq, Repr

/-- The field `opcode` of a command word, bits 7:0 (rule R90). -/
def opcodeField (w : Word) : BitVec 8 := w.extractLsb' 0 8

/-- The field `zero` of a command word, bits 31:8 (rule R90). -/
def zeroField (w : Word) : BitVec 24 := w.extractLsb' 8 24

/-- The opcode table (rule R94). -/
def opcodeOf : Instr → BitVec 8
  | .polyCreate => 0x01#8
  | .vtxWrite => 0x02#8
  | .polyDestroy => 0x03#8
  | .drawSpan => 0x10#8
  | .fillPoly => 0x11#8

/-- The command an opcode selects (rule R94). -/
def instrOf (op : BitVec 8) : Option Instr :=
  [Instr.polyCreate, .vtxWrite, .polyDestroy, .drawSpan, .fillPoly].find? fun i => opcodeOf i == op

/-- Decode a command word: the field `zero` must be 0 and the opcode one of the five (rules R90, R94, R95). -/
def decode (w : Word) : Except Reserved Instr :=
  if zeroField w = 0#24 then
    match instrOf (opcodeField w) with
    | some i => .ok i
    | none => .error (.opcode (opcodeField w))
  else .error (.nonzeroField (zeroField w))

/-- The command word of a command: `zero` above `opcode` (rule R90). -/
def encode (i : Instr) : Word := 0#24 ++ opcodeOf i

/-- The command word whose low `nbits` bits are those of `w` and whose other bits are 0. -/
def tableWord (nbits w : Nat) : Word := BitVec.ofNat 32 (w % 2 ^ nbits)

/-- The command the decoder reads from the table word `w` of `nbits` bits, bit 0 the least significant. A command word is one
32-bit value, written to `CMD` by one store (rule R91), so no byte order enters. -/
def decodeTableWord (nbits w : Nat) : Option Instr :=
  match decode (tableWord nbits w) with
  | .ok i => some i
  | .error _ => none

end Sys2Proof
end

