-- ==== Sys2Proof/Config.lean ====
section
/-! DEFINITION. What an implementation of PTVR-RAST fixes: the geometry (rule R6), the open parameters VTX_MAX and REG_BASE
(rule R7), and the FREE VALUES the spec leaves unspecified (93_implementation_defined.md U3, U13; rule R156). An opaque constant has no
body: nothing can be proved of its value, so every statement holds for all values. -/

namespace Sys2Proof

/-- `WIDTH`, the visible pixels of a row (rule R6). -/
def Config.width : Nat := 400

/-- `HEIGHT`, the rows of the framebuffer (rule R6). -/
def Config.height : Nat := 240

/-- `STRIDE`, the bytes from one row to the next (rule R6). -/
def Config.stride : Nat := 52

/-- `WPR`, the 32-bit words of a row (rule R6). -/
def Config.wordsPerRow : Nat := 13

/-- The framebuffer's size in bytes, `STRIDE * HEIGHT` (rules R44, R77). -/
def Config.framebufferBytes : Nat := 12480

/-- The implementation's free choice behind `VTX_MAX` (rule R7, U14; log entry 2). -/
opaque Config.vtxMaxChoice : Nat

/-- `VTX_MAX`, the capacity of the vertex store: some number from 3 to 65535 (rule R7, D20; log entry 2). -/
def Config.vtxMax : Nat := Config.vtxMaxChoice % 65533 + 3

/-- The implementation's free choice behind `REG_BASE` (rule R7, U14; log entry 3). -/
opaque Config.regBaseChoice : BitVec 30

/-- `REG_BASE`, the address of the register window in the host's address space: any 4-byte aligned address
(rule R21, D3; log entry 3). No meaning depends on it. -/
def Config.regBase : Word := Config.regBaseChoice ++ 0#2

/-- FREE VALUE: the bits `VX[i]` holds while vertex `i` is unwritten, one free choice for each POLY_CREATE
(the first argument counts them) and each index (rules R35, R200; U3, U13; log entry 4). -/
opaque Config.unwrittenX : Nat → Nat → Word

/-- FREE VALUE: the bits `VY[i]` holds while vertex `i` is unwritten (rules R35, R200; U3, U13; log entry 4). -/
opaque Config.unwrittenY : Nat → Nat → Word

/-- FREE VALUE: what working register number `r` (second argument) holds after the command, or reset, that the first argument
counts (rule R36: "their values after a command ends are unspecified and unobservable"; U13; log entry 5). -/
opaque Config.leftover : Nat → Nat → Word

/-- FREE VALUE: the sign and payload of the NaN that operation number `op` (0 addition, 1 division) gives on its two operands;
"NaN payloads need no rule" (rule R156; log entry 9). -/
opaque Config.nanBits : Nat → F32 → F32 → Word

end Sys2Proof
end

