-- ==== Sys2Proof/Machine/State.lean ====
section
/-! DEFINITION. The state of PTVR-RAST (rules R20 to R45) as plain data, the reasons a step can stop, and the state after reset
(rule R45). -/

namespace Sys2Proof.Machine

/-- Faults. There is none, so the type has no constructor: "The block raises no exception, sets no error flag and returns no
error code" (rule R250), and every access the block makes is to an address that exists (rules R44, R77, R78). -/
inductive Fault where
deriving DecidableEq, Repr

/-- Why a step has no meaning. -/
inductive Refusal where
  /-- An instruction without a meaning; raised by an arm of `exec` only. No arm does. Safe. -/
  | notModelled (mnemonic : String)
  /-- A host access to the register window that is not 32 bits wide or not 4-byte aligned: "not defined by this spec and a model
  refuses it" (rule R32, U7). Raised by `hostAccess`. Safe: the model stops. -/
  | undefinedRegisterAccess
  /-- A host access outside the 64-byte window: "accesses outside the 64-byte window are not the block's" (rule R31). Raised by
  `hostAccess`. Safe: the model stops. -/
  | outsideWindow
deriving DecidableEq, Repr

/-- The two coordinates of a written vertex, `VX[i]` and `VY[i]` (rule R34). -/
structure Vertex where
  x : F32
  y : F32
deriving DecidableEq, Repr

/-- The working registers of rule R36, in its order. -/
structure Work where
  /-- `TOP`, index of the top vertex. -/
  top : Word
  /-- `BOT`, index of the bottom vertex. -/
  bot : Word
  /-- `L`, the left cursor. -/
  l : Word
  /-- `LN`, the next vertex of the forward chain. -/
  ln : Word
  /-- `R`, the right cursor. -/
  r : Word
  /-- `RN`, the next vertex of the backward chain. -/
  rn : Word
  /-- `XL`, x accumulator of the left chain. -/
  xl : F32
  /-- `XR`, x accumulator of the right chain. -/
  xr : F32
  /-- `SL`, slope of the left chain's current edge. -/
  sl : F32
  /-- `SR`, slope of the right chain's current edge. -/
  sr : F32
  /-- `Y`, the row counter (`i32`). -/
  y : Word
  /-- `YEND`, first scanline not in the current band (`i32`). -/
  yEnd : Word
  /-- `X1C`, the lower span bound after clipping (`i32`). -/
  x1c : Word
  /-- `X2C`, the upper span bound after clipping (`i32`). -/
  x2c : Word
  /-- `K`, the word index within the row. -/
  k : Word
  /-- `M`, the mask in memory-word order. -/
  m : Word
deriving DecidableEq, Repr

/-- One access on the framebuffer port (rule R60), with the value read or written. -/
inductive PortAccess where
  /-- `MemRead(addr, 4)` returning `value`. -/
  | read (addr value : Word)
  /-- `MemWrite(addr, 4, value)`. -/
  | write (addr value : Word)
deriving DecidableEq, Repr

/-- Framebuffer space (rule R44): address and byte pairs, addresses strictly rising, no byte equal to what an unlisted
address reads as (`unlistedByte` of Machine/Ops.lean). -/
abbrev Memory := List Host.Cell

/-- The state: the block's (rule R20), the framebuffer memory it borrows, and the model's own fields. -/
structure State where
  /-- `FB_BASE[31:2]`; bits 1:0 are hardwired 0 and have no storage (rule R24). -/
  fbBaseHi : BitVec 30
  /-- `COLOR` (rule R25). -/
  color : Word
  /-- `ARG0` (rule R26). -/
  arg0 : Word
  /-- `ARG1` (rule R27). -/
  arg1 : Word
  /-- `ARG2` (rule R28). -/
  arg2 : Word
  /-- `PVALID`, bit 0 of `STATUS` (rules R23, R33). -/
  pvalid : Bool
  /-- `NVERT` (rule R29). -/
  nvert : Word
  /-- `VTX_CAP`, which reads as the implementation's `VTX_MAX` (rule R30). Nothing writes it. -/
  vtxCap : Word
  /-- The vertex store (rule R34): the WRITTEN vertices by index, strictly rising; an unlisted vertex is unwritten
  (rule R35). -/
  store : List (Nat × Vertex)
  /-- MODEL's own: how many POLY_CREATEs were accepted; picks the free bits of unwritten vertices (log entry 4). -/
  slotEpoch : Nat
  /-- The working registers (rule R36). -/
  work : Work
  /-- MODEL's own: how often the working registers were left unspecified; picks their free bits (log entry 5). -/
  workEpoch : Nat
  /-- Framebuffer memory, the host's (rules R20, R44). -/
  mem : Memory
  /-- MODEL's own: what the host will do, next first (rules R14, R40; log entry 1). -/
  bus : List HostAccess
  /-- MODEL's own: the value the host's last load returned (rule R32; log entry 1). -/
  readData : Word
  /-- MODEL's own: the accesses of the last command on the framebuffer port, NEWEST FIRST (rules R14, R70; log entry 6). -/
  port : List PortAccess
deriving DecidableEq, Repr

/-- The working registers at reset: unspecified by rule R45; all 0 here (DESIGN CHOICE, unsafe; log entry 7). -/
def Work.atReset : Work :=
  { top := 0, bot := 0, l := 0, ln := 0, r := 0, rn := 0, xl := 0, xr := 0, sl := 0, sr := 0,
    y := 0, yEnd := 0, x1c := 0, x2c := 0, k := 0, m := 0 }

/-- The machine right after reset (rule R45): the slot empty, `FB_BASE = 0`, `COLOR = 0xFFFFFFFF`, the operand registers 0,
every vertex unwritten; memory with nothing listed (log entry 8); nothing pending from the host. -/
def State.reset : State :=
  { fbBaseHi := 0, color := 0xFFFFFFFF#32, arg0 := 0, arg1 := 0, arg2 := 0,
    pvalid := false, nvert := 0, vtxCap := BitVec.ofNat 32 Config.vtxMax,
    store := [], slotEpoch := 0, work := Work.atReset, workEpoch := 0,
    mem := [], bus := [], readData := 0, port := [] }

end Sys2Proof.Machine
end

