-- ==== Sys2Proof/Machine/Ops.lean ====
section
/-! DEFINITION. The named operations over memory, the framebuffer port, the vertex store, the working registers and reset, which
every meaning is written with. The block takes no exception (rules R250, R254, R255), so no operation takes one or returns
from one. -/

namespace Sys2Proof.Machine

/-! ## Lists of numbered entries, strictly rising -/

/-- The entry numbered `k`. -/
def entryAt {α : Type} (k : Nat) : List (Nat × α) → Option α
  | [] => none
  | e :: rest => if e.1 = k then some e.2 else entryAt k rest

/-- Put `v` at number `k`, in place of what stood there. -/
def putEntry {α : Type} (k : Nat) (v : α) : List (Nat × α) → List (Nat × α)
  | [] => [(k, v)]
  | e :: rest =>
    if k < e.1 then (k, v) :: e :: rest
    else if e.1 = k then (k, v) :: rest
    else e :: putEntry k v rest

/-- Take every entry numbered `k` out. -/
def dropEntry {α : Type} (k : Nat) : List (Nat × α) → List (Nat × α)
  | [] => []
  | e :: rest => if e.1 = k then dropEntry k rest else e :: dropEntry k rest

/-- The numbers rise strictly. -/
def rising {α : Type} : List (Nat × α) → Bool
  | [] => true
  | e :: rest => rest.all (fun f => decide (e.1 < f.1)) && rising rest

/-! ## Framebuffer memory (rules R44, R62, R69) -/

/-- What a byte nothing has written reads as. The spec gives memory no reset content ("its content is the host's", rule R45);
0 is this model's choice (DESIGN CHOICE, unsafe; log entry 8). -/
def unlistedByte : Byte := 0#8

/-- The byte at address `a`. -/
def readByte (m : Memory) (a : Word) : Byte := (entryAt a.toNat m).getD unlistedByte

/-- Memory with the byte at address `a` set to `v`, in canonical form. -/
def writeByte (m : Memory) (a : Word) (v : Byte) : Memory :=
  if v = unlistedByte then dropEntry a.toNat m else putEntry a.toNat v m

/-- The canonical form of a memory: addresses strictly rising and below `2^32`, no byte equal to `unlistedByte`. -/
def Memory.wf (m : Memory) : Bool :=
  rising m && m.all (fun c => decide (c.1 < 2 ^ 32) && decide (c.2 ≠ unlistedByte))

/-- The value `MemRead(a, 4)` returns: little-endian (rule R62). -/
def readWord (m : Memory) (a : Word) : Word :=
  readByte m (a + 3#32) ++ readByte m (a + 2#32) ++ readByte m (a + 1#32) ++ readByte m a

/-- Byte `i` of a word, `v[8*i+7 : 8*i]`. -/
def byteOf (v : Word) (i : Nat) : Byte := v.extractLsb' (8 * i) 8

/-- The effect of `MemWrite(a, 4, v)`: little-endian (rule R62). -/
def writeWord (m : Memory) (a v : Word) : Memory :=
  writeByte (writeByte (writeByte (writeByte m a (byteOf v 0)) (a + 1#32) (byteOf v 1))
    (a + 2#32) (byteOf v 2)) (a + 3#32) (byteOf v 3)

/-- Byte reversal (rule R9). -/
def bswap32 (v : Word) : Word := byteOf v 0 ++ byteOf v 1 ++ byteOf v 2 ++ byteOf v 3

/-! ## The framebuffer port (rules R60, R64, R67, R70) -/

/-- `FB_BASE`: its low two bits are hardwired 0 (rule R24). -/
def State.fbBase (s : State) : Word := s.fbBaseHi ++ 0#2

/-- `WA(y, k) = FB_BASE + 52*y + 4*k`, modulo `2^32` (rules R64, R67). -/
def wordAddress (s : State) (y k : Nat) : Word := s.fbBase + BitVec.ofNat 32 (Config.stride * y + 4 * k)

/-- Record one access of the running command, newest first (rule R70). -/
def State.record (s : State) (p : PortAccess) : State := { s with port := p :: s.port }

/-- `MemWrite(a, 4, v)` on the port. -/
def portWrite (a v : Word) (s : State) : State :=
  { s with mem := writeWord s.mem a v, port := .write a v :: s.port }

/-- The state after `MemRead(a, 4)` on the port, whose value is `readWord s.mem a`: a read has no side effect (rule R69). -/
def portRead (a : Word) (s : State) : State := s.record (.read a (readWord s.mem a))

/-- The writes among `accesses`, oldest first, done on `m`. -/
def replay (m : Memory) : List PortAccess → Memory
  | [] => m
  | .read _ _ :: rest => replay m rest
  | .write a v :: rest => replay (writeWord m a v) rest

/-! ## Commands -/

/-- A command begins: it has made no access yet. -/
def State.startCommand (s : State) : State := { s with port := [] }

/-- Working registers with unspecified content, one free choice for each number `n` (rule R36; log entry 5). -/
def Work.unspecified (n : Nat) : Work :=
  { top := Config.leftover n 0, bot := Config.leftover n 1, l := Config.leftover n 2, ln := Config.leftover n 3,
    r := Config.leftover n 4, rn := Config.leftover n 5, xl := Config.leftover n 6, xr := Config.leftover n 7,
    sl := Config.leftover n 8, sr := Config.leftover n 9, y := Config.leftover n 10, yEnd := Config.leftover n 11,
    x1c := Config.leftover n 12, x2c := Config.leftover n 13, k := Config.leftover n 14, m := Config.leftover n 15 }

/-- A command that used working registers ends: "their values after a command ends are unspecified" (rule R36). -/
def State.endCommand (s : State) : State :=
  { s with work := Work.unspecified s.workEpoch, workEpoch := s.workEpoch + 1 }

/-! ## The polygon slot (rules R34, R35, R205) -/

/-- The slot becomes live with `n` unwritten vertices (rule R200). -/
def State.createSlot (s : State) (n : Word) : State :=
  { s with pvalid := true, nvert := n, store := [], slotEpoch := s.slotEpoch + 1 }

/-- The slot becomes empty and every vertex unwritten (rule R204). -/
def State.destroySlot (s : State) : State := { s with pvalid := false, nvert := 0, store := [] }

/-- Vertex `i` becomes written with the bits `x` and `y` (rule R202). -/
def State.writeVertex (s : State) (i : Word) (x y : F32) : State :=
  { s with store := putEntry i.toNat ⟨x, y⟩ s.store }

/-! ## Reset (rules R45, R280, R282) -/

/-- The reset event: the block's state takes the values of rule R45; the working registers and the vertex store become
unspecified; memory is not accessed; what the implementation fixes and what the host still has to do stay. -/
def State.resetBlock (s : State) : State :=
  { s with
    fbBaseHi := State.reset.fbBaseHi, color := State.reset.color
    arg0 := State.reset.arg0, arg1 := State.reset.arg1, arg2 := State.reset.arg2
    pvalid := State.reset.pvalid, nvert := State.reset.nvert, store := State.reset.store
    work := Work.unspecified s.workEpoch, workEpoch := s.workEpoch + 1 }

end Sys2Proof.Machine
end

