-- ==== Sys2Proof/Machine/Operands.lean ====
section
/-! DEFINITION. Every operand of every command (rule R92), each the full 32-bit register, and the reads of the vertex store
(rules R9, R34, R35). -/

namespace Sys2Proof.Machine

/-- `n`, the vertex count of POLY_CREATE: `ARG0` as `u32` (rules R26, R92). -/
def opCount (s : State) : Word := s.arg0

/-- `i`, the vertex index of VTX_WRITE: `ARG0` as `u32` (rules R26, R92). -/
def opIndex (s : State) : Word := s.arg0

/-- The binary32 x of VTX_WRITE: `ARG1` (rules R27, R92). -/
def opXBits (s : State) : F32 := s.arg1

/-- The binary32 y of VTX_WRITE: `ARG2` (rules R28, R92). -/
def opYBits (s : State) : F32 := s.arg2

/-- `row` of DRAW_SPAN: `ARG0` as `i32` (rules R26, R92). -/
def opRow (s : State) : Word := s.arg0

/-- `x1` of DRAW_SPAN: `ARG1` as `i32` (rules R27, R92). -/
def opX1 (s : State) : Word := s.arg1

/-- `x2` of DRAW_SPAN: `ARG2` as `i32` (rules R28, R92). -/
def opX2 (s : State) : Word := s.arg2

/-- Vertex `i` is written: a VTX_WRITE to it came after the POLY_CREATE (rule R35). -/
def isWritten (s : State) (i : Word) : Bool := (entryAt i.toNat s.store).isSome

/-- `VX[i]`: an unwritten vertex has free bits (rules R34, R35; log entry 4). -/
def vx (s : State) (i : Word) : F32 :=
  match entryAt i.toNat s.store with
  | some v => v.x
  | none => Config.unwrittenX s.slotEpoch i.toNat

/-- `VY[i]`: an unwritten vertex has free bits (rules R34, R35; log entry 4). -/
def vy (s : State) (i : Word) : F32 :=
  match entryAt i.toNat s.store with
  | some v => v.y
  | none => Config.unwrittenY s.slotEpoch i.toNat

end Sys2Proof.Machine
end

