-- ==== Sys2Proof/Machine/PolyStore.lean ====
section
/-! DEFINITION. The polygon-store commands POLY_CREATE, VTX_WRITE and POLY_DESTROY (42_polygon_store.md). None makes a memory
access (rule R61) and none signals anything when it is ignored (rules R201, R203). -/

namespace Sys2Proof.Machine

/-- POLY_CREATE (rules R200, R201). -/
def execPolyCreate (s : State) : Host.Outcome State Fault Refusal :=
  if s.pvalid = false ∧ 1 ≤ (opCount s).toNat ∧ (opCount s).toNat ≤ s.vtxCap.toNat then
    .next (s.startCommand.createSlot (opCount s))
  else .next s.startCommand

/-- VTX_WRITE (rules R202, R203). -/
def execVtxWrite (s : State) : Host.Outcome State Fault Refusal :=
  if s.pvalid = true ∧ (opIndex s).toNat < s.nvert.toNat then
    .next (s.startCommand.writeVertex (opIndex s) (opXBits s) (opYBits s))
  else .next s.startCommand

/-- POLY_DESTROY (rule R204). -/
def execPolyDestroy (s : State) : Host.Outcome State Fault Refusal := .next s.startCommand.destroySlot

end Sys2Proof.Machine
end

