-- ==== Sys2Proof/Machine/Float.lean ====
section
/-! DEFINITION. IEEE 754 binary32 arithmetic as the linear interpolator uses it (rules R9, R93, R156, R157, R158). Every finite
binary32 number is a whole multiple of `2^-149`, so the exact value of a finite number is held as an integer count of that
UNIT; an operation computes exactly on integers and rounds once. -/

namespace Sys2Proof.Machine

/-- The field `exponent`, bits 30:23 (rule R93). -/
def expField (a : F32) : Nat := (a.extractLsb' 23 8).toNat

/-- The field `fraction`, bits 22:0 (rule R93). -/
def fracField (a : F32) : Nat := (a.extractLsb' 0 23).toNat

/-- The field `sign`, bit 31 (rule R93): true for a negative number. -/
def signField (a : F32) : Bool := a.msb

/-- A NaN: exponent field 255 and a fraction that is not 0 (rule R93). -/
def isNaN (a : F32) : Bool := expField a == 255 && fracField a != 0

/-- Plus or minus infinity: exponent field 255 and fraction 0 (rule R93). -/
def isInf (a : F32) : Bool := expField a == 255 && fracField a == 0

/-- A finite number (rule R93). -/
def isFinite (a : F32) : Bool := expField a != 255

/-- The magnitude of a finite number in units of `2^-149`: `f` when the exponent field is 0, else
`(2^23 + f) * 2^(e-1)`, which is rule R93's value times `2^149`. -/
def magnitude (a : F32) : Nat :=
  if expField a = 0 then fracField a else (2 ^ 23 + fracField a) * 2 ^ (expField a - 1)

/-- The exact value of a finite number in units of `2^-149`. At an infinity the formula gives `2^277` or `-2^277`, which lies
beyond every finite number, so the order of values is the order of IEEE 754 on everything but NaNs. -/
def value (a : F32) : Int := if signField a then -(magnitude a : Int) else (magnitude a : Int)

/-- How many units make 1.0. -/
def unitsPerOne : Nat := 2 ^ 149

/-- The NaN that operation `op` gives on `a` and `b`: exponent field 255, a fraction that is not 0, and otherwise free
(rules R93, R156; log entry 9). -/
def nanResult (op : Nat) (a b : F32) : F32 :=
  let bits := Config.nanBits op a b ||| 0x7F800000#32
  if fracField bits = 0 then bits ||| 1#32 else bits

/-- A magnitude's bits with a sign. -/
def withSign (neg : Bool) (bits : Nat) : F32 := BitVec.ofNat 32 (if neg then 2 ^ 31 + bits else bits)

/-- Plus or minus infinity. -/
def infinity (neg : Bool) : F32 := withSign neg 0x7F800000

/-- How many low bits of a magnitude of `q` units do not fit the 24 bits of a binary32 significand. -/
def excessBits (q : Nat) : Nat := if q < 2 ^ 24 then 0 else Nat.log2 q - 23

/-- `num / den` rounded to the nearest whole number, a tie going to the even one (rule R156). -/
def roundHalfEven (num den : Nat) : Nat :=
  if 2 * (num % den) > den ∨ (2 * (num % den) = den ∧ (num / den) % 2 = 1) then num / den + 1 else num / den

/-- The binary32 number nearest to plus or minus `num / den` units, ties to even, an infinity on overflow (rule R156).
With `e` excess bits and the significand `q`, the bits of the magnitude are `e * 2^23 + q`, whichever of subnormal, normal
and carried to the next exponent it is. -/
def roundUnits (neg : Bool) (num den : Nat) : F32 :=
  let e := excessBits (num / den)
  let q := roundHalfEven num (den * 2 ^ e)
  let bits := e * 2 ^ 23 + q
  if bits ≥ 0x7F800000 then infinity neg else withSign neg bits

/-- `fadd(a, b)` (rules R9, R156). -/
def fadd (a b : F32) : F32 :=
  if isNaN a || isNaN b then nanResult 0 a b
  else if isInf a then (if isInf b && signField a != signField b then nanResult 0 a b else a)
  else if isInf b then b
  else
    let sum := value a + value b
    if sum = 0 then withSign (signField a && signField b) 0
    else roundUnits (decide (sum < 0)) sum.natAbs 1

/-- The number with the other sign. -/
def fneg (a : F32) : F32 := a ^^^ 0x80000000#32

/-- `fsub(a, b)` (rules R9, R156). -/
def fsub (a b : F32) : F32 := fadd a (fneg b)

/-- `fdiv(a, b)` (rules R9, R156). -/
def fdiv (a b : F32) : F32 :=
  let neg := signField a != signField b
  if isNaN a || isNaN b then nanResult 1 a b
  else if isInf a then (if isInf b then nanResult 1 a b else infinity neg)
  else if isInf b then withSign neg 0
  else if magnitude b = 0 then (if magnitude a = 0 then nanResult 1 a b else infinity neg)
  else roundUnits neg (magnitude a * unitsPerOne) (magnitude b)

/-- `flt(a, b)`: false when an operand is a NaN; `-0` equals `+0` (rule R9). -/
def flt (a b : F32) : Bool := !isNaN a && !isNaN b && decide (value a < value b)

/-- `fgt(a, b)` (rule R9). -/
def fgt (a b : F32) : Bool := !isNaN a && !isNaN b && decide (value a > value b)

/-- `fle(a, b)` (rule R9). -/
def fle (a b : F32) : Bool := !isNaN a && !isNaN b && decide (value a ≤ value b)

/-- `feq(a, b)` (rule R9). -/
def feq (a b : F32) : Bool := !isNaN a && !isNaN b && decide (value a = value b)

/-- A whole number as an `i32`, saturating (rules R157, R158). -/
def saturate (v : Int) : Word :=
  if v ≥ 2 ^ 31 then 0x7FFFFFFF#32 else if v ≤ -(2 ^ 31) then 0x80000000#32 else BitVec.ofInt 32 v

/-- `f2i(v)`: toward zero, saturating, NaN to 0 (rule R157). -/
def f2i (v : F32) : Word := if isNaN v then 0#32 else saturate ((value v).tdiv unitsPerOne)

/-- `ceil_i32(v)`: toward plus infinity, saturating, NaN to 0 (rule R158). -/
def ceilI32 (v : F32) : Word := if isNaN v then 0#32 else saturate (-((-(value v)) / (unitsPerOne : Int)))

/-- The constant `0.5` (rule R156). -/
def half : F32 := 0x3F000000#32

end Sys2Proof.Machine
end

