-- ==== Sys2Proof/Machine/Span.lean ====
section
/-! DEFINITION. The span writer: the operation `SPAN` (rule R121, steps S1 to S13) and the command DRAW_SPAN (rule R120). -/

namespace Sys2Proof.Machine

/-- The mask on the logical word for pixels `lo .. hi-1` of a word (step S9, rule R124). -/
def logicalMask (lo hi : Nat) : Word := (0xFFFFFFFF#32 >>> lo) &&& (0xFFFFFFFF#32 <<< (32 - hi))

/-- The mask of word `k` for the span `[x1c, x2c)` in memory-word order (steps S7 to S10, rule R125). -/
def memoryMask (x1c x2c k : Nat) : Word :=
  bswap32 (logicalMask (max x1c (32 * k) - 32 * k) (min x2c (32 * k + 32) - 32 * k))

/-- `X1C` (step S3). -/
def clipLow (x1 : Word) : Word := if x1.toInt < 0 then 0#32 else x1

/-- `X2C` (step S4). -/
def clipHigh (x2 : Word) : Word := if x2.toInt > Config.width then BitVec.ofNat 32 Config.width else x2

/-- The masked write of one word (steps S12 and S13, rule R126). -/
def maskedWrite (a m c : Word) (s : State) : State :=
  if m = 0xFFFFFFFF#32 then portWrite a c s
  else portWrite a ((readWord s.mem a &&& ~~~m) ||| (c &&& m)) (portRead a s)

/-- `K <- k` and `M <- m`. -/
def State.setKM (s : State) (k m : Word) : State := { s with work := { s.work with k := k, m := m } }

/-- `X1C <- x1c` and `X2C <- x2c`. -/
def State.setClip (s : State) (x1c x2c : Word) : State := { s with work := { s.work with x1c := x1c, x2c := x2c } }

/-- Steps S7 to S13 for word `k` of row `y`. -/
def spanWord (y : Nat) (c : Word) (s : State) (k : Nat) : State :=
  let m := memoryMask s.work.x1c.toNat s.work.x2c.toNat k
  maskedWrite (wordAddress s y k) m c (s.setKM (BitVec.ofNat 32 k) m)

/-- The word indices of step S6, `X1C div 32 .. (X2C - 1) div 32`, in increasing order (rule R123). -/
def spanWords (x1c x2c : Nat) : List Nat := List.range' (x1c / 32) ((x2c - 1) / 32 + 1 - x1c / 32)

/-- `SPAN(y, x1, x2, c)` (rule R121): all comparisons are signed. -/
def span (y x1 x2 c : Word) (s : State) : State :=
  if y.toInt < 0 ∨ y.toInt ≥ Config.height then s
  else if x2.toInt < 0 ∨ x1.toInt ≥ Config.width then s
  else
    let s1 := s.setClip (clipLow x1) (clipHigh x2)
    if (clipLow x1).toInt ≥ (clipHigh x2).toInt then s1
    else (spanWords (clipLow x1).toNat (clipHigh x2).toNat).foldl (spanWord y.toNat c) s1

/-- DRAW_SPAN (rule R120): `SPAN(ARG0, ARG1, ARG2, COLOR)`, once. -/
def execDrawSpan (s : State) : Host.Outcome State Fault Refusal :=
  .next (span (opRow s) (opX1 s) (opX2 s) s.color s.startCommand).endCommand

end Sys2Proof.Machine
end

