-- ==== Sys2Proof/Machine/Raster.lean ====
section
/-! DEFINITION. The rasterizer: the command FILL_POLY (rule R175, lines F1 to F23), with the edge-chain walker, the linear
interpolator and the scanline fill engine. -/

namespace Sys2Proof.Machine

/-- `(i + 1) mod n` for `i` below `n`: `i + 1`, unless `i = n - 1`, when it is 0 (rule R41). -/
def nextIndex (n i : Word) : Word := if i = n - 1#32 then 0#32 else i + 1#32

/-- `(i - 1) mod n` for `i` below `n`: `i - 1`, unless `i = 0`, when it is `n - 1` (rule R41). -/
def prevIndex (n i : Word) : Word := if i = 0#32 then n - 1#32 else i - 1#32

/-- `SLOPE(a, b)`: `+0.0`, without a division, on a zero-height edge (rules R154, R155). -/
def edgeSlope (s : State) (a b : Word) : F32 :=
  let dy := fsub (vy s b) (vy s a)
  if feq dy 0#32 then 0#32 else fdiv (fsub (vx s b) (vx s a)) dy

/-- The working registers replaced by `w`. -/
def State.setWork (s : State) (w : Work) : State := { s with work := w }

/-- Lines F5 and F6 for vertex `i` (rule R152). -/
def scanVertex (s : State) (i : Nat) : State :=
  let v := BitVec.ofNat 32 i
  s.setWork { s.work with
    top := if flt (vy s v) (vy s s.work.top) then v else s.work.top
    bot := if fgt (vy s v) (vy s s.work.bot) then v else s.work.bot }

/-- Lines F3 to F6: the top and bottom vertex, the first in index order winning a tie (rule R152). -/
def findTopBottom (s : State) : State :=
  (List.range' 1 (s.nvert.toNat - 1)).foldl scanVertex (s.setWork { s.work with top := 0#32, bot := 0#32 })

/-- Lines F7 to F11: the start of both chains and of the row counter (rule R153). -/
def startChains (s : State) : State :=
  let t := s.work.top
  let ln := nextIndex s.nvert t
  let rn := prevIndex s.nvert t
  s.setWork { s.work with
    l := t, r := t, ln := ln, rn := rn, xl := vx s t, xr := vx s t
    sl := edgeSlope s t ln, sr := edgeSlope s t rn, y := ceilI32 (vy s t) }

/-- Lines F16 and F17: the row's span, if the row exists (rules R161, R162, R163). -/
def drawRow (s : State) : State :=
  if 0 ≤ s.work.y.toInt ∧ s.work.y.toInt < Config.height then
    span s.work.y (f2i (fadd s.work.xl half)) (f2i (fadd s.work.xr half)) s.color s
  else s

/-- Lines F18 and F19: the slopes are added, the row counter goes on (rule R163). -/
def nextRow (s : State) : State :=
  s.setWork { s.work with
    xl := fadd s.work.xl s.work.sl, xr := fadd s.work.xr s.work.sr, y := s.work.y + 1#32 }

/-- `n` rows of a band, lines F16 to F19. -/
def fillRows : Nat → State → State
  | 0, s => s
  | n + 1, s => fillRows n (nextRow (drawRow s))

/-- How many rows a band has: the loop of line F15 runs while `Y < YEND`, signed (rule R161). -/
def rowsLeft (s : State) : Nat := (s.work.yEnd.toInt - s.work.y.toInt).toNat

/-- Lines F15 to F19 (rule R161). -/
def fillBand (s : State) : State := fillRows (rowsLeft s) s

/-- Line F13: the left chain is chosen, also on a tie (rules R159, R160). -/
def leftFirst (s : State) : Bool := fle (vy s s.work.ln) (vy s s.work.rn)

/-- Line F14: `YEND` (rule R159). -/
def setBandEnd (s : State) : State :=
  s.setWork { s.work with yEnd := ceilI32 (if leftFirst s then vy s s.work.ln else vy s s.work.rn) }

/-- Line F21 (rule R164). -/
def advanceLeft (s : State) : State :=
  let l := s.work.ln
  let ln := nextIndex s.nvert l
  s.setWork { s.work with l := l, ln := ln, xl := vx s l, sl := edgeSlope s l ln }

/-- Line F23 (rule R164). -/
def advanceRight (s : State) : State :=
  let r := s.work.rn
  let rn := prevIndex s.nvert r
  s.setWork { s.work with r := r, rn := rn, xr := vx s r, sr := edgeSlope s r rn }

/-- One iteration of the main loop, lines F13 to F23. -/
def walkOnce (s : State) : State :=
  let filled := fillBand (setBandEnd s)
  if leftFirst s then advanceLeft filled else advanceRight filled

/-- The loop condition of line F12 (rule R165). -/
def walking (s : State) : Bool := s.work.l != s.work.bot && s.work.r != s.work.bot

/-- The main loop of line F12, at most `n` iterations. -/
def walk : Nat → State → State
  | 0, s => s
  | n + 1, s => if walking s then walk n (walkOnce s) else s

/-- Lines F2 to F23. `NVERT` iterations are enough: "at most `NVERT - 1` times" (rule R165). -/
def fillPolygon (s : State) : State :=
  let started := startChains (findTopBottom s)
  walk s.nvert.toNat started

/-- FILL_POLY (rules R150, R151, R175). -/
def execFillPoly (s : State) : Host.Outcome State Fault Refusal :=
  if s.pvalid = false ∨ s.nvert.toNat < 3 then .next s.startCommand
  else .next (fillPolygon s.startCommand).endCommand

end Sys2Proof.Machine
end

