-- ==== Sys2Proof/Machine/Dispatch.lean ====
section
/-! DEFINITION. One arm per command of rule R94, each a direct call of its meaning. -/

namespace Sys2Proof.Machine

def exec (i : Instr) (s : State) : Host.Outcome State Fault Refusal :=
  match i with
  | .polyCreate => Sys2Proof.Machine.execPolyCreate s
  | .vtxWrite => Sys2Proof.Machine.execVtxWrite s
  | .polyDestroy => Sys2Proof.Machine.execPolyDestroy s
  | .drawSpan => Sys2Proof.Machine.execDrawSpan s
  | .fillPoly => Sys2Proof.Machine.execFillPoly s

end Sys2Proof.Machine
end

