-- ==== Sys2Proof/Machine/Flags.lean ====
section
/-! DEFINITION. The block's one flag, `PVALID` (rule R33): no condition code, no sticky floating-point flag exists. POLY_CREATE and
POLY_DESTROY write it (Machine/Ops.lean); `STATUS` shows it (rule R23). -/

namespace Sys2Proof.Machine

/-- The `STATUS` register: bit 0 is `PVALID`, bits 31:1 are hardwired 0 (rule R23). -/
def statusWord (s : State) : Word := if s.pvalid then 1#32 else 0#32

end Sys2Proof.Machine
end

