-- ==== Sys2Proof/Machine/HostPort.lean ====
section
/-! DEFINITION. What one host access does: the register window (rules R21 to R32), the command it may start (rules R22, R95), the
host's own accesses to framebuffer memory between commands (rules R14, R71), and reset (rules R280 to R283). -/

namespace Sys2Proof.Machine

/-- The register map (rules R21, R31). -/
def registerMap : List (Nat × Reg) :=
  [(0x00, .cmd), (0x04, .status), (0x08, .fbBase), (0x0C, .color), (0x10, .arg0), (0x14, .arg1), (0x18, .arg2),
   (0x1C, .nvert), (0x20, .geomW), (0x24, .geomH), (0x28, .geomStride), (0x2C, .vtxCap),
   (0x30, .reserved), (0x34, .reserved), (0x38, .reserved), (0x3C, .reserved)]

/-- The register at an aligned offset of the window. -/
def regAt (offset : Nat) : Option Reg := entryAt offset registerMap

/-- The offset of a register; the first reserved offset for `reserved` (rule R21). -/
def regOffset : Reg → Nat
  | .cmd => 0x00
  | .status => 0x04
  | .fbBase => 0x08
  | .color => 0x0C
  | .arg0 => 0x10
  | .arg1 => 0x14
  | .arg2 => 0x18
  | .nvert => 0x1C
  | .geomW => 0x20
  | .geomH => 0x24
  | .geomStride => 0x28
  | .vtxCap => 0x2C
  | .reserved => 0x30

/-- The address on the host's bus of an offset of the window (rules R21, R91). -/
def busAddress (offset : Nat) : Word := Config.regBase + BitVec.ofNat 32 offset

/-- What a load of a register returns (rules R22 to R31). -/
def readReg (s : State) : Reg → Word
  | .cmd => 0#32
  | .status => statusWord s
  | .fbBase => s.fbBase
  | .color => s.color
  | .arg0 => s.arg0
  | .arg1 => s.arg1
  | .arg2 => s.arg2
  | .nvert => s.nvert
  | .geomW => BitVec.ofNat 32 Config.width
  | .geomH => BitVec.ofNat 32 Config.height
  | .geomStride => BitVec.ofNat 32 Config.stride
  | .vtxCap => s.vtxCap
  | .reserved => 0#32

/-- The command a `CMD` write of `w` starts; a reserved command word is ignored (rules R22, R95). -/
def issue (w : Word) (s : State) : Host.Outcome State Fault Refusal :=
  match decode w with
  | .ok i => exec i s
  | .error _ => .next s.startCommand

/-- What a store to a register does: `CMD` starts a command; a read-only or reserved register ignores it
(rules R22 to R31). -/
def writeReg (s : State) (v : Word) : Reg → Host.Outcome State Fault Refusal
  | .cmd => issue v s
  | .fbBase => .next { s with fbBaseHi := v.extractLsb' 2 30 }
  | .color => .next { s with color := v }
  | .arg0 => .next { s with arg0 := v }
  | .arg1 => .next { s with arg1 := v }
  | .arg2 => .next { s with arg2 := v }
  | .status => .next s
  | .nvert => .next s
  | .geomW => .next s
  | .geomH => .next s
  | .geomStride => .next s
  | .vtxCap => .next s
  | .reserved => .next s

/-- The register a host access reaches, or why it is refused (rules R31, R32). -/
def reached (size offset : Nat) : Except Refusal Reg :=
  if 64 ≤ offset then .error .outsideWindow
  else if size = 4 then
    match regAt offset with
    | some r => .ok r
    | none => .error .undefinedRegisterAccess
  else .error .undefinedRegisterAccess

/-- The accesses a running command has made when the reset event comes after `n` of them, newest first (rule R70). -/
def firstAccesses (n : Nat) (port : List PortAccess) : List PortAccess := (port.reverse.take n).reverse

/-- The reset event ends a command that would have taken state `s` to state `t`, after `n` accesses: the writes already
performed stay performed, nothing else of the command happens (rule R283). -/
def interrupted (n : Nat) (s t : State) : State :=
  let made := firstAccesses n t.port
  State.resetBlock { s with mem := replay s.mem made.reverse, port := made }

/-- What one host access does. -/
def hostAccess (a : HostAccess) (s : State) : Host.Outcome State Fault Refusal :=
  match a with
  | .store size offset v =>
    match reached size offset with
    | .ok r => writeReg s v r
    | .error e => .refused e
  | .load size offset =>
    match reached size offset with
    | .ok r => .next { s with readData := readReg s r }
    | .error e => .refused e
  | .memStore addr v => .next { s with mem := writeByte s.mem addr v }
  | .memLoad addr => .next { s with readData := (readByte s.mem addr).setWidth 32 }
  | .reset => .next s.resetBlock
  | .resetDuring w n =>
    match issue w s with
    | .next t => .next (interrupted n s t)
    | .fault f => .fault f
    | .refused r => .refused r

/-- Take the host's next access and do it; with none pending the block is idle (rule R281: "the block does nothing until the
host writes `CMD`"). -/
def stepHost (s : State) : Host.Outcome State Fault Refusal :=
  match s.bus with
  | [] => .next s
  | a :: rest => hostAccess a { s with bus := rest }

/-- The state in which the host's next access is a `CMD` write of `w`. -/
def pendingCommand (s : State) (w : Word) : State := { s with bus := .store 4 0 w :: s.bus }

end Sys2Proof.Machine
end

