-- ==== Sys2Proof/Machine/Step.lean ====
section
/-! DEFINITION. One step of the machine: the host's next access (rules R14, R40: "the order of commands is the order of the host's
`CMD` writes"). -/

namespace Sys2Proof.Machine

/-- One step (Machine/HostPort.lean says what it does). -/
def step (s : State) : Host.Outcome State Fault Refusal := stepHost s

/-- `s` with the table's command word `w` as the host's next `CMD` write: the block fetches nothing (rule R40), so this is where
the next command comes from (log entry 1). -/
def State.withFetchWord (s : State) (nbits w : Nat) : State := pendingCommand s (tableWord nbits w)

end Sys2Proof.Machine
end

