-- ==== Sys2Proof/Machine/Program.lean ====
section
/-! DEFINITION. Host programs: the notation of rule R97 and the pseudo-instructions of rule R98, each as the host accesses it
stands for. -/

namespace Sys2Proof.Machine

/-- `WR reg, value` (rule R97). -/
def wr (r : Reg) (v : Word) : HostAccess := .store 4 (regOffset r) v

/-- `RD reg` (rule R97). -/
def rd (r : Reg) : HostAccess := .load 4 (regOffset r)

/-- A command's mnemonic: `WR CMD, <its command word>` (rule R97). -/
def issueLine (i : Instr) : HostAccess := wr .cmd (encode i)

/-- `setVertex i, x, y` (rule R98). -/
def setVertexLines (i : Word) (x y : F32) : List HostAccess :=
  [wr .arg0 i, wr .arg1 x, wr .arg2 y, issueLine .vtxWrite]

/-- `fillPolygon fb` (rule R98). -/
def fillPolygonLines (fb : Word) : List HostAccess := [wr .fbBase fb, issueLine .fillPoly]

/-- `setVertex` for every vertex from number `i` on, in order. -/
def setVerticesLines (i : Nat) : List (F32 × F32) → List HostAccess
  | [] => []
  | p :: rest => setVertexLines (BitVec.ofNat 32 i) p.1 p.2 ++ setVerticesLines (i + 1) rest

/-- The accesses a line or a call stands for (rules R97, R98). -/
def expand : HostCall → List HostAccess
  | .wr r v => [wr r v]
  | .rd r => [rd r]
  | .command i => [issueLine i]
  | .drawSpan row x1 x2 color => [wr .color color, wr .arg0 row, wr .arg1 x1, wr .arg2 x2, issueLine .drawSpan]
  | .create n => [wr .arg0 n, issueLine .polyCreate]
  | .setVertex i x y => setVertexLines i x y
  | .destroy => [issueLine .polyDestroy]
  | .fillPolygon fb => fillPolygonLines fb
  | .renderFrame rotated fb => setVerticesLines 0 rotated ++ fillPolygonLines fb

/-- The state in which the host runs a program next. -/
def State.withProgram (s : State) (calls : List HostCall) : State := { s with bus := calls.flatMap expand ++ s.bus }

end Sys2Proof.Machine
end

