-- ==== Sys2Proof/Safety.lean ====
section
/-! DEFINITION. The terms the statements use: pixels (rules R63, R65, R127), the framebuffer's bytes (rule R77), what the recorded
accesses say (rules R70, R71), the invariant of the machine, and a host that makes only defined accesses. -/

namespace Sys2Proof.Machine

/-- The byte address that holds pixel `x` of row `y` (rule R63). -/
def pixelAddress (s : State) (y x : Nat) : Word := s.fbBase + BitVec.ofNat 32 (Config.stride * y + x / 8)

/-- Pixel `x` of row `y`: bit `7 - (x mod 8)` of its byte (rule R63). -/
def pixel (s : State) (y x : Nat) : Bool := (readByte s.mem (pixelAddress s y x)).getLsbD (7 - x % 8)

/-- The bit of a colour word that goes to pixel `x`, `c[cb(x)]` (rules R127, R128). -/
def colourBit (c : Word) (x : Nat) : Bool := c.getLsbD (8 * (x % 32 / 8) + 7 - x % 8)

/-- Address `a` is one of the 12480 bytes `FB_BASE .. FB_BASE + 12479`, modulo `2^32` (rules R67, R77). -/
def inFramebuffer (s : State) (a : Word) : Bool := decide ((a - s.fbBase).toNat < Config.framebufferBytes)

/-- The address of an access. -/
def PortAccess.addr : PortAccess → Word
  | .read a _ => a
  | .write a _ => a

/-- An access is a `MemRead`. -/
def PortAccess.isRead : PortAccess → Bool
  | .read _ _ => true
  | .write _ _ => false

/-- Each recorded read, oldest access first, returned what memory `m` and the writes before it hold (rule R71). -/
def readsAgree (m : Memory) : List PortAccess → Prop
  | [] => True
  | .read a v :: rest => v = readWord m a ∧ readsAgree m rest
  | .write a v :: rest => readsAgree (writeWord m a v) rest

/-- The offset of an access from `FB_BASE`. -/
def accessOffset (s : State) (p : PortAccess) : Nat := (p.addr - s.fbBase).toNat

/-- The slot is empty or live (rules R29, R205), and only vertices of the polygon are written (rule R203). -/
structure SlotOk (s : State) : Prop where
  live : s.pvalid = true → 1 ≤ s.nvert.toNat ∧ s.nvert.toNat ≤ s.vtxCap.toNat
  empty : s.pvalid = false → s.nvert = 0#32
  written : ∀ e ∈ s.store, e.1 < s.nvert.toNat
  ordered : rising s.store = true

/-- The invariant of the machine. -/
structure StateOk (s : State) : Prop where
  /-- Memory is in its canonical form. -/
  memory : Memory.wf s.mem = true
  /-- The polygon slot is empty or live. -/
  slot : SlotOk s
  /-- `VTX_MAX` is in its range (rule R7). -/
  capacity : 3 ≤ s.vtxCap.toNat ∧ s.vtxCap.toNat ≤ 65535

/-- Everything the host still does is defined by the spec (rules R31, R32). -/
def DefinedHost (s : State) : Prop := ∀ a ∈ s.bus, a.wellFormed = true

/-- `n` steps, stopping at the first refusal: `Host.Core.run` of this machine (`runSteps_eq` of Laws/Step.lean). -/
def runSteps : Nat → State → Host.Outcome State Fault Refusal
  | 0, s => .next s
  | n + 1, s =>
    match step s with
    | .next t => runSteps n t
    | .fault f => .fault f
    | .refused r => .refused r

/-- Nothing but memory, the working registers and the record of accesses differs between `s` and `t`: what a drawing command may
change (rules R120, R166). -/
def OnlyDrawing (s t : State) : Prop :=
  t = { s with mem := t.mem, work := t.work, workEpoch := t.workEpoch, port := t.port }

/-- The loop of lines F15 to F19 as the pseudocode writes it: `while Y < YEND`, with no bound on its iterations. -/
inductive BandRuns : State → State → Prop where
  | done {s : State} (h : ¬ s.work.y.toInt < s.work.yEnd.toInt) : BandRuns s s
  | row {s t : State} (h : s.work.y.toInt < s.work.yEnd.toInt) (rest : BandRuns (nextRow (drawRow s)) t) : BandRuns s t

/-- The loop of lines F12 to F23 as the pseudocode writes it: `while L != BOT and R != BOT`; the number counts its
iterations. -/
inductive WalkRuns : Nat → State → State → Prop where
  | done {s : State} (h : ¬ (s.work.l ≠ s.work.bot ∧ s.work.r ≠ s.work.bot)) : WalkRuns 0 s s
  | turn {n : Nat} {s filled t : State} (h : s.work.l ≠ s.work.bot ∧ s.work.r ≠ s.work.bot)
      (band : BandRuns (setBandEnd s) filled)
      (rest : WalkRuns n (if leftFirst s then advanceLeft filled else advanceRight filled) t) : WalkRuns (n + 1) s t

/-- The least magnitude, in units of `2^-149`, that rounds to an infinity: half a step above the largest finite number. -/
def overflowLimit : Nat := (2 ^ 25 - 1) * 2 ^ 252

/-- `r` is what IEEE 754 rounding to nearest, ties to even, gives for the exact number `num / den` units (rule R156): a finite
number that no finite number is nearer than, even when another is as near; an infinity of the right sign exactly from the
overflow limit on. -/
structure RoundsTo (r : F32) (num : Int) (den : Nat) : Prop where
  notNaN : isNaN r = false
  finite : isFinite r = true ↔ num.natAbs < overflowLimit * den
  sign : isInf r = true → signField r = decide (num < 0)
  nearest : isFinite r = true → ∀ c, isFinite c = true → |value r * den - num| ≤ |value c * den - num|
  even : isFinite r = true → ∀ c, isFinite c = true → value c ≠ value r →
    |value r * den - num| = |value c * den - num| → r.toNat % 2 = 0

/-- `v` is the binary32 number of the whole number `n`. -/
def IsWhole (v : F32) (n : Int) : Prop := isFinite v = true ∧ value v = n * unitsPerOne

end Sys2Proof.Machine
end

