-- ==== Sys2Proof/Certificates/Slice0/Obligations.lean ====
section
/-! DEFINITION. The statements for the provers. Each docstring names the rule of spec/ it formalises, or says that it is the
model's own and names the log entry. `.startCommand` clears the model's record of the last command's accesses (log entry 6) and
`.endCommand` leaves the working registers unspecified (log entry 5); neither touches anything the host can see. -/

open Sys2Proof Sys2Proof.Machine

/-! ### Encoding -/

/-- Rule R94: the five command words, and a decoder compares the whole word with them. -/
def Obligations.DecodeAcceptsExactlyFiveWords : Prop :=
  (encode .polyCreate = 0x00000001#32 ∧ encode .vtxWrite = 0x00000002#32 ∧ encode .polyDestroy = 0x00000003#32 ∧
    encode .drawSpan = 0x00000010#32 ∧ encode .fillPoly = 0x00000011#32) ∧
  ∀ (w : Word) (i : Instr), decode w = .ok i ↔ w = encode i

/-- Rule R94: a few command words, and a few words of rule R95 that no command has, as numbers. -/
def Obligations.CommandWordsDecode : Prop :=
  decode 0x00000001#32 = .ok .polyCreate ∧ decode 0x00000002#32 = .ok .vtxWrite ∧ decode 0x00000003#32 = .ok .polyDestroy ∧
  decode 0x00000010#32 = .ok .drawSpan ∧ decode 0x00000011#32 = .ok .fillPoly ∧
  decodeTableWord 32 0x00000010 = some .drawSpan ∧
  decodeTableWord 32 0x00000000 = none ∧ decodeTableWord 32 0x00000004 = none ∧ decodeTableWord 32 0x00000012 = none ∧
  decodeTableWord 32 0x00000111 = none ∧ decodeTableWord 32 0x80000001 = none

/-- Rules R90, R94: decoding the encoding of a well-formed command gives the command back. -/
def Obligations.DecodeOfEncodeIsIdentity : Prop :=
  ∀ i : Instr, i.wellFormed = true → decode (encode i) = .ok i ∧ decodeTableWord 32 (encode i).toNat = some i

/-- Rule R95 (its effect; the advice to refuse is not followed, log entry 10): a reserved command word is ignored. -/
def Obligations.ReservedCommandWordIsIgnored : Prop :=
  ∀ (s : State) (w : Word) (rest : List HostAccess), (∀ i, w ≠ encode i) → s.bus = .store 4 0 w :: rest →
    step s = .next { s with bus := rest, port := [] }

/-! ### Steps and host accesses -/

/-- Rules R14, R22, R40: a `CMD` write of a command's word runs exactly that command, and uses up that host access. -/
def Obligations.StepRunsTheDecodedCommand : Prop :=
  ∀ (s : State) (w : Word) (rest : List HostAccess) (i : Instr), i.wellFormed = true → decode w = .ok i →
    s.bus = .store 4 0 w :: rest → step s = exec i { s with bus := rest }

/-- Rule R281: with nothing from the host the block does nothing. -/
def Obligations.IdleBlockStays : Prop := ∀ s : State, s.bus = [] → step s = .next s

/-- Rules R24 to R28, R32: a store to a read/write register sets that register and nothing else; `FB_BASE[1:0]` stays 0. -/
def Obligations.RegisterStoreSetsThatRegister : Prop :=
  ∀ (s : State) (v : Word) (rest : List HostAccess),
    (s.bus = .store 4 0x08 v :: rest → ∃ t, step s = .next t ∧ t.fbBase = v &&& 0xFFFFFFFC#32 ∧
      t = { s with bus := rest, fbBaseHi := t.fbBaseHi }) ∧
    (s.bus = .store 4 0x0C v :: rest → step s = .next { s with bus := rest, color := v }) ∧
    (s.bus = .store 4 0x10 v :: rest → step s = .next { s with bus := rest, arg0 := v }) ∧
    (s.bus = .store 4 0x14 v :: rest → step s = .next { s with bus := rest, arg1 := v }) ∧
    (s.bus = .store 4 0x18 v :: rest → step s = .next { s with bus := rest, arg2 := v })

/-- Rules R23, R29, R30, R31: a store to a read-only register or to a reserved offset is ignored. That the reserved offsets 0x30
to 0x3C are followed and not refused, as R31 and U7 advise a model, is the model's choice (log entry 11). -/
def Obligations.ReadOnlyRegistersIgnoreStores : Prop :=
  ∀ (s : State) (v : Word) (rest : List HostAccess) (offset : Nat),
    offset ∈ [0x04, 0x1C, 0x20, 0x24, 0x28, 0x2C, 0x30, 0x34, 0x38, 0x3C] → s.bus = .store 4 offset v :: rest →
    step s = .next { s with bus := rest }

/-- Rule R21 with R22 to R31: what a load of each offset of the window returns; a load changes nothing else. That the reserved
offsets 0x30 to 0x3C answer 0 and are not refused, as R31 and U7 advise a model, is the model's choice (log entry 11). -/
def Obligations.RegisterLoadReturnsTheRegister : Prop :=
  ∀ (s : State) (rest : List HostAccess) (offset : Nat) (v : Word),
    (offset, v) ∈ [(0x00, 0#32), (0x04, if s.pvalid then 1#32 else 0#32), (0x08, s.fbBase), (0x0C, s.color),
      (0x10, s.arg0), (0x14, s.arg1), (0x18, s.arg2), (0x1C, s.nvert), (0x20, 400#32), (0x24, 240#32),
      (0x28, 52#32), (0x2C, s.vtxCap), (0x30, 0#32), (0x34, 0#32), (0x38, 0#32), (0x3C, 0#32)] →
    s.bus = .load 4 offset :: rest → step s = .next { s with bus := rest, readData := v }

/-- Rule R30: the four geometry registers read as the constants 400, 240, 52 and `VTX_MAX` and ignore writes. -/
def Obligations.GeometryRegistersAreConstants : Prop :=
  State.reset.vtxCap = BitVec.ofNat 32 Config.vtxMax ∧
  (∀ s t : State, step s = .next t → t.vtxCap = s.vtxCap) ∧
  ∀ (s : State) (rest : List HostAccess),
    (s.bus = .load 4 0x20 :: rest → step s = .next { s with bus := rest, readData := 400#32 }) ∧
    (s.bus = .load 4 0x24 :: rest → step s = .next { s with bus := rest, readData := 240#32 }) ∧
    (s.bus = .load 4 0x28 :: rest → step s = .next { s with bus := rest, readData := 52#32 }) ∧
    (s.bus = .load 4 0x2C :: rest → step s = .next { s with bus := rest, readData := s.vtxCap }) ∧
    ∀ (offset : Nat) (v : Word), offset ∈ [0x20, 0x24, 0x28, 0x2C] → s.bus = .store 4 offset v :: rest →
      step s = .next { s with bus := rest }

/-- Rules R31, R32 and U7: a register access that is narrow, misaligned or outside the window has no meaning. -/
def Obligations.UndefinedRegisterAccessIsRefused : Prop :=
  ∀ (s : State) (size offset : Nat) (v : Word) (rest : List HostAccess),
    s.bus = .store size offset v :: rest ∨ s.bus = .load size offset :: rest →
    (64 ≤ offset → step s = .refused .outsideWindow) ∧
    (offset < 64 → size ≠ 4 ∨ offset % 4 ≠ 0 → step s = .refused .undefinedRegisterAccess)

/-- Rules R14, R71: between commands the host writes and reads any byte of memory, and a read returns the byte. -/
def Obligations.HostMemoryAccess : Prop :=
  ∀ (s : State) (a : Word) (v : Byte) (rest : List HostAccess),
    (s.bus = .memStore a v :: rest → ∃ t, step s = .next t ∧ t = { s with bus := rest, mem := t.mem } ∧
      readByte t.mem a = v ∧ ∀ b, b ≠ a → readByte t.mem b = readByte s.mem b) ∧
    (s.bus = .memLoad a :: rest →
      step s = .next { s with bus := rest, readData := (readByte s.mem a).setWidth 32 })

/-- Rules R97, R98: what the pseudo-instructions `drawSpan`, `create`, `setVertex`, `destroy` and `fillPolygon` come to. -/
def Obligations.PseudoInstructionsRunTheirCommand : Prop :=
  ∀ (s : State) (rest : List HostAccess) (a b c d : Word),
    (s.bus = expand (.drawSpan a b c d) ++ rest →
      runSteps 5 s = exec .drawSpan { s with bus := rest, color := d, arg0 := a, arg1 := b, arg2 := c }) ∧
    (s.bus = expand (.create a) ++ rest → runSteps 2 s = exec .polyCreate { s with bus := rest, arg0 := a }) ∧
    (s.bus = expand (.setVertex a b c) ++ rest →
      runSteps 4 s = exec .vtxWrite { s with bus := rest, arg0 := a, arg1 := b, arg2 := c }) ∧
    (s.bus = expand .destroy ++ rest → runSteps 1 s = exec .polyDestroy { s with bus := rest }) ∧
    (s.bus = expand (.fillPolygon a) ++ rest →
      runSteps 2 s = exec .fillPoly { s with bus := rest, fbBaseHi := a.extractLsb' 2 30 })

/-! ### Reset -/

/-- Rule R45: the values after reset that the spec gives. -/
def Obligations.ResetValues : Prop :=
  statusWord State.reset = 0#32 ∧ State.reset.pvalid = false ∧ State.reset.nvert = 0#32 ∧ State.reset.fbBase = 0#32 ∧
  State.reset.color = 0xFFFFFFFF#32 ∧ State.reset.arg0 = 0#32 ∧ State.reset.arg1 = 0#32 ∧ State.reset.arg2 = 0#32 ∧
  (∀ i, isWritten State.reset i = false) ∧
  3 ≤ State.reset.vtxCap.toNat ∧ State.reset.vtxCap.toNat ≤ 65535

/-- Rules R45, R280, R282: the reset event gives the block's registers their reset values, makes every vertex unwritten and does
not access memory: no byte changes and no access joins the record (log entry 6). What the working registers hold afterwards is
free (log entry 5). -/
def Obligations.ResetEventKeepsMemory : Prop :=
  ∀ (s : State) (rest : List HostAccess), s.bus = .reset :: rest → ∃ t, step s = .next t ∧
    t.mem = s.mem ∧ t.port = s.port ∧
    t.fbBase = 0#32 ∧ t.color = 0xFFFFFFFF#32 ∧ t.arg0 = 0#32 ∧ t.arg1 = 0#32 ∧ t.arg2 = 0#32 ∧
    t.pvalid = false ∧ t.nvert = 0#32 ∧ (∀ i, isWritten t i = false) ∧ statusWord t = 0#32 ∧
    readReg t .geomW = 400#32 ∧ readReg t .geomH = 240#32 ∧ readReg t .geomStride = 52#32 ∧ readReg t .vtxCap = s.vtxCap ∧
    t.vtxCap = s.vtxCap ∧ t.bus = rest ∧ t.readData = s.readData

/-- Rule R283: a reset after `n` accesses of a command. The writes among them stay, in their order; a word that was read but not
written keeps its value; a command that had made no access changed no byte; one that had made all of them changed all its
bytes; and the block is reset. The run goes on from there, where U12 would end it (log entry 13). -/
def Obligations.ResetEndsARunningCommand : Prop :=
  ∀ (s : State) (w : Word) (n : Nat) (rest : List HostAccess) (i : Instr) (whole : State),
    s.bus = .resetDuring w n :: rest → decode w = .ok i → exec i { s with bus := rest } = .next whole →
    ∃ t, step s = .next t ∧ t.mem = replay s.mem (whole.port.reverse.take n) ∧ t.port.reverse = whole.port.reverse.take n ∧
      (n = 0 → t.mem = s.mem) ∧ (whole.port.length ≤ n → t.mem = whole.mem) ∧
      t.fbBase = 0#32 ∧ t.color = 0xFFFFFFFF#32 ∧ t.arg0 = 0#32 ∧ t.arg1 = 0#32 ∧ t.arg2 = 0#32 ∧
      t.pvalid = false ∧ t.nvert = 0#32 ∧ (∀ j, isWritten t j = false) ∧
      t.vtxCap = s.vtxCap ∧ t.bus = rest ∧ t.readData = s.readData

/-! ### The polygon store -/

/-- Rule R200: when accepted, the slot becomes live with `n` vertices, all unwritten, and nothing else changes; when not, nothing
changes. -/
def Obligations.PolyCreateMakesTheSlotLive : Prop :=
  (∀ s : State, s.pvalid = false → 1 ≤ s.arg0.toNat → s.arg0.toNat ≤ s.vtxCap.toNat →
    ∃ t, exec .polyCreate s = .next t ∧ t.pvalid = true ∧ t.nvert = s.arg0 ∧ (∀ i, isWritten t i = false) ∧
      statusWord t = 1#32 ∧
      t = { s with pvalid := t.pvalid, nvert := t.nvert, store := t.store, slotEpoch := t.slotEpoch, port := [] }) ∧
  ∀ s : State, ¬ (s.pvalid = false ∧ 1 ≤ s.arg0.toNat ∧ s.arg0.toNat ≤ s.vtxCap.toNat) →
    exec .polyCreate s = .next s.startCommand

/-- Rule R201: the corner cases of POLY_CREATE. -/
def Obligations.PolyCreateCornerCases : Prop :=
  (∀ s : State, s.arg0 = 0#32 ∨ s.vtxCap.toNat < s.arg0.toNat ∨ s.pvalid = true →
    exec .polyCreate s = .next s.startCommand) ∧
  ∀ s : State, s.pvalid = false → s.arg0 = 1#32 ∨ s.arg0 = 2#32 → 3 ≤ s.vtxCap.toNat →
    ∃ t, exec .polyCreate s = .next t ∧ t.pvalid = true ∧ t.nvert = s.arg0 ∧
      exec .fillPoly t = .next t.startCommand

/-- Rule R202: when accepted, vertex `i` gets both coordinates and becomes written, and no other vertex, register or byte changes;
when not, nothing changes. -/
def Obligations.VtxWriteStoresTheVertex : Prop :=
  (∀ s : State, s.pvalid = true → s.arg0.toNat < s.nvert.toNat →
    ∃ t, exec .vtxWrite s = .next t ∧ vx t s.arg0 = s.arg1 ∧ vy t s.arg0 = s.arg2 ∧ isWritten t s.arg0 = true ∧
      (∀ j, j ≠ s.arg0 → vx t j = vx s j ∧ vy t j = vy s j ∧ isWritten t j = isWritten s j) ∧
      t = { s with store := t.store, port := [] }) ∧
  ∀ s : State, ¬ (s.pvalid = true ∧ s.arg0.toNat < s.nvert.toNat) → exec .vtxWrite s = .next s.startCommand

/-- Rule R203: the corner cases of VTX_WRITE; a second write to a vertex wins. -/
def Obligations.VtxWriteCornerCases : Prop :=
  (∀ s : State, s.pvalid = false ∨ s.nvert.toNat ≤ s.arg0.toNat → exec .vtxWrite s = .next s.startCommand) ∧
  ∀ (s : State) (x y : F32), s.pvalid = true → s.arg0.toNat < s.nvert.toNat →
    ∃ t u, exec .vtxWrite s = .next t ∧ exec .vtxWrite { t with arg1 := x, arg2 := y } = .next u ∧
      vx u s.arg0 = x ∧ vy u s.arg0 = y

/-- Rule R204: POLY_DESTROY empties the slot and forgets every vertex; on an empty slot it changes nothing; until the next
accepted POLY_CREATE the slot stays empty, and VTX_WRITE and FILL_POLY do nothing. -/
def Obligations.PolyDestroyEmptiesTheSlot : Prop :=
  (∀ s : State, ∃ t, exec .polyDestroy s = .next t ∧ t.pvalid = false ∧ t.nvert = 0#32 ∧ (∀ i, isWritten t i = false) ∧
    t = { s with pvalid := t.pvalid, nvert := t.nvert, store := t.store, port := [] } ∧
    (s.pvalid = false → SlotOk s → t = s.startCommand)) ∧
  (∀ s : State, s.pvalid = false → exec .vtxWrite s = .next s.startCommand ∧ exec .fillPoly s = .next s.startCommand) ∧
  ∀ (i : Instr) (s t : State), s.pvalid = false → exec i s = .next t → t.pvalid = true →
    i = .polyCreate ∧ ∀ j, isWritten t j = false

/-- Rule R205: the slot is empty or live, and every step keeps it so; an accepted POLY_CREATE makes an empty slot live,
POLY_DESTROY and reset, also a reset during a command (log entry 13), make it empty, and no other command and no other host
access changes `PVALID` or `NVERT`. -/
def Obligations.SlotLifeCycle : Prop :=
  (∀ s t : State, SlotOk s → step s = .next t → SlotOk t) ∧
  (∀ s t : State, step s = .next t → t.pvalid ≠ s.pvalid ∨ t.nvert ≠ s.nvert → ∃ (a : HostAccess) (rest : List HostAccess),
    s.bus = a :: rest ∧ (a = .store 4 0 (encode .polyCreate) ∧ s.pvalid = false ∧ t.pvalid = true ∨
      (a = .store 4 0 (encode .polyDestroy) ∨ a = .reset ∨ ∃ w n, a = .resetDuring w n) ∧ t.pvalid = false ∧ t.nvert = 0#32)) ∧
  (∀ (s : State) (rest : List HostAccess), (s.bus = .reset :: rest ∨ ∃ w n, s.bus = .resetDuring w n :: rest) →
    ∃ t, step s = .next t ∧ t.pvalid = false ∧ t.nvert = 0#32) ∧
  ∀ (i : Instr) (s t : State), exec i s = .next t →
    (i = .polyCreate → s.pvalid = false → 1 ≤ s.arg0.toNat → s.arg0.toNat ≤ s.vtxCap.toNat →
      t.pvalid = true ∧ t.nvert = s.arg0) ∧
    (i = .polyCreate → s.pvalid = true → t.pvalid = true ∧ t.nvert = s.nvert ∧ t.store = s.store) ∧
    (i = .polyDestroy → t.pvalid = false ∧ t.nvert = 0#32) ∧
    (i ≠ .polyCreate → i ≠ .polyDestroy → t.pvalid = s.pvalid ∧ t.nvert = s.nvert)

/-- Rules R26, R296: no command changes an operand register, `COLOR` or `FB_BASE`. -/
def Obligations.CommandsKeepTheRegisters : Prop :=
  ∀ (i : Instr) (s t : State), exec i s = .next t →
    t.arg0 = s.arg0 ∧ t.arg1 = s.arg1 ∧ t.arg2 = s.arg2 ∧ t.color = s.color ∧ t.fbBase = s.fbBase ∧
    t.vtxCap = s.vtxCap ∧ t.bus = s.bus ∧ t.readData = s.readData

/-! ### Memory -/

/-- Rule R62: little-endian words. -/
def Obligations.WordAccessIsLittleEndian : Prop :=
  ∀ (m : Memory) (a v : Word),
    readWord m a = readByte m (a + 3) ++ readByte m (a + 2) ++ readByte m (a + 1) ++ readByte m a ∧
    readByte (writeWord m a v) a = v.extractLsb' 0 8 ∧ readByte (writeWord m a v) (a + 1) = v.extractLsb' 8 8 ∧
    readByte (writeWord m a v) (a + 2) = v.extractLsb' 16 8 ∧ readByte (writeWord m a v) (a + 3) = v.extractLsb' 24 8 ∧
    (∀ b, b ≠ a → b ≠ a + 1 → b ≠ a + 2 → b ≠ a + 3 → readByte (writeWord m a v) b = readByte m b) ∧
    readWord (writeWord m a v) a = v

/-- Rule R65: pixel `32*k + j` of a row is bit `31 - j` of the logical word and bit `8*(j div 8) + 7 - (j mod 8)` of the memory
word. -/
def Obligations.PixelOfLogicalAndMemoryWord : Prop :=
  ∀ (s : State) (y k j : Nat), y < 240 → k < 13 → j < 32 →
    (bswap32 (readWord s.mem (wordAddress s y k))).getLsbD (31 - j) = pixel s y (32 * k + j) ∧
    (readWord s.mem (wordAddress s y k)).getLsbD (8 * (j / 8) + 7 - j % 8) = pixel s y (32 * k + j)

/-- Rules R124, R125: the mask for pixels `lo .. hi-1` has exactly their bits, in memory order, and is all ones exactly when the
span covers the word. -/
def Obligations.SpanMaskCoversItsPixels : Prop :=
  ∀ lo hi : Nat, lo < hi → hi ≤ 32 →
    logicalMask lo hi = (0xFFFFFFFF#32 >>> lo) &&& (0xFFFFFFFF#32 <<< (32 - hi)) ∧
    (∀ j < 32, (logicalMask lo hi).getLsbD (31 - j) = decide (lo ≤ j ∧ j < hi)) ∧
    (∀ j < 32, (bswap32 (logicalMask lo hi)).getLsbD (8 * (j / 8) + 7 - j % 8) = decide (lo ≤ j ∧ j < hi)) ∧
    (bswap32 (logicalMask lo hi) = 0xFFFFFFFF#32 ↔ lo = 0 ∧ hi = 32) ∧
    (bswap32 (logicalMask lo hi) = 0xFFFFFFFF#32 ↔ logicalMask lo hi = 0xFFFFFFFF#32)

/-! ### The span writer -/

/-- Rules R120, R127: DRAW_SPAN ends normally on every operand; every pixel of the clipped span takes its bit of `COLOR`, every
other pixel and every byte outside the framebuffer stays, and so does everything else the host can see. -/
def Obligations.DrawSpanPixelByPixel : Prop :=
  ∀ s : State, ∃ t, exec .drawSpan s = .next t ∧ OnlyDrawing s t ∧
    (∀ y x : Nat, y < 240 → x < 416 → pixel t y x =
      if s.arg0.toInt = y ∧ max 0 s.arg1.toInt ≤ x ∧ (x : Int) < min 400 s.arg2.toInt then colourBit s.color x
      else pixel s y x) ∧
    ∀ a, inFramebuffer s a = false → readByte t.mem a = readByte s.mem a

/-- Rule R127: what `SPAN` does to every pixel, for all-ones and all-zeros colours too. -/
def Obligations.SpanEffectInPixels : Prop :=
  ∀ (y x1 x2 c : Word) (s : State), OnlyDrawing s (span y x1 x2 c s) ∧
    (∀ y' x : Nat, y' < 240 → x < 416 → pixel (span y x1 x2 c s) y' x =
      if y.toInt = y' ∧ max 0 x1.toInt ≤ x ∧ (x : Int) < min 400 x2.toInt then
        c.getLsbD (8 * (x % 32 / 8) + 7 - x % 8)
      else pixel s y' x) ∧
    (∀ a, inFramebuffer s a = false → readByte (span y x1 x2 c s).mem a = readByte s.mem a) ∧
    ∀ y' x : Nat, y' < 240 → y.toInt = y' → max 0 x1.toInt ≤ x → (x : Int) < min 400 x2.toInt →
      (c = 0xFFFFFFFF#32 → pixel (span y x1 x2 c s) y' x = true) ∧ (c = 0#32 → pixel (span y x1 x2 c s) y' x = false)

/-- Rules R122, R131 and step S2 of R121: a DRAW_SPAN whose row does not exist or whose clipped span is empty or inverted makes no
access and changes no byte. -/
def Obligations.EmptySpanMakesNoAccess : Prop :=
  ∀ s : State, s.arg0.toInt < 0 ∨ 240 ≤ s.arg0.toInt ∨ s.arg2.toInt < 0 ∨ 400 ≤ s.arg1.toInt ∨
      min 400 s.arg2.toInt ≤ max 0 s.arg1.toInt →
    ∃ t, exec .drawSpan s = .next t ∧ t.port = [] ∧ t.mem = s.mem ∧ OnlyDrawing s t

/-- Rule R126 with R121 and R123: the accesses of a DRAW_SPAN that draws, in order: for each word of the span, one write of
`COLOR` when the mask is full, else a read and then a write of `(word & ~mask) | (color & mask)`. -/
def Obligations.DrawSpanAccessesInOrder : Prop :=
  ∀ s : State, 0 ≤ s.arg0.toInt → s.arg0.toInt < 240 → 0 ≤ s.arg2.toInt → s.arg1.toInt < 400 →
    max 0 s.arg1.toInt < min 400 s.arg2.toInt →
    let x1c := (max 0 s.arg1.toInt).toNat
    let x2c := (min 400 s.arg2.toInt).toNat
    ∃ t, exec .drawSpan s = .next t ∧
      t.port.reverse = (List.range' (x1c / 32) ((x2c - 1) / 32 + 1 - x1c / 32)).flatMap fun k =>
        let a := wordAddress s s.arg0.toNat k
        let w := readWord s.mem a
        let mask := bswap32 ((0xFFFFFFFF#32 >>> (max x1c (32 * k) - 32 * k)) &&&
          (0xFFFFFFFF#32 <<< (32 - (min x2c (32 * k + 32) - 32 * k))))
        if mask = 0xFFFFFFFF#32 then [.write a s.color]
        else [.read a w, .write a ((w &&& ~~~mask) ||| (s.color &&& mask))]

/-- Rule R133: how many accesses a DRAW_SPAN that draws makes. -/
def Obligations.DrawSpanAccessCount : Prop :=
  ∀ s t : State, 0 ≤ s.arg0.toInt → s.arg0.toInt < 240 → 0 ≤ s.arg2.toInt → s.arg1.toInt < 400 →
    max 0 s.arg1.toInt < min 400 s.arg2.toInt → exec .drawSpan s = .next t →
    let x1c := (max 0 s.arg1.toInt).toNat
    let x2c := (min 400 s.arg2.toInt).toNat
    let reads := (t.port.filter PortAccess.isRead).length
    let writes := (t.port.filter fun p => !p.isRead).length
    writes = (x2c - 1) / 32 + 1 - x1c / 32 ∧ 1 ≤ writes ∧ writes ≤ 13 ∧
    reads = (if x1c / 32 = (x2c - 1) / 32 then (if x1c % 32 ≠ 0 ∨ x2c % 32 ≠ 0 then 1 else 0)
      else (if x1c % 32 ≠ 0 then 1 else 0) + (if x2c % 32 ≠ 0 then 1 else 0)) ∧
    (x2c = 400 → 1 ≤ reads)

/-- Rule R129 (c): drawing the same span twice leaves the memory of drawing it once. -/
def Obligations.DrawSpanIsIdempotent : Prop :=
  ∀ s t u : State, Memory.wf s.mem = true → exec .drawSpan s = .next t → exec .drawSpan t = .next u → u.mem = t.mem

/-! ### Every command -/

/-- Rules R61, R66, R77: the polygon-store commands make no access; every access of DRAW_SPAN and FILL_POLY is to an aligned word
`WA(y, k)` with `y` at most 239 and `k` at most 12, so inside the 12480 bytes. -/
def Obligations.AccessesStayInTheFramebuffer : Prop :=
  ∀ (i : Instr) (s t : State), exec i s = .next t →
    (i = .polyCreate ∨ i = .vtxWrite ∨ i = .polyDestroy → t.port = []) ∧
    ∀ p ∈ t.port, p.addr.toNat % 4 = 0 ∧ accessOffset s p + 4 ≤ 12480 ∧
      ∃ y k : Nat, y ≤ 239 ∧ k ≤ 12 ∧ p.addr = wordAddress s y k

/-- Rules R37, R71: memory after a command is memory before it with the recorded writes done in order, and every recorded read
returned what memory held at that point. The record is the model's own (log entry 6). -/
def Obligations.RecordExplainsMemory : Prop :=
  ∀ (i : Instr) (s t : State), exec i s = .next t →
    t.mem = replay s.mem t.port.reverse ∧ readsAgree s.mem t.port.reverse

/-- Rule R70: the accesses of a command go through the framebuffer upward, row by row and word by word, and a read is followed at
once by the write of the same word. -/
def Obligations.AccessesGoUpward : Prop :=
  ∀ (i : Instr) (s t : State), exec i s = .next t →
    (t.port.reverse.map (accessOffset s)).Pairwise (· ≤ ·) ∧
    ∀ (before after : List PortAccess) (a v : Word), t.port.reverse = before ++ .read a v :: after →
      ∃ (w : Word) (later : List PortAccess), after = .write a w :: later

/-- A host that makes only the accesses the model takes as defined never meets a fault or a refusal, however long it runs. The
rules say of the block that it raises nothing (R250, R254); that the MODEL does not stop either is its choice where the spec
advises a fault, a refusal or the end of the run: unwritten vertices (log entry 4), reserved words (10), reserved offsets (11), a
reset during a command (13), coordinates that are not finite (15). -/
def Obligations.DefinedHostNeverStops : Prop :=
  ∀ s : State, DefinedHost s → ∀ n, ∃ t, runSteps n s = .next t ∧ DefinedHost t

/-- The invariant after reset (rules R7, R29, R45). That memory lists nothing is log entry 8. -/
def Obligations.InvariantAtReset : Prop := StateOk State.reset

/-- Every step keeps the invariant: memory in canonical form, the slot empty or live with only its own vertices written
(rules R29, R203, R205), `VTX_MAX` in its range (rule R7). The steps of log entries 4, 10, 11, 13 and 15 are among them. -/
def Obligations.StepKeepsTheInvariant : Prop := ∀ s t : State, StateOk s → step s = .next t → StateOk t

/-! ### Floating point and conversions -/

/-- Rule R156: `fadd`, `fsub` and `fdiv` of finite numbers are the exact result rounded once to nearest, ties to even, with
infinity on overflow. -/
def Obligations.FloatOperationsRoundOnce : Prop :=
  ∀ a b : F32, isFinite a = true → isFinite b = true →
    RoundsTo (fadd a b) (value a + value b) 1 ∧ RoundsTo (fsub a b) (value a - value b) 1 ∧
    (value b ≠ 0 → RoundsTo (fdiv a b) (value a * unitsPerOne * (value b).sign) (value b).natAbs)

/-- The operands for which rounding is not the rule. Rule R156: a NaN operand and an invalid operation give a NaN. The model's,
from IEEE 754 and not stated by R156 (log entries 21, 22): what an infinite operand gives otherwise, the sign of a zero quotient,
and the infinity of a number other than zero divided by zero, which R156 says cannot occur. -/
def Obligations.FloatSpecialOperands : Prop :=
  ∀ a b : F32,
    (isNaN a = true ∨ isNaN b = true →
      isNaN (fadd a b) = true ∧ isNaN (fsub a b) = true ∧ isNaN (fdiv a b) = true) ∧
    (isInf a = true → isInf b = true → isNaN (fdiv a b) = true ∧
      (isNaN (fadd a b) = true ↔ signField a ≠ signField b) ∧ (isNaN (fsub a b) = true ↔ signField a = signField b) ∧
      (signField a = signField b → fadd a b = a) ∧ (signField a ≠ signField b → fsub a b = a)) ∧
    (isInf a = true → isFinite b = true → fadd a b = a ∧ fsub a b = a ∧
      fdiv a b = infinity (signField a != signField b)) ∧
    (isFinite a = true → isInf b = true → fadd a b = b ∧ fsub a b = fneg b ∧
      fdiv a b = withSign (signField a != signField b) 0) ∧
    (isFinite a = true → isFinite b = true → value b = 0 →
      (value a = 0 → isNaN (fdiv a b) = true) ∧
      (value a ≠ 0 → fdiv a b = infinity (signField a != signField b)))

/-- Rule R9: the four comparisons; all are false on a NaN, `-0` equals `+0`, infinities lie beyond every finite number on either
side, and two infinities of one sign are equal (log entry 21). -/
def Obligations.FloatComparisons : Prop :=
  feq 0x80000000#32 0x00000000#32 = true ∧
  ∀ a b : F32,
    (isNaN a = true ∨ isNaN b = true → flt a b = false ∧ fgt a b = false ∧ fle a b = false ∧ feq a b = false) ∧
    (isFinite a = true → isFinite b = true →
      (flt a b = true ↔ value a < value b) ∧ (fgt a b = true ↔ value b < value a) ∧
      (fle a b = true ↔ value a ≤ value b) ∧ (feq a b = true ↔ value a = value b)) ∧
    (isInf a = true → isFinite b = true → flt a b = signField a ∧ fgt a b = !signField a ∧ fle a b = signField a ∧
      feq a b = false) ∧
    (isFinite a = true → isInf b = true → flt a b = !signField b ∧ fgt a b = signField b ∧ fle a b = !signField b ∧
      feq a b = false) ∧
    (isInf a = true → isInf b = true → flt a b = (signField a && !signField b) ∧ fgt a b = (!signField a && signField b) ∧
      fle a b = (signField a || !signField b) ∧ feq a b = (signField a == signField b))

/-- Rule R157: `f2i`. -/
def Obligations.F2iTruncatesAndSaturates : Prop :=
  (f2i 0x4039999A#32 = 2#32 ∧ (f2i 0xC039999A#32).toInt = -2 ∧ f2i 0xBE4CCCCD#32 = 0#32) ∧
  ∀ v : F32,
    (isNaN v = true → f2i v = 0#32) ∧
    (isNaN v = false → 2 ^ 31 * (unitsPerOne : Int) ≤ value v → (f2i v).toInt = 2147483647) ∧
    (isNaN v = false → value v ≤ -(2 ^ 31 * (unitsPerOne : Int)) → (f2i v).toInt = -2147483648) ∧
    (isNaN v = false → |value v| < 2 ^ 31 * (unitsPerOne : Int) →
      |(f2i v).toInt| * (unitsPerOne : Int) ≤ |value v| ∧ |value v| < (|(f2i v).toInt| + 1) * (unitsPerOne : Int) ∧
      (0 ≤ value v → 0 ≤ (f2i v).toInt) ∧ (value v ≤ 0 → (f2i v).toInt ≤ 0))

/-- Rule R158: `ceil_i32`. -/
def Obligations.CeilIsTheLeastIntegerAbove : Prop :=
  ((ceilI32 0x42F00000#32).toInt = 120 ∧ (ceilI32 0x42F08000#32).toInt = 121 ∧ (ceilI32 0xBF000000#32).toInt = 0 ∧
    (ceilI32 0xBFC00000#32).toInt = -1 ∧ (ceilI32 0x4EFFFFFF#32).toInt = 2147483520) ∧
  ∀ v : F32,
    (isNaN v = true → ceilI32 v = 0#32) ∧
    (isNaN v = false → 2 ^ 31 * (unitsPerOne : Int) ≤ value v → (ceilI32 v).toInt = 2147483647) ∧
    (isNaN v = false → value v ≤ -(2 ^ 31 * (unitsPerOne : Int)) → (ceilI32 v).toInt = -2147483648) ∧
    (isNaN v = false → |value v| < 2 ^ 31 * (unitsPerOne : Int) →
      value v ≤ (ceilI32 v).toInt * (unitsPerOne : Int) ∧ ((ceilI32 v).toInt - 1) * (unitsPerOne : Int) < value v)

/-- Rule R162: for `v` from 0 up to `2^23`, `f2i(fadd(v, 0.5))` is the nearest integer, a half going up, but for `0x3EFFFFFF`,
which gives 1. -/
def Obligations.BoundRoundsHalfUp : Prop :=
  f2i (fadd 0x3EFFFFFF#32 half) = 1#32 ∧
  ∀ v : F32, isFinite v = true → 0 ≤ value v → value v < 2 ^ 23 * (unitsPerOne : Int) → v ≠ 0x3EFFFFFF#32 →
    (f2i (fadd v half)).toInt = (2 * value v + unitsPerOne) / (2 * (unitsPerOne : Int))

/-- Rules R154, R155: an edge whose ends have equal y has slope `+0.0`; on every other edge with finite y the slope is the
quotient of the differences, and its divisor is not zero, so no zero reaches a division. -/
def Obligations.SlopeNeverDividesByZero : Prop :=
  ∀ (s : State) (a b : Word), isFinite (vy s a) = true → isFinite (vy s b) = true →
    (value (vy s b) = value (vy s a) → edgeSlope s a b = 0#32) ∧
    (value (vy s b) ≠ value (vy s a) →
      edgeSlope s a b = fdiv (fsub (vx s b) (vx s a)) (fsub (vy s b) (vy s a)) ∧
      value (fsub (vy s b) (vy s a)) ≠ 0)

/-! ### The rasterizer -/

/-- Rule R151: with no polygon, or fewer than 3 vertices, FILL_POLY does nothing. -/
def Obligations.FillWithoutPolygonDoesNothing : Prop :=
  ∀ s : State, s.pvalid = false ∨ s.nvert.toNat < 3 → exec .fillPoly s = .next s.startCommand

/-- Rule R175, with the loops as the pseudocode writes them: line F1 returns at once; on a polygon of 3 or more vertices FILL_POLY
ends normally, in the state its unbounded loops end in; only memory and what the host cannot see changes (rule R166). That it
does so with unwritten vertices, on free values (log entry 4), and with coordinates that are not finite (log entry 15) is the
model's choice: R35, R171 and R291 advise a model to fault or to refuse there. -/
def Obligations.FillFollowsTheLoops : Prop :=
  (∀ s : State, s.pvalid = false ∨ s.nvert.toNat < 3 → exec .fillPoly s = .next s.startCommand) ∧
  ∀ s : State, s.pvalid = true → 3 ≤ s.nvert.toNat →
    ∃ (n : Nat) (t : State), WalkRuns n (startChains (findTopBottom s.startCommand)) t ∧
      exec .fillPoly s = .next t.endCommand ∧ OnlyDrawing s t.endCommand

/-- Rule R165: the walk ends with a cursor at the bottom vertex, after at least `min(dL, dR)` and at most `NVERT - 1`
iterations; with the top and bottom vertex the same it does not start. It says so of unwritten vertices (log entry 4) and of
coordinates that are not finite (log entry 15) too. -/
def Obligations.WalkEndsAtTheBottomVertex : Prop :=
  ∀ (s : State) (n : Nat) (t : State), 3 ≤ s.nvert.toNat → WalkRuns n (startChains (findTopBottom s)) t →
    let top := (findTopBottom s).work.top
    let bot := (findTopBottom s).work.bot
    let dL := (bot.toNat + s.nvert.toNat - top.toNat) % s.nvert.toNat
    t.work.bot = bot ∧ (t.work.l = bot ∨ t.work.r = bot) ∧
    (top = bot → n = 0) ∧ (top ≠ bot → min dL (s.nvert.toNat - dL) ≤ n ∧ n ≤ s.nvert.toNat - 1)

/-- Rules R68, R77, R166: FILL_POLY changes visible pixels only: no padding pixel, no byte outside the framebuffer, no register,
no flag and no vertex. That it completes from EVERY state, so also with unwritten vertices (log entry 4) and with coordinates that
are not finite (log entry 15), is the model's choice: R35, R171 and R291 advise a model to fault or to refuse there. -/
def Obligations.FillChangesVisiblePixelsOnly : Prop :=
  ∀ s : State, ∃ t, exec .fillPoly s = .next t ∧ OnlyDrawing s t ∧
    (∀ y x : Nat, y < 240 → 400 ≤ x → x < 416 → pixel t y x = pixel s y x) ∧
    ∀ a, inFramebuffer s a = false → readByte t.mem a = readByte s.mem a

/-- Rules R14, R161, R163: a FILL_POLY is a list of `SPAN`s in `COLOR`, one for each of some rows of the framebuffer in rising
order, and nothing else; the rows lie at or below the top vertex. -/
def Obligations.FillIsSpansInRowOrder : Prop :=
  ∀ s t : State, exec .fillPoly s = .next t →
    ∃ rows : List (Word × Word × Word),
      (rows.map fun r => r.1.toInt).Pairwise (· < ·) ∧ (∀ r ∈ rows, 0 ≤ r.1.toInt ∧ r.1.toInt < 240 ∧
        (ceilI32 (vy s (findTopBottom s).work.top)).toInt ≤ r.1.toInt) ∧
      let drawn := rows.foldl (fun u r => span r.1 r.2.1 r.2.2 s.color u) s.startCommand
      t.mem = drawn.mem ∧ t.port = drawn.port

/-- Rule R152: with no NaN among the y coordinates, `TOP` is the first vertex of minimum y and `BOT` the first of maximum y. -/
def Obligations.TopAndBottomAreFirstExtremes : Prop :=
  ∀ s : State, 1 ≤ s.nvert.toNat → (∀ i : Word, i.toNat < s.nvert.toNat → isNaN (vy s i) = false) →
    let top := (findTopBottom s).work.top
    let bot := (findTopBottom s).work.bot
    top.toNat < s.nvert.toNat ∧ bot.toNat < s.nvert.toNat ∧
    (∀ i : Word, i.toNat < s.nvert.toNat → value (vy s top) ≤ value (vy s i) ∧ value (vy s i) ≤ value (vy s bot)) ∧
    (∀ i : Word, i.toNat < top.toNat → value (vy s top) < value (vy s i)) ∧
    (∀ i : Word, i.toNat < bot.toNat → value (vy s i) < value (vy s bot))

/-- Rules R41, R153: where both chains start. -/
def Obligations.ChainsStartAtTheTopVertex : Prop :=
  ∀ s : State, s.work.top.toNat < s.nvert.toNat →
    let w := (startChains s).work
    w.l = s.work.top ∧ w.r = s.work.top ∧
    w.ln.toNat = (s.work.top.toNat + 1) % s.nvert.toNat ∧
    w.rn.toNat = (s.work.top.toNat + s.nvert.toNat - 1) % s.nvert.toNat ∧
    w.xl = vx s s.work.top ∧ w.xr = vx s s.work.top ∧ w.sl = edgeSlope s w.l w.ln ∧ w.sr = edgeSlope s w.r w.rn ∧
    w.y = ceilI32 (vy s s.work.top) ∧ w.top = s.work.top ∧ w.bot = s.work.bot

/-- Rules R159, R160, R171: the band ends at the smaller next y, rounded up; the left chain is chosen on a tie, and the right one
when a y is a NaN, on which the model follows R171 and does not refuse (log entry 15). -/
def Obligations.BandEndsAtTheNearerVertex : Prop :=
  (∀ s : State, isNaN (vy s s.work.ln) = true ∨ isNaN (vy s s.work.rn) = true →
    leftFirst s = false ∧ (setBandEnd s).work.yEnd = ceilI32 (vy s s.work.rn)) ∧
  ∀ s : State, isNaN (vy s s.work.ln) = false → isNaN (vy s s.work.rn) = false →
    (value (vy s s.work.ln) ≤ value (vy s s.work.rn) →
      leftFirst s = true ∧ (setBandEnd s).work.yEnd = ceilI32 (vy s s.work.ln)) ∧
    (value (vy s s.work.rn) < value (vy s s.work.ln) →
      leftFirst s = false ∧ (setBandEnd s).work.yEnd = ceilI32 (vy s s.work.rn))

/-- Rule R161 with R162 and R163: one row of a band. A row of the framebuffer gets one `SPAN` of the rounded accumulators, and its
memory and its accesses are that `SPAN`'s; a row outside the framebuffer changes `XL`, `XR` and `Y` only; either way the slopes are
added once, the row counter goes on by one without wrapping, and the other registers of the walk stay. -/
def Obligations.RowDrawsThenAddsSlopes : Prop :=
  ∀ s : State, s.work.y.toInt < s.work.yEnd.toInt →
    let t := nextRow (drawRow s)
    (0 ≤ s.work.y.toInt ∧ s.work.y.toInt < 240 →
      t.mem = (span s.work.y (f2i (fadd s.work.xl half)) (f2i (fadd s.work.xr half)) s.color s).mem ∧
      t.port = (span s.work.y (f2i (fadd s.work.xl half)) (f2i (fadd s.work.xr half)) s.color s).port) ∧
    (s.work.y.toInt < 0 ∨ 240 ≤ s.work.y.toInt → t.mem = s.mem ∧ t.port = s.port ∧
      t = s.setWork { s.work with xl := t.work.xl, xr := t.work.xr, y := t.work.y }) ∧
    t.work.xl = fadd s.work.xl s.work.sl ∧ t.work.xr = fadd s.work.xr s.work.sr ∧
    t.work.y.toInt = s.work.y.toInt + 1 ∧ t.work.sl = s.work.sl ∧ t.work.sr = s.work.sr ∧
    t.work.l = s.work.l ∧ t.work.ln = s.work.ln ∧ t.work.r = s.work.r ∧ t.work.rn = s.work.rn ∧
    t.work.yEnd = s.work.yEnd ∧ t.work.top = s.work.top ∧ t.work.bot = s.work.bot ∧ OnlyDrawing s t

/-- Rule R164: the chosen chain advances to its next vertex, takes that vertex's exact x and the slope of its next edge; the other
chain is not touched. -/
def Obligations.ChainAdvanceReloadsX : Prop :=
  ∀ s : State, s.work.ln.toNat < s.nvert.toNat → s.work.rn.toNat < s.nvert.toNat →
    (let t := advanceLeft s;
      t.work.l = s.work.ln ∧ t.work.ln.toNat = (s.work.ln.toNat + 1) % s.nvert.toNat ∧ t.work.xl = vx s t.work.l ∧
      t.work.sl = edgeSlope s t.work.l t.work.ln ∧
      t = s.setWork { s.work with l := t.work.l, ln := t.work.ln, xl := t.work.xl, sl := t.work.sl }) ∧
    (let t := advanceRight s;
      t.work.r = s.work.rn ∧ t.work.rn.toNat = (s.work.rn.toNat + s.nvert.toNat - 1) % s.nvert.toNat ∧
      t.work.xr = vx s t.work.r ∧ t.work.sr = edgeSlope s t.work.r t.work.rn ∧
      t = s.setWork { s.work with r := t.work.r, rn := t.work.rn, xr := t.work.xr, sr := t.work.sr })

/-- Rules R34, R36, R75, R92, R150: what FILL_POLY draws depends only on `PVALID`, `NVERT`, the vertices below `NVERT`, `COLOR`,
`FB_BASE` and memory: not on `ARG0` to `ARG2`, not on what an earlier command left in the working registers. -/
def Obligations.FillDependsOnItsInputsOnly : Prop :=
  ∀ s s' t t' : State, s'.pvalid = s.pvalid → s'.nvert = s.nvert → s'.color = s.color → s'.fbBase = s.fbBase →
    s'.mem = s.mem →
    (∀ i : Word, i.toNat < s.nvert.toNat → vx s' i = vx s i ∧ vy s' i = vy s i) →
    exec .fillPoly s = .next t → exec .fillPoly s' = .next t' → t'.mem = t.mem ∧ t'.port = t.port

/-- Rules R36, R92, R120: what DRAW_SPAN draws depends only on `ARG0` to `ARG2`, `COLOR`, `FB_BASE` and memory. -/
def Obligations.DrawSpanDependsOnItsInputsOnly : Prop :=
  ∀ s s' t t' : State, s'.arg0 = s.arg0 → s'.arg1 = s.arg1 → s'.arg2 = s.arg2 → s'.color = s.color →
    s'.fbBase = s.fbBase → s'.mem = s.mem →
    exec .drawSpan s = .next t → exec .drawSpan s' = .next t' → t'.mem = t.mem ∧ t'.port = t.port

/-- Rule R175 on an upright rectangle whose four corners are given down the left side first (the order of rule R167): whole
coordinates anywhere from `-2^20` to `2^20`. Exactly the visible pixels of `[x0, x1)` by `[y0, y1)` take their bit of
`COLOR`. -/
def Obligations.RectangleFillIsExact : Prop :=
  ∀ (s : State) (x0 x1 y0 y1 : Int), s.pvalid = true → s.nvert = 4#32 →
    |x0| ≤ 2 ^ 20 → |x1| ≤ 2 ^ 20 → |y0| ≤ 2 ^ 20 → |y1| ≤ 2 ^ 20 → y0 < y1 →
    IsWhole (vx s 0) x0 → IsWhole (vy s 0) y0 → IsWhole (vx s 1) x0 → IsWhole (vy s 1) y1 →
    IsWhole (vx s 2) x1 → IsWhole (vy s 2) y1 → IsWhole (vx s 3) x1 → IsWhole (vy s 3) y0 →
    ∃ t, exec .fillPoly s = .next t ∧ ∀ y x : Nat, y < 240 → x < 400 → pixel t y x =
      if y0 ≤ y ∧ (y : Int) < y1 ∧ x0 ≤ x ∧ (x : Int) < x1 then colourBit s.color x else pixel s y x
end

