-- ==== Sys2Proof/Laws/State.lean ====
section
/-! SUPPORT. One lemma per field of `State` per named update: what the update does to that field. True by unfolding once, so that
no later proof unfolds a record update. -/

namespace Sys2Proof.Machine

/-! ### `startCommand` -/

@[simp] theorem startCommand_fbBaseHi (s : State) : s.startCommand.fbBaseHi = s.fbBaseHi := rfl
@[simp] theorem startCommand_color (s : State) : s.startCommand.color = s.color := rfl
@[simp] theorem startCommand_arg0 (s : State) : s.startCommand.arg0 = s.arg0 := rfl
@[simp] theorem startCommand_arg1 (s : State) : s.startCommand.arg1 = s.arg1 := rfl
@[simp] theorem startCommand_arg2 (s : State) : s.startCommand.arg2 = s.arg2 := rfl
@[simp] theorem startCommand_pvalid (s : State) : s.startCommand.pvalid = s.pvalid := rfl
@[simp] theorem startCommand_nvert (s : State) : s.startCommand.nvert = s.nvert := rfl
@[simp] theorem startCommand_vtxCap (s : State) : s.startCommand.vtxCap = s.vtxCap := rfl
@[simp] theorem startCommand_store (s : State) : s.startCommand.store = s.store := rfl
@[simp] theorem startCommand_slotEpoch (s : State) : s.startCommand.slotEpoch = s.slotEpoch := rfl
@[simp] theorem startCommand_work (s : State) : s.startCommand.work = s.work := rfl
@[simp] theorem startCommand_workEpoch (s : State) : s.startCommand.workEpoch = s.workEpoch := rfl
@[simp] theorem startCommand_mem (s : State) : s.startCommand.mem = s.mem := rfl
@[simp] theorem startCommand_bus (s : State) : s.startCommand.bus = s.bus := rfl
@[simp] theorem startCommand_readData (s : State) : s.startCommand.readData = s.readData := rfl
@[simp] theorem startCommand_port (s : State) : s.startCommand.port = [] := rfl
@[simp] theorem startCommand_fbBase (s : State) : s.startCommand.fbBase = s.fbBase := rfl

/-! ### `endCommand` -/

@[simp] theorem endCommand_fbBaseHi (s : State) : s.endCommand.fbBaseHi = s.fbBaseHi := rfl
@[simp] theorem endCommand_color (s : State) : s.endCommand.color = s.color := rfl
@[simp] theorem endCommand_arg0 (s : State) : s.endCommand.arg0 = s.arg0 := rfl
@[simp] theorem endCommand_arg1 (s : State) : s.endCommand.arg1 = s.arg1 := rfl
@[simp] theorem endCommand_arg2 (s : State) : s.endCommand.arg2 = s.arg2 := rfl
@[simp] theorem endCommand_pvalid (s : State) : s.endCommand.pvalid = s.pvalid := rfl
@[simp] theorem endCommand_nvert (s : State) : s.endCommand.nvert = s.nvert := rfl
@[simp] theorem endCommand_vtxCap (s : State) : s.endCommand.vtxCap = s.vtxCap := rfl
@[simp] theorem endCommand_store (s : State) : s.endCommand.store = s.store := rfl
@[simp] theorem endCommand_slotEpoch (s : State) : s.endCommand.slotEpoch = s.slotEpoch := rfl
@[simp] theorem endCommand_work (s : State) : s.endCommand.work = Work.unspecified s.workEpoch := rfl
@[simp] theorem endCommand_workEpoch (s : State) : s.endCommand.workEpoch = s.workEpoch + 1 := rfl
@[simp] theorem endCommand_mem (s : State) : s.endCommand.mem = s.mem := rfl
@[simp] theorem endCommand_bus (s : State) : s.endCommand.bus = s.bus := rfl
@[simp] theorem endCommand_readData (s : State) : s.endCommand.readData = s.readData := rfl
@[simp] theorem endCommand_port (s : State) : s.endCommand.port = s.port := rfl
@[simp] theorem endCommand_fbBase (s : State) : s.endCommand.fbBase = s.fbBase := rfl

/-! ### `record` -/

@[simp] theorem record_fbBaseHi (s : State) (p : PortAccess) : (s.record p).fbBaseHi = s.fbBaseHi := rfl
@[simp] theorem record_color (s : State) (p : PortAccess) : (s.record p).color = s.color := rfl
@[simp] theorem record_arg0 (s : State) (p : PortAccess) : (s.record p).arg0 = s.arg0 := rfl
@[simp] theorem record_arg1 (s : State) (p : PortAccess) : (s.record p).arg1 = s.arg1 := rfl
@[simp] theorem record_arg2 (s : State) (p : PortAccess) : (s.record p).arg2 = s.arg2 := rfl
@[simp] theorem record_pvalid (s : State) (p : PortAccess) : (s.record p).pvalid = s.pvalid := rfl
@[simp] theorem record_nvert (s : State) (p : PortAccess) : (s.record p).nvert = s.nvert := rfl
@[simp] theorem record_vtxCap (s : State) (p : PortAccess) : (s.record p).vtxCap = s.vtxCap := rfl
@[simp] theorem record_store (s : State) (p : PortAccess) : (s.record p).store = s.store := rfl
@[simp] theorem record_slotEpoch (s : State) (p : PortAccess) : (s.record p).slotEpoch = s.slotEpoch := rfl
@[simp] theorem record_work (s : State) (p : PortAccess) : (s.record p).work = s.work := rfl
@[simp] theorem record_workEpoch (s : State) (p : PortAccess) : (s.record p).workEpoch = s.workEpoch := rfl
@[simp] theorem record_mem (s : State) (p : PortAccess) : (s.record p).mem = s.mem := rfl
@[simp] theorem record_bus (s : State) (p : PortAccess) : (s.record p).bus = s.bus := rfl
@[simp] theorem record_readData (s : State) (p : PortAccess) : (s.record p).readData = s.readData := rfl
@[simp] theorem record_port (s : State) (p : PortAccess) : (s.record p).port = p :: s.port := rfl
@[simp] theorem record_fbBase (s : State) (p : PortAccess) : (s.record p).fbBase = s.fbBase := rfl

/-! ### `portRead` -/

@[simp] theorem portRead_fbBaseHi (s : State) (a : Word) : (portRead a s).fbBaseHi = s.fbBaseHi := rfl
@[simp] theorem portRead_color (s : State) (a : Word) : (portRead a s).color = s.color := rfl
@[simp] theorem portRead_arg0 (s : State) (a : Word) : (portRead a s).arg0 = s.arg0 := rfl
@[simp] theorem portRead_arg1 (s : State) (a : Word) : (portRead a s).arg1 = s.arg1 := rfl
@[simp] theorem portRead_arg2 (s : State) (a : Word) : (portRead a s).arg2 = s.arg2 := rfl
@[simp] theorem portRead_pvalid (s : State) (a : Word) : (portRead a s).pvalid = s.pvalid := rfl
@[simp] theorem portRead_nvert (s : State) (a : Word) : (portRead a s).nvert = s.nvert := rfl
@[simp] theorem portRead_vtxCap (s : State) (a : Word) : (portRead a s).vtxCap = s.vtxCap := rfl
@[simp] theorem portRead_store (s : State) (a : Word) : (portRead a s).store = s.store := rfl
@[simp] theorem portRead_slotEpoch (s : State) (a : Word) : (portRead a s).slotEpoch = s.slotEpoch := rfl
@[simp] theorem portRead_work (s : State) (a : Word) : (portRead a s).work = s.work := rfl
@[simp] theorem portRead_workEpoch (s : State) (a : Word) : (portRead a s).workEpoch = s.workEpoch := rfl
@[simp] theorem portRead_mem (s : State) (a : Word) : (portRead a s).mem = s.mem := rfl
@[simp] theorem portRead_bus (s : State) (a : Word) : (portRead a s).bus = s.bus := rfl
@[simp] theorem portRead_readData (s : State) (a : Word) : (portRead a s).readData = s.readData := rfl
@[simp] theorem portRead_port (s : State) (a : Word) : (portRead a s).port = .read a (readWord s.mem a) :: s.port := rfl
@[simp] theorem portRead_fbBase (s : State) (a : Word) : (portRead a s).fbBase = s.fbBase := rfl

/-! ### `portWrite` -/

@[simp] theorem portWrite_fbBaseHi (s : State) (a v : Word) : (portWrite a v s).fbBaseHi = s.fbBaseHi := rfl
@[simp] theorem portWrite_color (s : State) (a v : Word) : (portWrite a v s).color = s.color := rfl
@[simp] theorem portWrite_arg0 (s : State) (a v : Word) : (portWrite a v s).arg0 = s.arg0 := rfl
@[simp] theorem portWrite_arg1 (s : State) (a v : Word) : (portWrite a v s).arg1 = s.arg1 := rfl
@[simp] theorem portWrite_arg2 (s : State) (a v : Word) : (portWrite a v s).arg2 = s.arg2 := rfl
@[simp] theorem portWrite_pvalid (s : State) (a v : Word) : (portWrite a v s).pvalid = s.pvalid := rfl
@[simp] theorem portWrite_nvert (s : State) (a v : Word) : (portWrite a v s).nvert = s.nvert := rfl
@[simp] theorem portWrite_vtxCap (s : State) (a v : Word) : (portWrite a v s).vtxCap = s.vtxCap := rfl
@[simp] theorem portWrite_store (s : State) (a v : Word) : (portWrite a v s).store = s.store := rfl
@[simp] theorem portWrite_slotEpoch (s : State) (a v : Word) : (portWrite a v s).slotEpoch = s.slotEpoch := rfl
@[simp] theorem portWrite_work (s : State) (a v : Word) : (portWrite a v s).work = s.work := rfl
@[simp] theorem portWrite_workEpoch (s : State) (a v : Word) : (portWrite a v s).workEpoch = s.workEpoch := rfl
@[simp] theorem portWrite_mem (s : State) (a v : Word) : (portWrite a v s).mem = writeWord s.mem a v := rfl
@[simp] theorem portWrite_bus (s : State) (a v : Word) : (portWrite a v s).bus = s.bus := rfl
@[simp] theorem portWrite_readData (s : State) (a v : Word) : (portWrite a v s).readData = s.readData := rfl
@[simp] theorem portWrite_port (s : State) (a v : Word) : (portWrite a v s).port = .write a v :: s.port := rfl
@[simp] theorem portWrite_fbBase (s : State) (a v : Word) : (portWrite a v s).fbBase = s.fbBase := rfl

/-! ### `createSlot` -/

@[simp] theorem createSlot_fbBaseHi (s : State) (n : Word) : (s.createSlot n).fbBaseHi = s.fbBaseHi := rfl
@[simp] theorem createSlot_color (s : State) (n : Word) : (s.createSlot n).color = s.color := rfl
@[simp] theorem createSlot_arg0 (s : State) (n : Word) : (s.createSlot n).arg0 = s.arg0 := rfl
@[simp] theorem createSlot_arg1 (s : State) (n : Word) : (s.createSlot n).arg1 = s.arg1 := rfl
@[simp] theorem createSlot_arg2 (s : State) (n : Word) : (s.createSlot n).arg2 = s.arg2 := rfl
@[simp] theorem createSlot_pvalid (s : State) (n : Word) : (s.createSlot n).pvalid = true := rfl
@[simp] theorem createSlot_nvert (s : State) (n : Word) : (s.createSlot n).nvert = n := rfl
@[simp] theorem createSlot_vtxCap (s : State) (n : Word) : (s.createSlot n).vtxCap = s.vtxCap := rfl
@[simp] theorem createSlot_store (s : State) (n : Word) : (s.createSlot n).store = [] := rfl
@[simp] theorem createSlot_slotEpoch (s : State) (n : Word) : (s.createSlot n).slotEpoch = s.slotEpoch + 1 := rfl
@[simp] theorem createSlot_work (s : State) (n : Word) : (s.createSlot n).work = s.work := rfl
@[simp] theorem createSlot_workEpoch (s : State) (n : Word) : (s.createSlot n).workEpoch = s.workEpoch := rfl
@[simp] theorem createSlot_mem (s : State) (n : Word) : (s.createSlot n).mem = s.mem := rfl
@[simp] theorem createSlot_bus (s : State) (n : Word) : (s.createSlot n).bus = s.bus := rfl
@[simp] theorem createSlot_readData (s : State) (n : Word) : (s.createSlot n).readData = s.readData := rfl
@[simp] theorem createSlot_port (s : State) (n : Word) : (s.createSlot n).port = s.port := rfl
@[simp] theorem createSlot_fbBase (s : State) (n : Word) : (s.createSlot n).fbBase = s.fbBase := rfl

/-! ### `destroySlot` -/

@[simp] theorem destroySlot_fbBaseHi (s : State) : s.destroySlot.fbBaseHi = s.fbBaseHi := rfl
@[simp] theorem destroySlot_color (s : State) : s.destroySlot.color = s.color := rfl
@[simp] theorem destroySlot_arg0 (s : State) : s.destroySlot.arg0 = s.arg0 := rfl
@[simp] theorem destroySlot_arg1 (s : State) : s.destroySlot.arg1 = s.arg1 := rfl
@[simp] theorem destroySlot_arg2 (s : State) : s.destroySlot.arg2 = s.arg2 := rfl
@[simp] theorem destroySlot_pvalid (s : State) : s.destroySlot.pvalid = false := rfl
@[simp] theorem destroySlot_nvert (s : State) : s.destroySlot.nvert = 0#32 := rfl
@[simp] theorem destroySlot_vtxCap (s : State) : s.destroySlot.vtxCap = s.vtxCap := rfl
@[simp] theorem destroySlot_store (s : State) : s.destroySlot.store = [] := rfl
@[simp] theorem destroySlot_slotEpoch (s : State) : s.destroySlot.slotEpoch = s.slotEpoch := rfl
@[simp] theorem destroySlot_work (s : State) : s.destroySlot.work = s.work := rfl
@[simp] theorem destroySlot_workEpoch (s : State) : s.destroySlot.workEpoch = s.workEpoch := rfl
@[simp] theorem destroySlot_mem (s : State) : s.destroySlot.mem = s.mem := rfl
@[simp] theorem destroySlot_bus (s : State) : s.destroySlot.bus = s.bus := rfl
@[simp] theorem destroySlot_readData (s : State) : s.destroySlot.readData = s.readData := rfl
@[simp] theorem destroySlot_port (s : State) : s.destroySlot.port = s.port := rfl
@[simp] theorem destroySlot_fbBase (s : State) : s.destroySlot.fbBase = s.fbBase := rfl

/-! ### `writeVertex` -/

@[simp] theorem writeVertex_fbBaseHi (s : State) (i : Word) (x y : F32) : (s.writeVertex i x y).fbBaseHi = s.fbBaseHi := rfl
@[simp] theorem writeVertex_color (s : State) (i : Word) (x y : F32) : (s.writeVertex i x y).color = s.color := rfl
@[simp] theorem writeVertex_arg0 (s : State) (i : Word) (x y : F32) : (s.writeVertex i x y).arg0 = s.arg0 := rfl
@[simp] theorem writeVertex_arg1 (s : State) (i : Word) (x y : F32) : (s.writeVertex i x y).arg1 = s.arg1 := rfl
@[simp] theorem writeVertex_arg2 (s : State) (i : Word) (x y : F32) : (s.writeVertex i x y).arg2 = s.arg2 := rfl
@[simp] theorem writeVertex_pvalid (s : State) (i : Word) (x y : F32) : (s.writeVertex i x y).pvalid = s.pvalid := rfl
@[simp] theorem writeVertex_nvert (s : State) (i : Word) (x y : F32) : (s.writeVertex i x y).nvert = s.nvert := rfl
@[simp] theorem writeVertex_vtxCap (s : State) (i : Word) (x y : F32) : (s.writeVertex i x y).vtxCap = s.vtxCap := rfl
@[simp] theorem writeVertex_store (s : State) (i : Word) (x y : F32) : (s.writeVertex i x y).store = putEntry i.toNat ⟨x, y⟩ s.store := rfl
@[simp] theorem writeVertex_slotEpoch (s : State) (i : Word) (x y : F32) : (s.writeVertex i x y).slotEpoch = s.slotEpoch := rfl
@[simp] theorem writeVertex_work (s : State) (i : Word) (x y : F32) : (s.writeVertex i x y).work = s.work := rfl
@[simp] theorem writeVertex_workEpoch (s : State) (i : Word) (x y : F32) : (s.writeVertex i x y).workEpoch = s.workEpoch := rfl
@[simp] theorem writeVertex_mem (s : State) (i : Word) (x y : F32) : (s.writeVertex i x y).mem = s.mem := rfl
@[simp] theorem writeVertex_bus (s : State) (i : Word) (x y : F32) : (s.writeVertex i x y).bus = s.bus := rfl
@[simp] theorem writeVertex_readData (s : State) (i : Word) (x y : F32) : (s.writeVertex i x y).readData = s.readData := rfl
@[simp] theorem writeVertex_port (s : State) (i : Word) (x y : F32) : (s.writeVertex i x y).port = s.port := rfl
@[simp] theorem writeVertex_fbBase (s : State) (i : Word) (x y : F32) : (s.writeVertex i x y).fbBase = s.fbBase := rfl

/-! ### `resetBlock` -/

@[simp] theorem resetBlock_fbBaseHi (s : State) : s.resetBlock.fbBaseHi = 0#30 := rfl
@[simp] theorem resetBlock_color (s : State) : s.resetBlock.color = 0xFFFFFFFF#32 := rfl
@[simp] theorem resetBlock_arg0 (s : State) : s.resetBlock.arg0 = 0#32 := rfl
@[simp] theorem resetBlock_arg1 (s : State) : s.resetBlock.arg1 = 0#32 := rfl
@[simp] theorem resetBlock_arg2 (s : State) : s.resetBlock.arg2 = 0#32 := rfl
@[simp] theorem resetBlock_pvalid (s : State) : s.resetBlock.pvalid = false := rfl
@[simp] theorem resetBlock_nvert (s : State) : s.resetBlock.nvert = 0#32 := rfl
@[simp] theorem resetBlock_vtxCap (s : State) : s.resetBlock.vtxCap = s.vtxCap := rfl
@[simp] theorem resetBlock_store (s : State) : s.resetBlock.store = [] := rfl
@[simp] theorem resetBlock_slotEpoch (s : State) : s.resetBlock.slotEpoch = s.slotEpoch := rfl
@[simp] theorem resetBlock_work (s : State) : s.resetBlock.work = Work.unspecified s.workEpoch := rfl
@[simp] theorem resetBlock_workEpoch (s : State) : s.resetBlock.workEpoch = s.workEpoch + 1 := rfl
@[simp] theorem resetBlock_mem (s : State) : s.resetBlock.mem = s.mem := rfl
@[simp] theorem resetBlock_bus (s : State) : s.resetBlock.bus = s.bus := rfl
@[simp] theorem resetBlock_readData (s : State) : s.resetBlock.readData = s.readData := rfl
@[simp] theorem resetBlock_port (s : State) : s.resetBlock.port = s.port := rfl

/-! ### `setKM` -/

@[simp] theorem setKM_fbBaseHi (s : State) (k m : Word) : (s.setKM k m).fbBaseHi = s.fbBaseHi := rfl
@[simp] theorem setKM_color (s : State) (k m : Word) : (s.setKM k m).color = s.color := rfl
@[simp] theorem setKM_arg0 (s : State) (k m : Word) : (s.setKM k m).arg0 = s.arg0 := rfl
@[simp] theorem setKM_arg1 (s : State) (k m : Word) : (s.setKM k m).arg1 = s.arg1 := rfl
@[simp] theorem setKM_arg2 (s : State) (k m : Word) : (s.setKM k m).arg2 = s.arg2 := rfl
@[simp] theorem setKM_pvalid (s : State) (k m : Word) : (s.setKM k m).pvalid = s.pvalid := rfl
@[simp] theorem setKM_nvert (s : State) (k m : Word) : (s.setKM k m).nvert = s.nvert := rfl
@[simp] theorem setKM_vtxCap (s : State) (k m : Word) : (s.setKM k m).vtxCap = s.vtxCap := rfl
@[simp] theorem setKM_store (s : State) (k m : Word) : (s.setKM k m).store = s.store := rfl
@[simp] theorem setKM_slotEpoch (s : State) (k m : Word) : (s.setKM k m).slotEpoch = s.slotEpoch := rfl
@[simp] theorem setKM_work (s : State) (k m : Word) : (s.setKM k m).work = { s.work with k := k, m := m } := rfl
@[simp] theorem setKM_workEpoch (s : State) (k m : Word) : (s.setKM k m).workEpoch = s.workEpoch := rfl
@[simp] theorem setKM_mem (s : State) (k m : Word) : (s.setKM k m).mem = s.mem := rfl
@[simp] theorem setKM_bus (s : State) (k m : Word) : (s.setKM k m).bus = s.bus := rfl
@[simp] theorem setKM_readData (s : State) (k m : Word) : (s.setKM k m).readData = s.readData := rfl
@[simp] theorem setKM_port (s : State) (k m : Word) : (s.setKM k m).port = s.port := rfl
@[simp] theorem setKM_fbBase (s : State) (k m : Word) : (s.setKM k m).fbBase = s.fbBase := rfl

/-! ### `setClip` -/

@[simp] theorem setClip_fbBaseHi (s : State) (x1c x2c : Word) : (s.setClip x1c x2c).fbBaseHi = s.fbBaseHi := rfl
@[simp] theorem setClip_color (s : State) (x1c x2c : Word) : (s.setClip x1c x2c).color = s.color := rfl
@[simp] theorem setClip_arg0 (s : State) (x1c x2c : Word) : (s.setClip x1c x2c).arg0 = s.arg0 := rfl
@[simp] theorem setClip_arg1 (s : State) (x1c x2c : Word) : (s.setClip x1c x2c).arg1 = s.arg1 := rfl
@[simp] theorem setClip_arg2 (s : State) (x1c x2c : Word) : (s.setClip x1c x2c).arg2 = s.arg2 := rfl
@[simp] theorem setClip_pvalid (s : State) (x1c x2c : Word) : (s.setClip x1c x2c).pvalid = s.pvalid := rfl
@[simp] theorem setClip_nvert (s : State) (x1c x2c : Word) : (s.setClip x1c x2c).nvert = s.nvert := rfl
@[simp] theorem setClip_vtxCap (s : State) (x1c x2c : Word) : (s.setClip x1c x2c).vtxCap = s.vtxCap := rfl
@[simp] theorem setClip_store (s : State) (x1c x2c : Word) : (s.setClip x1c x2c).store = s.store := rfl
@[simp] theorem setClip_slotEpoch (s : State) (x1c x2c : Word) : (s.setClip x1c x2c).slotEpoch = s.slotEpoch := rfl
@[simp] theorem setClip_work (s : State) (x1c x2c : Word) : (s.setClip x1c x2c).work = { s.work with x1c := x1c, x2c := x2c } := rfl
@[simp] theorem setClip_workEpoch (s : State) (x1c x2c : Word) : (s.setClip x1c x2c).workEpoch = s.workEpoch := rfl
@[simp] theorem setClip_mem (s : State) (x1c x2c : Word) : (s.setClip x1c x2c).mem = s.mem := rfl
@[simp] theorem setClip_bus (s : State) (x1c x2c : Word) : (s.setClip x1c x2c).bus = s.bus := rfl
@[simp] theorem setClip_readData (s : State) (x1c x2c : Word) : (s.setClip x1c x2c).readData = s.readData := rfl
@[simp] theorem setClip_port (s : State) (x1c x2c : Word) : (s.setClip x1c x2c).port = s.port := rfl
@[simp] theorem setClip_fbBase (s : State) (x1c x2c : Word) : (s.setClip x1c x2c).fbBase = s.fbBase := rfl

/-! ### `setWork` -/

@[simp] theorem setWork_fbBaseHi (s : State) (w : Work) : (s.setWork w).fbBaseHi = s.fbBaseHi := rfl
@[simp] theorem setWork_color (s : State) (w : Work) : (s.setWork w).color = s.color := rfl
@[simp] theorem setWork_arg0 (s : State) (w : Work) : (s.setWork w).arg0 = s.arg0 := rfl
@[simp] theorem setWork_arg1 (s : State) (w : Work) : (s.setWork w).arg1 = s.arg1 := rfl
@[simp] theorem setWork_arg2 (s : State) (w : Work) : (s.setWork w).arg2 = s.arg2 := rfl
@[simp] theorem setWork_pvalid (s : State) (w : Work) : (s.setWork w).pvalid = s.pvalid := rfl
@[simp] theorem setWork_nvert (s : State) (w : Work) : (s.setWork w).nvert = s.nvert := rfl
@[simp] theorem setWork_vtxCap (s : State) (w : Work) : (s.setWork w).vtxCap = s.vtxCap := rfl
@[simp] theorem setWork_store (s : State) (w : Work) : (s.setWork w).store = s.store := rfl
@[simp] theorem setWork_slotEpoch (s : State) (w : Work) : (s.setWork w).slotEpoch = s.slotEpoch := rfl
@[simp] theorem setWork_work (s : State) (w : Work) : (s.setWork w).work = w := rfl
@[simp] theorem setWork_workEpoch (s : State) (w : Work) : (s.setWork w).workEpoch = s.workEpoch := rfl
@[simp] theorem setWork_mem (s : State) (w : Work) : (s.setWork w).mem = s.mem := rfl
@[simp] theorem setWork_bus (s : State) (w : Work) : (s.setWork w).bus = s.bus := rfl
@[simp] theorem setWork_readData (s : State) (w : Work) : (s.setWork w).readData = s.readData := rfl
@[simp] theorem setWork_port (s : State) (w : Work) : (s.setWork w).port = s.port := rfl
@[simp] theorem setWork_fbBase (s : State) (w : Work) : (s.setWork w).fbBase = s.fbBase := rfl

/-! ### `pendingCommand` -/

@[simp] theorem pendingCommand_fbBaseHi (s : State) (w : Word) : (pendingCommand s w).fbBaseHi = s.fbBaseHi := rfl
@[simp] theorem pendingCommand_color (s : State) (w : Word) : (pendingCommand s w).color = s.color := rfl
@[simp] theorem pendingCommand_arg0 (s : State) (w : Word) : (pendingCommand s w).arg0 = s.arg0 := rfl
@[simp] theorem pendingCommand_arg1 (s : State) (w : Word) : (pendingCommand s w).arg1 = s.arg1 := rfl
@[simp] theorem pendingCommand_arg2 (s : State) (w : Word) : (pendingCommand s w).arg2 = s.arg2 := rfl
@[simp] theorem pendingCommand_pvalid (s : State) (w : Word) : (pendingCommand s w).pvalid = s.pvalid := rfl
@[simp] theorem pendingCommand_nvert (s : State) (w : Word) : (pendingCommand s w).nvert = s.nvert := rfl
@[simp] theorem pendingCommand_vtxCap (s : State) (w : Word) : (pendingCommand s w).vtxCap = s.vtxCap := rfl
@[simp] theorem pendingCommand_store (s : State) (w : Word) : (pendingCommand s w).store = s.store := rfl
@[simp] theorem pendingCommand_slotEpoch (s : State) (w : Word) : (pendingCommand s w).slotEpoch = s.slotEpoch := rfl
@[simp] theorem pendingCommand_work (s : State) (w : Word) : (pendingCommand s w).work = s.work := rfl
@[simp] theorem pendingCommand_workEpoch (s : State) (w : Word) : (pendingCommand s w).workEpoch = s.workEpoch := rfl
@[simp] theorem pendingCommand_mem (s : State) (w : Word) : (pendingCommand s w).mem = s.mem := rfl
@[simp] theorem pendingCommand_bus (s : State) (w : Word) : (pendingCommand s w).bus = .store 4 0 w :: s.bus := rfl
@[simp] theorem pendingCommand_readData (s : State) (w : Word) : (pendingCommand s w).readData = s.readData := rfl
@[simp] theorem pendingCommand_port (s : State) (w : Word) : (pendingCommand s w).port = s.port := rfl
@[simp] theorem pendingCommand_fbBase (s : State) (w : Word) : (pendingCommand s w).fbBase = s.fbBase := rfl

end Sys2Proof.Machine
end

