-- ==== Sys2Proof/Laws/Memory.lean ====
section
/-! SUPPORT. The laws of numbered lists and of framebuffer memory: what a read after a write gives, that every operation keeps
the canonical form, and that equal reads of canonical memories are equal memories. -/

namespace Sys2Proof.Machine

/-! ### Numbered lists -/

theorem entryAt_putEntry {α : Type} (k j : Nat) (v : α) (l : List (Nat × α)) :
    entryAt j (putEntry k v l) = if j = k then some v else entryAt j l := by
  induction l with
  | nil => simp [putEntry, entryAt, eq_comm]
  | cons e rest ih =>
    simp only [putEntry]
    by_cases h1 : k < e.1
    · simp [h1, entryAt, eq_comm]
    · by_cases h2 : e.1 = k
      · by_cases h3 : j = k
        · simp [h2, h3, entryAt]
        · simp [h2, h3, entryAt, Ne.symm h3]
      · by_cases h3 : e.1 = j
        · have h4 : j ≠ k := fun h => h2 (h3.trans h)
          rw [if_neg h1, if_neg h2, if_neg h4]
          simp [entryAt, h3]
        · simp [h1, h2, h3, entryAt, ih]

theorem entryAt_dropEntry {α : Type} (k j : Nat) (l : List (Nat × α)) :
    entryAt j (dropEntry k l) = if j = k then none else entryAt j l := by
  induction l with
  | nil => simp [dropEntry, entryAt]
  | cons e rest ih =>
    simp only [dropEntry]
    by_cases h1 : e.1 = k
    · rw [if_pos h1, ih]
      by_cases h2 : j = k
      · simp [h2]
      · simp [h1, h2, entryAt, Ne.symm h2]
    · by_cases h2 : e.1 = j
      · have h3 : j ≠ k := fun h => h1 (h2.trans h)
        simp [h2, h3, entryAt]
      · simp [h1, h2, entryAt, ih]

theorem all_putEntry {α : Type} (P : Nat × α → Bool) (k : Nat) (v : α) (l : List (Nat × α)) (hk : P (k, v) = true)
    (hl : l.all P = true) : (putEntry k v l).all P = true := by
  induction l with
  | nil => simp [putEntry, hk]
  | cons e rest ih =>
    simp only [List.all_cons, Bool.and_eq_true] at hl
    simp only [putEntry]
    split
    · simp [hk, hl.1, hl.2]
    · split
      · simp [hk, hl.2]
      · simp [hl.1, ih hl.2]

theorem all_dropEntry {α : Type} (P : Nat × α → Bool) (k : Nat) (l : List (Nat × α)) (hl : l.all P = true) :
    (dropEntry k l).all P = true := by
  induction l with
  | nil => rfl
  | cons e rest ih =>
    simp only [List.all_cons, Bool.and_eq_true] at hl
    simp only [dropEntry]
    split
    · exact ih hl.2
    · simp [hl.1, ih hl.2]

theorem rising_cons {α : Type} (e : Nat × α) (l : List (Nat × α)) :
    rising (e :: l) = true ↔ (l.all fun f => decide (e.1 < f.1)) = true ∧ rising l = true := by
  simp [rising]

theorem rising_putEntry {α : Type} (k : Nat) (v : α) (l : List (Nat × α)) (h : rising l = true) :
    rising (putEntry k v l) = true := by
  induction l with
  | nil => rfl
  | cons e rest ih =>
    obtain ⟨h1, h2⟩ := (rising_cons e rest).1 h
    simp only [putEntry]
    by_cases hk : k < e.1
    · simp only [hk, if_true]
      refine (rising_cons _ _).2 ⟨?_, h⟩
      simp only [List.all_eq_true, decide_eq_true_eq, List.mem_cons] at h1 ⊢
      rintro f (rfl | hf)
      · exact hk
      · exact lt_trans hk (h1 f hf)
    · by_cases he : e.1 = k
      · rw [if_neg hk, if_pos he]
        exact (rising_cons _ _).2 ⟨by rw [← he]; exact h1, h2⟩
      · simp only [hk, he, if_false]
        refine (rising_cons _ _).2 ⟨all_putEntry _ _ _ _ ?_ h1, ih h2⟩
        exact decide_eq_true (show e.1 < k by omega)

theorem rising_dropEntry {α : Type} (k : Nat) (l : List (Nat × α)) (h : rising l = true) :
    rising (dropEntry k l) = true := by
  induction l with
  | nil => rfl
  | cons e rest ih =>
    obtain ⟨h1, h2⟩ := (rising_cons e rest).1 h
    simp only [dropEntry]
    split
    · exact ih h2
    · exact (rising_cons _ _).2 ⟨all_dropEntry _ _ _ h1, ih h2⟩

theorem entryAt_none {α : Type} (k : Nat) (l : List (Nat × α)) (h : (l.all fun f => decide (k < f.1)) = true) :
    entryAt k l = none := by
  induction l with
  | nil => rfl
  | cons e rest ih =>
    simp only [List.all_cons, Bool.and_eq_true, decide_eq_true_eq] at h
    simp [entryAt, Nat.ne_of_gt h.1, ih h.2]

theorem entryAt_of_mem {α : Type} (e : Nat × α) (l : List (Nat × α)) (h : rising l = true) (he : e ∈ l) :
    entryAt e.1 l = some e.2 := by
  induction l with
  | nil => cases he
  | cons f rest ih =>
    obtain ⟨h1, h2⟩ := (rising_cons f rest).1 h
    rcases List.mem_cons.1 he with rfl | he
    · simp [entryAt]
    · have h3 : f.1 < e.1 := by
        have := List.all_eq_true.1 h1 e he
        simpa using this
      simp [entryAt, Nat.ne_of_lt h3, ih h2 he]

/-- Two rising lists with the same entries are the same list. -/
theorem rising_ext {α : Type} (l₁ l₂ : List (Nat × α)) (h₁ : rising l₁ = true) (h₂ : rising l₂ = true)
    (h : ∀ k, entryAt k l₁ = entryAt k l₂) : l₁ = l₂ := by
  induction l₁ generalizing l₂ with
  | nil =>
    cases l₂ with
    | nil => rfl
    | cons e rest => have := h e.1; simp [entryAt] at this
  | cons e r₁ ih =>
    cases l₂ with
    | nil => have := h e.1; simp [entryAt] at this
    | cons f r₂ =>
      obtain ⟨a₁, b₁⟩ := (rising_cons e r₁).1 h₁
      obtain ⟨a₂, b₂⟩ := (rising_cons f r₂).1 h₂
      have hef : e.1 = f.1 := by
        rcases Nat.lt_trichotomy e.1 f.1 with hlt | heq | hgt
        · have h3 : entryAt e.1 (f :: r₂) = none := entryAt_none _ _ (by
            simp only [List.all_eq_true, decide_eq_true_eq, List.mem_cons] at a₂ ⊢
            rintro g (rfl | hg)
            · exact hlt
            · exact lt_trans hlt (a₂ g hg))
          have := h e.1
          rw [h3] at this
          simp [entryAt] at this
        · exact heq
        · have h3 : entryAt f.1 (e :: r₁) = none := entryAt_none _ _ (by
            simp only [List.all_eq_true, decide_eq_true_eq, List.mem_cons] at a₁ ⊢
            rintro g (rfl | hg)
            · exact hgt
            · exact lt_trans hgt (a₁ g hg))
          have := h f.1
          rw [h3] at this
          simp [entryAt] at this
      have hv : e = f := by
        have := h e.1
        simp only [entryAt, hef, if_true, Option.some.injEq] at this
        exact Prod.ext hef this
      subst hv
      congr 1
      refine ih r₂ b₁ b₂ fun k => ?_
      by_cases hk : e.1 = k
      · subst hk
        rw [entryAt_none _ _ a₁, entryAt_none _ _ a₂]
      · have := h k
        simpa [entryAt, hk] using this

/-! ### Bytes -/

/-- What a byte reads as after a write: the value written at its own address, the old value at every other. -/
theorem readByte_writeByte (m : Memory) (a b : Word) (v : Byte) :
    readByte (writeByte m a v) b = if b = a then v else readByte m b := by
  have hab : b.toNat = a.toNat ↔ b = a := ⟨BitVec.eq_of_toNat_eq, congrArg _⟩
  unfold readByte writeByte
  split <;> rename_i hv
  · rw [entryAt_dropEntry]
    simp only [hab]
    split <;> simp [*]
  · rw [entryAt_putEntry]
    simp only [hab]
    split <;> simp [*]

theorem Memory.wf_iff (m : Memory) : Memory.wf m = true ↔
    rising m = true ∧ (m.all fun c => decide (c.1 < 2 ^ 32) && decide (c.2 ≠ unlistedByte)) = true := by
  simp only [Memory.wf, Bool.and_eq_true]

/-- A byte write keeps the canonical form. -/
theorem wf_writeByte (m : Memory) (a : Word) (v : Byte) (h : Memory.wf m = true) :
    Memory.wf (writeByte m a v) = true := by
  obtain ⟨h1, h2⟩ := (Memory.wf_iff m).1 h
  unfold writeByte
  split <;> rename_i hv
  · exact (Memory.wf_iff _).2 ⟨rising_dropEntry _ _ h1, all_dropEntry _ _ _ h2⟩
  · refine (Memory.wf_iff _).2 ⟨rising_putEntry _ _ _ h1, all_putEntry _ _ _ _ ?_ h2⟩
    simp only [Bool.and_eq_true, decide_eq_true_eq]
    exact ⟨a.isLt, hv⟩

/-- Canonical memories that read the same at every address are equal. -/
theorem memory_ext (m₁ m₂ : Memory) (h₁ : Memory.wf m₁ = true) (h₂ : Memory.wf m₂ = true)
    (h : ∀ a, readByte m₁ a = readByte m₂ a) : m₁ = m₂ := by
  obtain ⟨r₁, a₁⟩ := (Memory.wf_iff m₁).1 h₁
  obtain ⟨r₂, a₂⟩ := (Memory.wf_iff m₂).1 h₂
  have key : ∀ (m : Memory), (m.all fun c => decide (c.1 < 2 ^ 32) && decide (c.2 ≠ unlistedByte)) = true →
      ∀ k v, entryAt k m = some v → k < 2 ^ 32 ∧ v ≠ unlistedByte := by
    intro m hm
    induction m with
    | nil => intro k v h; simp [entryAt] at h
    | cons e rest ih =>
      intro k v h
      simp only [List.all_cons, Bool.and_eq_true, decide_eq_true_eq] at hm
      by_cases hk : e.1 = k
      · simp only [entryAt, hk, if_true, Option.some.injEq] at h
        exact ⟨hk ▸ hm.1.1, h ▸ hm.1.2⟩
      · simp only [entryAt, hk, if_false] at h
        exact ih hm.2 k v h
  refine rising_ext m₁ m₂ r₁ r₂ fun k => ?_
  by_cases hk : k < 2 ^ 32
  · have hb := h (BitVec.ofNat 32 k)
    simp only [readByte, BitVec.toNat_ofNat, Nat.mod_eq_of_lt hk] at hb
    cases e1 : entryAt k m₁ with
    | none =>
      cases e2 : entryAt k m₂ with
      | none => rfl
      | some v => simp [e1, e2] at hb; exact absurd hb.symm (key _ a₂ _ _ e2).2
    | some u =>
      cases e2 : entryAt k m₂ with
      | none => simp [e1, e2] at hb; exact absurd hb (key _ a₁ _ _ e1).2
      | some v => simp [e1, e2] at hb; rw [hb]
  · cases e1 : entryAt k m₁ with
    | some u => exact absurd (key _ a₁ _ _ e1).1 hk
    | none =>
      cases e2 : entryAt k m₂ with
      | some u => exact absurd (key _ a₂ _ _ e2).1 hk
      | none => rfl

/-! ### Words -/

/-- A word write keeps the canonical form. -/
theorem wf_writeWord (m : Memory) (a v : Word) (h : Memory.wf m = true) : Memory.wf (writeWord m a v) = true :=
  wf_writeByte _ _ _ (wf_writeByte _ _ _ (wf_writeByte _ _ _ (wf_writeByte _ _ _ h)))

/-- Replaying accesses keeps the canonical form. -/
theorem wf_replay (accesses : List PortAccess) : ∀ m : Memory, Memory.wf m = true → Memory.wf (replay m accesses) = true := by
  induction accesses with
  | nil => exact fun m h => h
  | cons p rest ih =>
    intro m h
    cases p with
    | read a v => exact ih m h
    | write a v => exact ih _ (wf_writeWord m a v h)

/-- Replaying one list after another. -/
theorem replay_append (xs ys : List PortAccess) : ∀ m : Memory, replay m (xs ++ ys) = replay (replay m xs) ys := by
  induction xs with
  | nil => exact fun m => rfl
  | cons p rest ih => intro m; cases p <;> exact ih _

/-- Bit `j` of byte `i` of a word. -/
theorem byteOf_getLsbD (v : Word) (i j : Nat) (hj : j < 8) : (byteOf v i).getLsbD j = v.getLsbD (8 * i + j) := by
  simp [byteOf, hj]

/-- What a byte reads as after a word write: byte `i` of the word at address `a + i`, the old value elsewhere. -/
theorem readByte_writeWord (m : Memory) (a v b : Word) :
    readByte (writeWord m a v) b = if (b - a).toNat < 4 then byteOf v (b - a).toNat else readByte m b := by
  unfold writeWord
  simp only [readByte_writeByte]
  by_cases h3 : b = a + 3#32
  · simp [h3]
  by_cases h2 : b = a + 2#32
  · simp [h2]
  by_cases h1 : b = a + 1#32
  · simp [h1]
  by_cases h0 : b = a
  · simp [h0]
  · have : ¬ (b - a).toNat < 4 := by bv_omega
    rw [if_neg h3, if_neg h2, if_neg h1, if_neg h0, if_neg this]

/-- Bit `i` of a word read: bit `i mod 8` of the byte at offset `i div 8` (rule R62). -/
theorem readWord_getLsbD (m : Memory) (a : Word) (i : Nat) (hi : i < 32) :
    (readWord m a).getLsbD i = (readByte m (a + BitVec.ofNat 32 (i / 8))).getLsbD (i % 8) := by
  unfold readWord
  simp only [BitVec.getLsbD_append]
  rcases (by omega : i / 8 = 0 ∨ i / 8 = 1 ∨ i / 8 = 2 ∨ i / 8 = 3) with h | h | h | h
  · have : i < 8 := by omega
    simp [h, this, Nat.mod_eq_of_lt this]
  · have h1 : ¬ i < 8 := by omega
    have h2 : i - 8 < 8 := by omega
    have h3 : i % 8 = i - 8 := by omega
    simp [h, h1, h2, h3]
  · have h1 : ¬ i < 8 := by omega
    have h2 : ¬ i - 8 < 8 := by omega
    have h4 : i - 16 < 8 := by omega
    have h3 : i % 8 = i - 16 := by omega
    simp [h, h1, h2, h3, Nat.sub_sub, h4]
  · have h1 : ¬ i < 8 := by omega
    have h2 : ¬ i - 8 < 8 := by omega
    have h4 : ¬ i - 16 < 8 := by omega
    have h3 : i % 8 = i - 24 := by omega
    simp [h, h1, h2, h3, Nat.sub_sub, h4]

/-- A byte of a word read. -/
theorem byteOf_readWord (m : Memory) (a : Word) (i : Nat) (hi : i < 4) :
    byteOf (readWord m a) i = readByte m (a + BitVec.ofNat 32 i) := by
  apply BitVec.eq_of_getLsbD_eq
  intro j hj
  rw [byteOf_getLsbD _ _ _ hj, readWord_getLsbD _ _ _ (by omega)]
  have h1 : (8 * i + j) / 8 = i := by omega
  have h2 : (8 * i + j) % 8 = j := by omega
  rw [h1, h2]

/-- A word read after a word write at the same address gives the value written. -/
theorem readWord_writeWord_self (m : Memory) (a v : Word) : readWord (writeWord m a v) a = v := by
  apply BitVec.eq_of_getLsbD_eq
  intro i hi
  have h1 : (a + BitVec.ofNat 32 (i / 8) - a).toNat = i / 8 := by bv_omega
  have h2 : i / 8 < 4 := by omega
  rw [readWord_getLsbD _ _ _ hi, readByte_writeWord, h1, if_pos h2, byteOf_getLsbD _ _ _ (by omega)]
  congr 1
  omega

/-- A word read leaves a word write at another aligned address unseen. -/
theorem readWord_writeWord_ne (m : Memory) (a b v : Word) (h : 4 ≤ (b - a).toNat) (h' : 4 ≤ (a - b).toNat) :
    readWord (writeWord m a v) b = readWord m b := by
  apply BitVec.eq_of_getLsbD_eq
  intro i hi
  have h1 : ¬ (b + BitVec.ofNat 32 (i / 8) - a).toNat < 4 := by
    have : i / 8 < 4 := by omega
    bv_omega
  rw [readWord_getLsbD _ _ _ hi, readWord_getLsbD _ _ _ hi, readByte_writeWord, if_neg h1]

/-- Bit `i` of a byte-reversed word. -/
theorem bswap32_getLsbD (v : Word) (i : Nat) (hi : i < 32) :
    (bswap32 v).getLsbD i = v.getLsbD (8 * (3 - i / 8) + i % 8) := by
  unfold bswap32
  simp only [BitVec.getLsbD_append]
  rcases (by omega : i / 8 = 0 ∨ i / 8 = 1 ∨ i / 8 = 2 ∨ i / 8 = 3) with h | h | h | h
  · have h1 : i < 8 := by omega
    rw [if_pos h1, byteOf_getLsbD _ _ _ h1]
    congr 1; omega
  · have h1 : ¬ i < 8 := by omega
    have h2 : i - 8 < 8 := by omega
    rw [if_neg h1, if_pos h2, byteOf_getLsbD _ _ _ h2]
    congr 1; omega
  · have h1 : ¬ i < 8 := by omega
    have h2 : ¬ i - 8 < 8 := by omega
    have h3 : i - 8 - 8 < 8 := by omega
    rw [if_neg h1, if_neg h2, if_pos h3, byteOf_getLsbD _ _ _ h3]
    congr 1; omega
  · have h1 : ¬ i < 8 := by omega
    have h2 : ¬ i - 8 < 8 := by omega
    have h3 : ¬ i - 8 - 8 < 8 := by omega
    have h4 : i - 8 - 8 - 8 < 8 := by omega
    rw [if_neg h1, if_neg h2, if_neg h3, byteOf_getLsbD _ _ _ h4]
    congr 1; omega

end Sys2Proof.Machine
end

