-- ==== Sys2Proof/Laws/Span.lean ====
section
/-! SUPPORT. What the span writer does: the masks bit by bit (rules R124, R125), one word (rules R126, R132), and `SPAN` pixel by
pixel with its frame (rule R127). -/

namespace Sys2Proof.Machine

/-! ### What drawing leaves alone -/

theorem OnlyDrawing.refl (s : State) : OnlyDrawing s s := rfl

theorem OnlyDrawing.trans {s t u : State} (h₁ : OnlyDrawing s t) (h₂ : OnlyDrawing t u) : OnlyDrawing s u := by
  unfold OnlyDrawing at *
  rw [h₂, h₁]

theorem OnlyDrawing.fbBase {s t : State} (h : OnlyDrawing s t) : t.fbBase = s.fbBase := by unfold OnlyDrawing at h; rw [h]; rfl
theorem OnlyDrawing.color {s t : State} (h : OnlyDrawing s t) : t.color = s.color := by unfold OnlyDrawing at h; rw [h]
theorem OnlyDrawing.nvert {s t : State} (h : OnlyDrawing s t) : t.nvert = s.nvert := by unfold OnlyDrawing at h; rw [h]
theorem OnlyDrawing.pvalid {s t : State} (h : OnlyDrawing s t) : t.pvalid = s.pvalid := by unfold OnlyDrawing at h; rw [h]
theorem OnlyDrawing.store {s t : State} (h : OnlyDrawing s t) : t.store = s.store := by unfold OnlyDrawing at h; rw [h]
theorem OnlyDrawing.vtxCap {s t : State} (h : OnlyDrawing s t) : t.vtxCap = s.vtxCap := by unfold OnlyDrawing at h; rw [h]
theorem OnlyDrawing.bus {s t : State} (h : OnlyDrawing s t) : t.bus = s.bus := by unfold OnlyDrawing at h; rw [h]
theorem OnlyDrawing.vx {s t : State} (h : OnlyDrawing s t) (i : Word) : vx t i = vx s i := by unfold OnlyDrawing at h; rw [h]; rfl
theorem OnlyDrawing.vy {s t : State} (h : OnlyDrawing s t) (i : Word) : vy t i = vy s i := by unfold OnlyDrawing at h; rw [h]; rfl

theorem OnlyDrawing.edgeSlope {s t : State} (h : OnlyDrawing s t) (a b : Word) : edgeSlope t a b = edgeSlope s a b :=
  by unfold OnlyDrawing at h; rw [h]; rfl

theorem OnlyDrawing.wordAddress {s t : State} (h : OnlyDrawing s t) (y k : Nat) : wordAddress t y k = wordAddress s y k :=
  by unfold OnlyDrawing at h; rw [h]; rfl

theorem OnlyDrawing.pixelAddress {s t : State} (h : OnlyDrawing s t) (y x : Nat) :
    pixelAddress t y x = pixelAddress s y x := by unfold OnlyDrawing at h; rw [h]; rfl

theorem OnlyDrawing.inFramebuffer {s t : State} (h : OnlyDrawing s t) (a : Word) :
    inFramebuffer t a = inFramebuffer s a := by unfold OnlyDrawing at h; rw [h]; rfl

/-! ### Masks -/

/-- Bit `i` of a mask on the logical word. -/
theorem logicalMask_getLsbD (lo hi i : Nat) (hh : hi ≤ 32) (hi32 : i < 32) :
    (logicalMask lo hi).getLsbD i = decide (i + lo < 32 ∧ 32 - hi ≤ i) := by
  have h1 : (0xFFFFFFFF#32 : Word) = BitVec.allOnes 32 := by decide
  unfold logicalMask
  rw [h1, BitVec.getLsbD_and, BitVec.getLsbD_ushiftRight, BitVec.getLsbD_shiftLeft]
  simp only [BitVec.getLsbD_allOnes]
  rw [Bool.eq_iff_iff]
  simp only [Bool.and_eq_true, decide_eq_true_eq, Bool.not_eq_true', decide_eq_false_iff_not]
  omega

/-- Bit `i` of the mask applied to memory belongs to pixel `32*k + 8*(i div 8) + 7 - (i mod 8)` (rule R65) and is set when that
pixel is in the span. -/
theorem memoryMask_getLsbD (x1c x2c k i : Nat) (hi : i < 32) :
    (memoryMask x1c x2c k).getLsbD i =
      decide (x1c ≤ 32 * k + (8 * (i / 8) + 7 - i % 8) ∧ 32 * k + (8 * (i / 8) + 7 - i % 8) < x2c) := by
  unfold memoryMask
  rw [bswap32_getLsbD _ _ hi, logicalMask_getLsbD _ _ _ (by omega) (by omega)]
  rw [Bool.eq_iff_iff]
  simp only [decide_eq_true_eq]
  omega

/-! ### One word -/

/-- The value the masked write rule stores (rule R126). -/
def blend (m c w : Word) : Word := (w &&& ~~~m) ||| (c &&& m)

/-- Lane by lane (rule R132). -/
theorem blend_getLsbD (m c w : Word) (i : Nat) (hi : i < 32) :
    (blend m c w).getLsbD i = if m.getLsbD i then c.getLsbD i else w.getLsbD i := by
  unfold blend
  simp only [BitVec.getLsbD_or, BitVec.getLsbD_and, BitVec.getLsbD_not, hi, decide_true, Bool.true_and]
  cases m.getLsbD i <;> simp

/-- With a full mask the masked rule gives the colour: the fast path stores the same value (rule R126). -/
theorem blend_full (c w : Word) : blend 0xFFFFFFFF#32 c w = c := by
  apply BitVec.eq_of_getLsbD_eq
  intro i hi
  have h1 : (0xFFFFFFFF#32 : Word) = BitVec.allOnes 32 := by decide
  rw [blend_getLsbD _ _ _ _ hi, h1, BitVec.getLsbD_allOnes]
  simp [hi]

/-- What one masked write does: memory gets the blended word; the port shows one write, after one read when the mask is
partial. -/
theorem maskedWrite_eq (a m c : Word) (s : State) :
    maskedWrite a m c s =
      { s with
        mem := writeWord s.mem a (blend m c (readWord s.mem a))
        port := .write a (blend m c (readWord s.mem a)) ::
          (if m = 0xFFFFFFFF#32 then s.port else .read a (readWord s.mem a) :: s.port) } := by
  unfold maskedWrite
  split
  · rename_i h
    subst h
    rw [blend_full]
    rfl
  · rfl

/-- What steps S7 to S13 do for word `k`. -/
theorem spanWord_eq (y : Nat) (c : Word) (s : State) (k : Nat) :
    spanWord y c s k =
      let m := memoryMask s.work.x1c.toNat s.work.x2c.toNat k
      let a := wordAddress s y k
      { s with
        work := { s.work with k := BitVec.ofNat 32 k, m := m }
        mem := writeWord s.mem a (blend m c (readWord s.mem a))
        port := .write a (blend m c (readWord s.mem a)) ::
          (if m = 0xFFFFFFFF#32 then s.port else .read a (readWord s.mem a) :: s.port) } := by
  unfold spanWord
  rw [maskedWrite_eq]
  rfl

theorem spanWord_onlyDrawing (y : Nat) (c : Word) (s : State) (k : Nat) : OnlyDrawing s (spanWord y c s k) := by
  rw [spanWord_eq]; rfl

@[simp] theorem spanWord_x1c (y : Nat) (c : Word) (s : State) (k : Nat) : (spanWord y c s k).work.x1c = s.work.x1c := by
  rw [spanWord_eq]

@[simp] theorem spanWord_x2c (y : Nat) (c : Word) (s : State) (k : Nat) : (spanWord y c s k).work.x2c = s.work.x2c := by
  rw [spanWord_eq]

theorem spanWord_mem (y : Nat) (c : Word) (s : State) (k : Nat) :
    (spanWord y c s k).mem = writeWord s.mem (wordAddress s y k)
      (blend (memoryMask s.work.x1c.toNat s.work.x2c.toNat k) c (readWord s.mem (wordAddress s y k))) := by
  rw [spanWord_eq]

/-! ### Addresses -/

/-- Which bytes of the surface a word holds. -/
theorem pixelAddress_sub_wordAddress (s : State) (y y' k x : Nat) (hy : y < 240) (hy' : y' < 240) (hk : k < 13)
    (hx : x < 416) :
    (pixelAddress s y' x - wordAddress s y k).toNat < 4 ↔ y' = y ∧ x / 32 = k := by
  unfold pixelAddress wordAddress Config.stride
  have hP : 52 * y' + x / 8 < 12480 := by omega
  have hQ : 52 * y + 4 * k < 12480 := by omega
  have : (s.fbBase + BitVec.ofNat 32 (52 * y' + x / 8) - (s.fbBase + BitVec.ofNat 32 (52 * y + 4 * k))).toNat < 4 ↔
      52 * y + 4 * k ≤ 52 * y' + x / 8 ∧ 52 * y' + x / 8 < 52 * y + 4 * k + 4 := by
    generalize 52 * y' + x / 8 = P at *
    generalize 52 * y + 4 * k = Q at *
    bv_omega
  rw [this]
  omega

theorem pixelAddress_sub_wordAddress_eq (s : State) (y x : Nat) (hy : y < 240) (hx : x < 416) :
    (pixelAddress s y x - wordAddress s y (x / 32)).toNat = x % 32 / 8 := by
  unfold pixelAddress wordAddress Config.stride
  have hP : 52 * y + x / 8 < 12480 := by omega
  have hQ : 52 * y + 4 * (x / 32) ≤ 52 * y + x / 8 := by omega
  have hR : x % 32 / 8 = 52 * y + x / 8 - (52 * y + 4 * (x / 32)) := by omega
  rw [hR]
  generalize 52 * y + x / 8 = P at *
  generalize 52 * y + 4 * (x / 32) = Q at *
  bv_omega

/-- A word of the surface has its four bytes in the framebuffer. -/
theorem inFramebuffer_of_word (s : State) (a : Word) (y k : Nat) (hy : y < 240) (hk : k < 13)
    (h : (a - wordAddress s y k).toNat < 4) : inFramebuffer s a = true := by
  unfold inFramebuffer wordAddress Config.stride Config.framebufferBytes at *
  have hQ : 52 * y + 4 * k ≤ 12476 := by omega
  generalize 52 * y + 4 * k = Q at *
  rw [decide_eq_true_eq]
  bv_omega

/-! ### Words of a span -/

/-- Pixel by pixel, one word. -/
theorem spanWord_pixel (y : Nat) (c : Word) (s : State) (k y' x : Nat) (hy : y < 240) (hk : k < 13) (hy' : y' < 240)
    (hx : x < 416) :
    pixel (spanWord y c s k) y' x =
      if y' = y ∧ x / 32 = k ∧ s.work.x1c.toNat ≤ x ∧ x < s.work.x2c.toNat then colourBit c x else pixel s y' x := by
  unfold pixel
  rw [(spanWord_onlyDrawing y c s k).pixelAddress, spanWord_mem, readByte_writeWord]
  by_cases hw : y' = y ∧ x / 32 = k
  · obtain ⟨rfl, rfl⟩ := hw
    have hd := pixelAddress_sub_wordAddress_eq s y' x hy hx
    have hp : wordAddress s y' (x / 32) + BitVec.ofNat 32 (x % 32 / 8) = pixelAddress s y' x := by
      rw [← hd, BitVec.ofNat_toNat, BitVec.setWidth_eq]
      bv_omega
    have hlt : x % 32 / 8 < 4 := by omega
    rw [hd, if_pos hlt, byteOf_getLsbD _ _ _ (by omega), blend_getLsbD _ _ _ _ (by omega),
      memoryMask_getLsbD _ _ _ _ (by omega), readWord_getLsbD _ _ _ (by omega)]
    have h1 : (8 * (x % 32 / 8) + (7 - x % 8)) / 8 = x % 32 / 8 := by omega
    have h2 : (8 * (x % 32 / 8) + (7 - x % 8)) % 8 = 7 - x % 8 := by omega
    have h3 : 32 * (x / 32) + (8 * (x % 32 / 8) + 7 - (7 - x % 8)) = x := by omega
    have h4 : 8 * (x % 32 / 8) + 7 - x % 8 = 8 * (x % 32 / 8) + (7 - x % 8) := by omega
    rw [h1, h2, h3, hp]
    unfold colourBit
    rw [h4]
    simp only [decide_eq_true_eq, true_and]
  · have h1 := mt (pixelAddress_sub_wordAddress s y y' k x hy hy' hk hx).1 hw
    rw [if_neg h1, if_neg (fun h => hw ⟨h.1, h.2.1⟩)]

/-- Bytes outside the framebuffer, one word. -/
theorem spanWord_outside (y : Nat) (c : Word) (s : State) (k : Nat) (a : Word) (hy : y < 240) (hk : k < 13)
    (ha : inFramebuffer s a = false) : readByte (spanWord y c s k).mem a = readByte s.mem a := by
  rw [spanWord_mem, readByte_writeWord, if_neg]
  intro h
  rw [inFramebuffer_of_word s a y k hy hk h] at ha
  cases ha

/-- A list of words keeps the clipped bounds. -/
theorem foldl_spanWord_clip (y : Nat) (c : Word) (ks : List Nat) : ∀ s : State,
    (ks.foldl (spanWord y c) s).work.x1c = s.work.x1c ∧ (ks.foldl (spanWord y c) s).work.x2c = s.work.x2c := by
  induction ks with
  | nil => exact fun s => ⟨rfl, rfl⟩
  | cons k rest ih => intro s; simpa using ih (spanWord y c s k)

theorem foldl_spanWord_onlyDrawing (y : Nat) (c : Word) (ks : List Nat) : ∀ s : State,
    OnlyDrawing s (ks.foldl (spanWord y c) s) := by
  induction ks with
  | nil => exact OnlyDrawing.refl
  | cons k rest ih => intro s; exact (spanWord_onlyDrawing y c s k).trans (ih _)

/-- Pixel by pixel, a list of words. -/
theorem foldl_spanWord_pixel (y : Nat) (c : Word) (y' x : Nat) (hy : y < 240) (hy' : y' < 240) (hx : x < 416)
    (ks : List Nat) : (∀ k ∈ ks, k < 13) → ∀ s : State,
    pixel (ks.foldl (spanWord y c) s) y' x =
      if y' = y ∧ x / 32 ∈ ks ∧ s.work.x1c.toNat ≤ x ∧ x < s.work.x2c.toNat then colourBit c x else pixel s y' x := by
  induction ks with
  | nil => intro _ s; simp
  | cons k rest ih =>
    intro hks s
    rw [List.foldl_cons, ih (fun j hj => hks j (List.mem_cons_of_mem _ hj)),
      spanWord_pixel y c s k y' x hy (hks k List.mem_cons_self) hy' hx, spanWord_x1c, spanWord_x2c]
    by_cases h1 : y' = y ∧ s.work.x1c.toNat ≤ x ∧ x < s.work.x2c.toNat
    · by_cases h2 : x / 32 = k
      · simp [h1, h2]
      · simp [h1, h2]
    · have h3 : ¬ (y' = y ∧ x / 32 ∈ rest ∧ s.work.x1c.toNat ≤ x ∧ x < s.work.x2c.toNat) :=
        fun h => h1 ⟨h.1, h.2.2⟩
      have h4 : ¬ (y' = y ∧ x / 32 ∈ k :: rest ∧ s.work.x1c.toNat ≤ x ∧ x < s.work.x2c.toNat) :=
        fun h => h1 ⟨h.1, h.2.2⟩
      have h5 : ¬ (y' = y ∧ x / 32 = k ∧ s.work.x1c.toNat ≤ x ∧ x < s.work.x2c.toNat) :=
        fun h => h1 ⟨h.1, h.2.2⟩
      rw [if_neg h3, if_neg h4, if_neg h5]

/-- Bytes outside the framebuffer, a list of words. -/
theorem foldl_spanWord_outside (y : Nat) (c : Word) (a : Word) (hy : y < 240) (ks : List Nat) :
    (∀ k ∈ ks, k < 13) → ∀ s : State, inFramebuffer s a = false →
    readByte (ks.foldl (spanWord y c) s).mem a = readByte s.mem a := by
  induction ks with
  | nil => intro _ s _; rfl
  | cons k rest ih =>
    intro hks s ha
    rw [List.foldl_cons, ih (fun j hj => hks j (List.mem_cons_of_mem _ hj)) _
      (by rw [(spanWord_onlyDrawing y c s k).inFramebuffer]; exact ha),
      spanWord_outside y c s k a hy (hks k List.mem_cons_self) ha]

/-! ### Clipping -/

/-- The clipped bounds of a span that is not dropped at S2 (steps S3 and S4). -/
theorem clip_toNat (x1 x2 : Word) (h2 : 0 ≤ x2.toInt) (h1 : x1.toInt < 400) :
    ((clipLow x1).toNat : Int) = max 0 x1.toInt ∧ ((clipHigh x2).toNat : Int) = min 400 x2.toInt ∧
    (clipLow x1).toInt = (clipLow x1).toNat ∧ (clipHigh x2).toInt = (clipHigh x2).toNat := by
  unfold clipLow clipHigh Config.width
  refine ⟨?_, ?_, ?_, ?_⟩
  · split
    · simp; omega
    · rename_i h; rw [BitVec.toInt_eq_toNat_cond] at *; split at h <;> split at h1 <;> omega
  · split
    · simp; omega
    · rename_i h; rw [BitVec.toInt_eq_toNat_cond] at *; split at h <;> split at h2 <;> omega
  · split
    · rfl
    · rename_i h; rw [BitVec.toInt_eq_toNat_cond] at *; split at h <;> split at h1 <;> omega
  · split
    · rfl
    · rename_i h; rw [BitVec.toInt_eq_toNat_cond] at *; split at h <;> split at h2 <;> omega

/-- A non-negative `i32` below a bound is that number. -/
theorem toInt_eq_toNat_of_nonneg (y : Word) (h : 0 ≤ y.toInt) : y.toInt = y.toNat := by
  rw [BitVec.toInt_eq_toNat_cond] at *
  split at h <;> omega

theorem mem_spanWords (a b k : Nat) (hab : a < b) : k ∈ spanWords a b ↔ a / 32 ≤ k ∧ k ≤ (b - 1) / 32 := by
  unfold spanWords
  simp only [List.mem_range'_1]
  omega

/-! ### `SPAN` -/

/-- Everything a `SPAN` can do: it returns without an access, or draws the words of rule R123 in a row that exists. -/
theorem span_cases (y x1 x2 c : Word) (s : State) :
    ((y.toInt < 0 ∨ 240 ≤ y.toInt ∨ x2.toInt < 0 ∨ 400 ≤ x1.toInt ∨ min 400 x2.toInt ≤ max 0 x1.toInt) ∧
      (span y x1 x2 c s = s ∨ span y x1 x2 c s = s.setClip (clipLow x1) (clipHigh x2))) ∨
    (0 ≤ y.toInt ∧ y.toInt < 240 ∧ 0 ≤ x2.toInt ∧ x1.toInt < 400 ∧ max 0 x1.toInt < min 400 x2.toInt ∧
      span y x1 x2 c s = (spanWords (clipLow x1).toNat (clipHigh x2).toNat).foldl (spanWord y.toNat c)
        (s.setClip (clipLow x1) (clipHigh x2))) := by
  unfold span Config.height Config.width
  by_cases h1 : y.toInt < 0 ∨ y.toInt ≥ ((240 : Nat) : Int)
  · rw [if_pos h1]
    exact .inl ⟨by omega, .inl rfl⟩
  · rw [if_neg h1]
    by_cases h2 : x2.toInt < 0 ∨ x1.toInt ≥ ((400 : Nat) : Int)
    · rw [if_pos h2]
      exact .inl ⟨by omega, .inl rfl⟩
    · rw [if_neg h2]
      obtain ⟨e1, e2, e3, e4⟩ := clip_toNat x1 x2 (by omega) (by omega)
      by_cases h3 : (clipLow x1).toInt ≥ (clipHigh x2).toInt
      · exact .inl ⟨by omega, .inr (if_pos h3)⟩
      · exact .inr ⟨by omega, by omega, by omega, by omega, by omega, if_neg h3⟩

/-- What the words of a drawn span are and where its clipped bounds lie. -/
theorem spanWords_lt (x1 x2 : Word) (h2 : 0 ≤ x2.toInt) (h1 : x1.toInt < 400)
    (h : max 0 x1.toInt < min 400 x2.toInt) :
    ∀ k ∈ spanWords (clipLow x1).toNat (clipHigh x2).toNat, k < 13 := by
  obtain ⟨e1, e2, -, -⟩ := clip_toNat x1 x2 h2 h1
  intro k hk
  rw [mem_spanWords _ _ _ (by omega)] at hk
  omega

/-- `SPAN` writes memory, working registers and the record only. -/
theorem span_onlyDrawing (y x1 x2 c : Word) (s : State) : OnlyDrawing s (span y x1 x2 c s) := by
  rcases span_cases y x1 x2 c s with ⟨-, h | h⟩ | ⟨-, -, -, -, -, h⟩ <;> rw [h]
  · rfl
  · rfl
  · exact OnlyDrawing.trans (t := s.setClip (clipLow x1) (clipHigh x2)) rfl (foldl_spanWord_onlyDrawing _ _ _ _)

/-- `SPAN` pixel by pixel (rule R127). -/
theorem span_pixel (y x1 x2 c : Word) (s : State) (y' x : Nat) (hy' : y' < 240) (hx : x < 416) :
    pixel (span y x1 x2 c s) y' x =
      if y.toInt = y' ∧ x1.toInt ≤ x ∧ (x : Int) < min 400 x2.toInt then colourBit c x else pixel s y' x := by
  rcases span_cases y x1 x2 c s with ⟨hno, h | h⟩ | ⟨a1, a2, a3, a4, a5, h⟩
  · rw [h, if_neg (by omega)]
  · rw [h, if_neg (by omega)]
    rfl
  · obtain ⟨e1, e2, -, -⟩ := clip_toNat x1 x2 a3 a4
    have ey := toInt_eq_toNat_of_nonneg y a1
    rw [h, foldl_spanWord_pixel y.toNat c y' x (by omega) hy' hx _ (spanWords_lt x1 x2 a3 a4 a5)]
    simp only [setClip_work, mem_spanWords _ _ _ (show (clipLow x1).toNat < (clipHigh x2).toNat by omega)]
    have : pixel (s.setClip (clipLow x1) (clipHigh x2)) y' x = pixel s y' x := rfl
    rw [this]
    congr 1
    rw [eq_iff_iff]
    constructor
    · rintro ⟨h1, h2, h3, h4⟩; omega
    · rintro ⟨h1, h2, h3⟩
      refine ⟨by omega, ⟨?_, ?_⟩, by omega, by omega⟩ <;> omega

/-- `SPAN` leaves every byte outside the framebuffer alone (rule R77). -/
theorem span_outside (y x1 x2 c : Word) (s : State) (a : Word) (ha : inFramebuffer s a = false) :
    readByte (span y x1 x2 c s).mem a = readByte s.mem a := by
  rcases span_cases y x1 x2 c s with ⟨-, h | h⟩ | ⟨a1, a2, a3, a4, a5, h⟩
  · rw [h]
  · rw [h]; rfl
  · have ey := toInt_eq_toNat_of_nonneg y a1
    rw [h]
    exact foldl_spanWord_outside y.toNat c a (by omega) _ (spanWords_lt x1 x2 a3 a4 a5)
      (s.setClip (clipLow x1) (clipHigh x2)) ha

end Sys2Proof.Machine
end

