-- ==== Sys2Proof/Laws/Raster.lean ====
section
/-! SUPPORT. What the rasterizer's loops do: their frame, the rows they draw, and that the bounded loops of Machine/Raster.lean are
the unbounded loops of rule R175. -/

namespace Sys2Proof.Machine

/-! ### Frames -/

theorem setWork_onlyDrawing (s : State) (w : Work) : OnlyDrawing s (s.setWork w) := rfl

theorem drawRow_onlyDrawing (s : State) : OnlyDrawing s (drawRow s) := by
  unfold drawRow
  split
  · exact span_onlyDrawing _ _ _ _ _
  · exact OnlyDrawing.refl s

theorem nextRow_onlyDrawing (s : State) : OnlyDrawing s (nextRow s) := rfl

theorem fillRows_onlyDrawing (n : Nat) : ∀ s : State, OnlyDrawing s (fillRows n s) := by
  induction n with
  | zero => exact OnlyDrawing.refl
  | succ n ih => intro s; exact ((drawRow_onlyDrawing s).trans (nextRow_onlyDrawing _)).trans (ih _)

theorem fillBand_onlyDrawing (s : State) : OnlyDrawing s (fillBand s) := fillRows_onlyDrawing _ s

theorem setBandEnd_onlyDrawing (s : State) : OnlyDrawing s (setBandEnd s) := rfl

theorem advanceLeft_onlyDrawing (s : State) : OnlyDrawing s (advanceLeft s) := rfl

theorem advanceRight_onlyDrawing (s : State) : OnlyDrawing s (advanceRight s) := rfl

theorem walkOnce_onlyDrawing (s : State) : OnlyDrawing s (walkOnce s) := by
  have h := (setBandEnd_onlyDrawing s).trans (fillBand_onlyDrawing (setBandEnd s))
  unfold walkOnce
  split
  · exact h.trans (advanceLeft_onlyDrawing _)
  · exact h.trans (advanceRight_onlyDrawing _)

theorem walk_onlyDrawing (n : Nat) : ∀ s : State, OnlyDrawing s (walk n s) := by
  induction n with
  | zero => exact OnlyDrawing.refl
  | succ n ih =>
    intro s
    unfold walk
    split
    · exact (walkOnce_onlyDrawing s).trans (ih _)
    · exact OnlyDrawing.refl s

theorem foldl_scanVertex_onlyDrawing (is : List Nat) : ∀ s : State, OnlyDrawing s (is.foldl scanVertex s) := by
  induction is with
  | nil => exact OnlyDrawing.refl
  | cons i rest ih => intro s; exact (setWork_onlyDrawing s _).trans (ih _)

theorem findTopBottom_onlyDrawing (s : State) : OnlyDrawing s (findTopBottom s) :=
  (setWork_onlyDrawing s _).trans (foldl_scanVertex_onlyDrawing _ _)

theorem startChains_onlyDrawing (s : State) : OnlyDrawing s (startChains s) := rfl

theorem fillPolygon_onlyDrawing (s : State) : OnlyDrawing s (fillPolygon s) :=
  ((findTopBottom_onlyDrawing s).trans (startChains_onlyDrawing _)).trans (walk_onlyDrawing _ _)

/-! ### The bounded loops are the loops of the pseudocode -/

/-- `SPAN` leaves the rasterizer's working registers alone. -/
theorem foldl_spanWord_work (y : Nat) (c : Word) (ks : List Nat) : ∀ s : State,
    (ks.foldl (spanWord y c) s).work =
      { s.work with k := (ks.foldl (spanWord y c) s).work.k, m := (ks.foldl (spanWord y c) s).work.m } := by
  induction ks with
  | nil => exact fun s => rfl
  | cons k rest ih =>
    intro s
    rw [List.foldl_cons, ih (spanWord y c s k), spanWord_eq]

theorem span_work (y x1 x2 c : Word) (s : State) :
    (span y x1 x2 c s).work =
      { s.work with x1c := (span y x1 x2 c s).work.x1c, x2c := (span y x1 x2 c s).work.x2c
                    k := (span y x1 x2 c s).work.k, m := (span y x1 x2 c s).work.m } := by
  rcases span_cases y x1 x2 c s with ⟨-, h | h⟩ | ⟨-, -, -, -, -, h⟩ <;> rw [h]
  · rfl
  · rw [foldl_spanWord_work]
    rfl

theorem drawRow_work (s : State) :
    (drawRow s).work =
      { s.work with x1c := (drawRow s).work.x1c, x2c := (drawRow s).work.x2c
                    k := (drawRow s).work.k, m := (drawRow s).work.m } := by
  unfold drawRow
  split
  · exact span_work _ _ _ _ _
  · rfl

/-- What one row does to the rasterizer's working registers: the slopes are added and the row counter goes on (rule R163). -/
theorem row_work (s : State) :
    (nextRow (drawRow s)).work =
      { s.work with xl := fadd s.work.xl s.work.sl, xr := fadd s.work.xr s.work.sr, y := s.work.y + 1#32
                    x1c := (drawRow s).work.x1c, x2c := (drawRow s).work.x2c
                    k := (drawRow s).work.k, m := (drawRow s).work.m } := by
  unfold nextRow
  rw [setWork_work, drawRow_work]

/-- While `Y < YEND` the row counter does not wrap (rule R42). -/
theorem toInt_succ (y e : Word) (h : y.toInt < e.toInt) : (y + 1#32).toInt = y.toInt + 1 := by
  have h1 := BitVec.toInt_lt (x := e)
  have h2 := BitVec.le_toInt (x := y)
  rw [BitVec.toInt_add]
  simp only [BitVec.reduceToInt]
  rw [Int.bmod_def]
  omega

/-- The bounded row loop is the loop of line F15. -/
theorem bandRuns_fillRows (n : Nat) : ∀ s : State, rowsLeft s = n → BandRuns s (fillRows n s) := by
  induction n with
  | zero =>
    intro s h
    refine .done ?_
    unfold rowsLeft at h
    omega
  | succ n ih =>
    intro s h
    have hlt : s.work.y.toInt < s.work.yEnd.toInt := by unfold rowsLeft at h; omega
    refine .row hlt (ih _ ?_)
    unfold rowsLeft at *
    rw [row_work]
    have := toInt_succ _ _ hlt
    simp only [this]
    omega

theorem bandRuns_fillBand (s : State) : BandRuns s (fillBand s) := bandRuns_fillRows _ s rfl

/-- The loop of line F15 has one outcome. -/
theorem BandRuns.unique {s t u : State} (h₁ : BandRuns s t) (h₂ : BandRuns s u) : t = u := by
  induction h₁ with
  | done h => cases h₂ with
    | done => rfl
    | row h' => exact absurd h' h
  | row h _ ih => cases h₂ with
    | done h' => exact absurd h h'
    | row _ rest => exact ih rest

/-! ### Rows -/

/-- Pixels no row of the framebuffer's visible part holds, and bytes outside it, stay (rules R68, R77). -/
theorem drawRow_outside (s : State) (a : Word) (ha : inFramebuffer s a = false) :
    readByte (drawRow s).mem a = readByte s.mem a := by
  unfold drawRow
  split
  · exact span_outside _ _ _ _ _ _ ha
  · rfl

theorem drawRow_padding (s : State) (y x : Nat) (hy : y < 240) (hx : 400 ≤ x) (hx' : x < 416) :
    pixel (drawRow s) y x = pixel s y x := by
  unfold drawRow
  split
  · rw [span_pixel _ _ _ _ _ _ _ hy hx', if_neg (by omega)]
  · rfl

end Sys2Proof.Machine
end

