-- ==== Sys2Proof/Laws/Step.lean ====
section
/-! SUPPORT. Steps and commands: what a step does with the host's next access, what a run is step by step, and everything each
command can answer, said once. -/

namespace Sys2Proof.Machine

/-! ### Steps -/

/-- A step does the host's next access. -/
theorem step_access (s : State) (a : HostAccess) (rest : List HostAccess) (h : s.bus = a :: rest) :
    step s = hostAccess a { s with bus := rest } := by
  unfold step stepHost
  rw [h]

/-- A run does the host's next access and goes on. -/
theorem runSteps_access (n : Nat) (s : State) (a : HostAccess) (rest : List HostAccess) (h : s.bus = a :: rest) :
    runSteps (n + 1) s =
      match hostAccess a { s with bus := rest } with
      | .next t => runSteps n t
      | .fault f => .fault f
      | .refused r => .refused r := by
  rw [← step_access s a rest h]
  rfl

/-- The host's `run`, one step, for any machine. -/
theorem run_succ (M : Host.Core) (n : Nat) (s : M.State) :
    (∀ t, M.step s = .next t → M.run (n + 1) s = M.run n t) ∧
    (∀ f, M.step s = .fault f → M.run (n + 1) s = .fault f) ∧
    ∀ r, M.step s = .refused r → M.run (n + 1) s = .refused r := by
  refine ⟨fun t h => ?_, fun f h => ?_, fun r h => ?_⟩ <;> rw [Host.Core.run.eq_2, h]

/-- `runSteps` is the host's own `run` of the machine. -/
theorem runSteps_eq (n : Nat) : ∀ s : State, runSteps n s = core.run n s := by
  induction n with
  | zero => exact fun s => rfl
  | succ n ih =>
    intro s
    obtain ⟨h1, h2, h3⟩ := run_succ core n s
    unfold runSteps
    cases h : step s with
    | next t => exact (ih t).trans (h1 t h).symm
    | fault f => exact (h2 f h).symm
    | refused r => exact (h3 r h).symm

/-! ### What each command can answer -/

/-- POLY_CREATE is accepted or ignored (rules R200, R201). -/
theorem execPolyCreate_cases (s : State) :
    ((s.pvalid = false ∧ 1 ≤ s.arg0.toNat ∧ s.arg0.toNat ≤ s.vtxCap.toNat) ∧
      exec .polyCreate s = .next (s.startCommand.createSlot s.arg0)) ∨
    (¬ (s.pvalid = false ∧ 1 ≤ s.arg0.toNat ∧ s.arg0.toNat ≤ s.vtxCap.toNat) ∧
      exec .polyCreate s = .next s.startCommand) := by
  by_cases h : s.pvalid = false ∧ 1 ≤ s.arg0.toNat ∧ s.arg0.toNat ≤ s.vtxCap.toNat
  · exact .inl ⟨h, if_pos h⟩
  · exact .inr ⟨h, if_neg h⟩

/-- VTX_WRITE is accepted or ignored (rules R202, R203). -/
theorem execVtxWrite_cases (s : State) :
    ((s.pvalid = true ∧ s.arg0.toNat < s.nvert.toNat) ∧
      exec .vtxWrite s = .next (s.startCommand.writeVertex s.arg0 s.arg1 s.arg2)) ∨
    (¬ (s.pvalid = true ∧ s.arg0.toNat < s.nvert.toNat) ∧ exec .vtxWrite s = .next s.startCommand) := by
  by_cases h : s.pvalid = true ∧ s.arg0.toNat < s.nvert.toNat
  · exact .inl ⟨h, if_pos h⟩
  · exact .inr ⟨h, if_neg h⟩

theorem exec_polyDestroy (s : State) : exec .polyDestroy s = .next s.startCommand.destroySlot := rfl

theorem exec_drawSpan (s : State) :
    exec .drawSpan s = .next (span s.arg0 s.arg1 s.arg2 s.color s.startCommand).endCommand := rfl

/-- FILL_POLY does nothing or walks (rules R151, R175). -/
theorem execFillPoly_cases (s : State) :
    ((s.pvalid = false ∨ s.nvert.toNat < 3) ∧ exec .fillPoly s = .next s.startCommand) ∨
    ((s.pvalid = true ∧ 3 ≤ s.nvert.toNat) ∧ exec .fillPoly s = .next (fillPolygon s.startCommand).endCommand) := by
  by_cases h : s.pvalid = false ∨ s.nvert.toNat < 3
  · exact .inl ⟨h, if_pos h⟩
  · refine .inr ⟨⟨?_, by omega⟩, if_neg h⟩
    cases hp : s.pvalid
    · exact absurd (.inl hp) h
    · rfl

/-- Every command ends normally (rule R250): there is no state in which one stops. -/
theorem exec_total (i : Instr) (s : State) : ∃ t, exec i s = .next t := by
  cases i
  · rcases execPolyCreate_cases s with ⟨-, h⟩ | ⟨-, h⟩ <;> exact ⟨_, h⟩
  · rcases execVtxWrite_cases s with ⟨-, h⟩ | ⟨-, h⟩ <;> exact ⟨_, h⟩
  · exact ⟨_, rfl⟩
  · exact ⟨_, rfl⟩
  · rcases execFillPoly_cases s with ⟨-, h⟩ | ⟨-, h⟩ <;> exact ⟨_, h⟩

/-- What no command changes. -/
theorem exec_keeps (i : Instr) (s t : State) (h : exec i s = .next t) :
    t = { s with pvalid := t.pvalid, nvert := t.nvert, store := t.store, slotEpoch := t.slotEpoch,
                 mem := t.mem, work := t.work, workEpoch := t.workEpoch, port := t.port } := by
  have inj : ∀ u : State, exec i s = .next u → t = u := fun u hu => by
    rw [hu] at h; exact (Host.Outcome.next.inj h).symm
  cases i
  · rcases execPolyCreate_cases s with ⟨-, h⟩ | ⟨-, h⟩ <;> rw [inj _ h] <;> rfl
  · rcases execVtxWrite_cases s with ⟨-, h⟩ | ⟨-, h⟩ <;> rw [inj _ h] <;> rfl
  · rw [inj _ rfl]; rfl
  · rw [inj _ rfl]
    have hd := span_onlyDrawing s.arg0 s.arg1 s.arg2 s.color s.startCommand
    unfold OnlyDrawing at hd
    rw [show span (opRow s) (opX1 s) (opX2 s) s.color s.startCommand = span s.arg0 s.arg1 s.arg2 s.color s.startCommand
      from rfl, hd]
    rfl
  · rcases execFillPoly_cases s with ⟨-, h⟩ | ⟨-, h⟩
    · rw [inj _ h]; rfl
    · rw [inj _ h]
      have hd := fillPolygon_onlyDrawing s.startCommand
      unfold OnlyDrawing at hd
      rw [hd]
      rfl

/-! ### The capacity -/

theorem vtxMax_bounds : 3 ≤ Config.vtxMax ∧ Config.vtxMax ≤ 65535 := by
  unfold Config.vtxMax
  omega

theorem reset_vtxCap : State.reset.vtxCap.toNat = Config.vtxMax := by
  have h := vtxMax_bounds
  show (BitVec.ofNat 32 Config.vtxMax).toNat = _
  rw [BitVec.toNat_ofNat]
  omega

end Sys2Proof.Machine
end

