-- ==== Sys2Proof/Laws/Chains.lean ====
section
/-! SUPPORT. The chain walker's index arithmetic (rule R41), the canonical form of memory under drawing, and which parts of the
state a span depends on. -/

namespace Sys2Proof.Machine

/-! ### Indices -/

/-- `nextIndex` is `(i + 1) mod n`. -/
theorem nextIndex_toNat (n i : Word) (h : i.toNat < n.toNat) : (nextIndex n i).toNat = (i.toNat + 1) % n.toNat := by
  unfold nextIndex
  split
  · rename_i e
    have : i.toNat + 1 = n.toNat := by bv_omega
    rw [this, Nat.mod_self]; rfl
  · rename_i e
    have : i.toNat + 1 < n.toNat := by bv_omega
    rw [Nat.mod_eq_of_lt this]; bv_omega

/-- `prevIndex` is `(i - 1) mod n`. -/
theorem prevIndex_toNat (n i : Word) (h : i.toNat < n.toNat) : (prevIndex n i).toNat = (i.toNat + n.toNat - 1) % n.toNat := by
  unfold prevIndex
  split
  · rename_i e
    have : i.toNat = 0 := by bv_omega
    rw [this, Nat.zero_add, Nat.mod_eq_of_lt (by omega)]; bv_omega
  · rename_i e
    have h0 : i.toNat ≠ 0 := by bv_omega
    rw [show i.toNat + n.toNat - 1 = (i.toNat - 1) + n.toNat by omega, Nat.add_mod_right, Nat.mod_eq_of_lt (by omega)]; bv_omega

/-! ### The vertex store -/

theorem mem_putEntry {α} (k : Nat) (v : α) (l : List (Nat × α)) (e) (h : e ∈ putEntry k v l) : e = (k, v) ∨ e ∈ l := by
  induction l with
  | nil => simp [putEntry] at h; exact .inl h
  | cons f r ih =>
    simp only [putEntry] at h
    split at h
    · simp at h ⊢; tauto
    · split at h
      · simp at h ⊢; tauto
      · simp at h ⊢
        rcases h with h | h
        · tauto
        · rcases ih h with h | h <;> tauto

/-! ### The canonical form of memory -/

theorem spanWord_wf (y c s k) (h : Memory.wf s.mem = true) : Memory.wf (spanWord y c s k).mem = true := by
  rw [spanWord_mem]; exact wf_writeWord _ _ _ h

theorem foldl_spanWord_wf (y c) (ks : List Nat) : ∀ s : State, Memory.wf s.mem = true → Memory.wf (ks.foldl (spanWord y c) s).mem = true := by
  induction ks with
  | nil => exact fun s h => h
  | cons k r ih => intro s h; exact ih _ (spanWord_wf y c s k h)

theorem span_wf (y x1 x2 c s) (h : Memory.wf s.mem = true) : Memory.wf (span y x1 x2 c s).mem = true := by
  rcases span_cases y x1 x2 c s with ⟨-, h' | h'⟩ | ⟨-, -, -, -, -, h'⟩ <;> rw [h']
  · exact h
  · exact h
  · exact foldl_spanWord_wf _ _ _ (s.setClip (clipLow x1) (clipHigh x2)) h

theorem nextRow_drawRow_wf (s : State) (h : Memory.wf s.mem = true) : Memory.wf (nextRow (drawRow s)).mem = true := by
  show Memory.wf (drawRow s).mem = true
  unfold drawRow; split
  · exact span_wf _ _ _ _ _ h
  · exact h

theorem fillRows_wf (n) : ∀ s : State, Memory.wf s.mem = true → Memory.wf (fillRows n s).mem = true := by
  induction n with
  | zero => exact fun s h => h
  | succ n ih => intro s h; exact ih _ (nextRow_drawRow_wf s h)

theorem walkOnce_wf (s : State) (h : Memory.wf s.mem = true) : Memory.wf (walkOnce s).mem = true := by
  have : Memory.wf (fillBand (setBandEnd s)).mem = true := fillRows_wf _ (setBandEnd s) h
  unfold walkOnce; split <;> exact this

theorem walk_wf (n) : ∀ s : State, Memory.wf s.mem = true → Memory.wf (walk n s).mem = true := by
  induction n with
  | zero => exact fun s h => h
  | succ n ih => intro s h; unfold walk; split
                 · exact ih _ (walkOnce_wf s h)
                 · exact h

theorem foldl_scanVertex_mem (is : List Nat) : ∀ s : State, (is.foldl scanVertex s).mem = s.mem ∧ (is.foldl scanVertex s).port = s.port := by
  induction is with
  | nil => exact fun s => ⟨rfl, rfl⟩
  | cons i r ih => intro s; exact ih (scanVertex s i)

theorem startChains_mem (s : State) : (startChains (findTopBottom s)).mem = s.mem ∧ (startChains (findTopBottom s)).port = s.port := by
  have h := foldl_scanVertex_mem (List.range' 1 (s.nvert.toNat - 1)) (s.setWork { s.work with top := 0#32, bot := 0#32 })
  exact ⟨h.1, h.2⟩

theorem fillPolygon_wf (s : State) (h : Memory.wf s.mem = true) : Memory.wf (fillPolygon s).mem = true :=
  walk_wf _ _ (by rw [(startChains_mem s).1]; exact h)

/-! ### What a span depends on -/

/-- Two states in which a span does the same: memory, the record of accesses and `FB_BASE` agree. -/
structure SameDrawing (s s' : State) : Prop where
  mem : s'.mem = s.mem
  port : s'.port = s.port
  base : s'.fbBase = s.fbBase

theorem wordAddress_same {s s' : State} (h : SameDrawing s s') (y k) : wordAddress s' y k = wordAddress s y k := by unfold wordAddress; rw [h.base]

theorem spanWord_same {s s' : State} (h : SameDrawing s s') (hx : s'.work.x1c = s.work.x1c ∧ s'.work.x2c = s.work.x2c) (y c k) : SameDrawing (spanWord y c s k) (spanWord y c s' k) := by
  rw [spanWord_eq, spanWord_eq]
  dsimp only
  rw [wordAddress_same h, h.mem, h.port, hx.1, hx.2]
  exact ⟨rfl, rfl, h.base⟩

theorem foldl_spanWord_same (y c) (ks : List Nat) : ∀ {s s' : State}, SameDrawing s s' → (s'.work.x1c = s.work.x1c ∧ s'.work.x2c = s.work.x2c) → SameDrawing (ks.foldl (spanWord y c) s) (ks.foldl (spanWord y c) s') := by
  induction ks with
  | nil => exact fun h _ => h
  | cons k r ih => intro s s' h hx; exact ih (spanWord_same h hx y c k) (by simpa using hx)

theorem span_same {s s' : State} (h : SameDrawing s s') (y x1 x2 c) : SameDrawing (span y x1 x2 c s) (span y x1 x2 c s') := by
  unfold span
  split
  · exact h
  · split
    · exact h
    · dsimp only
      split
      · exact ⟨h.mem, h.port, h.base⟩
      · exact foldl_spanWord_same _ _ _ ⟨h.mem, h.port, h.base⟩ ⟨rfl, rfl⟩

end Sys2Proof.Machine
end

