-- ==== Sys2Proof/Laws/Float.lean ====
section
/-! SUPPORT. Binary32 numbers as counts of units: the fields and the value of a bit pattern, and that `roundUnits` is rounding to
nearest, ties to even (rule R156). -/

namespace Sys2Proof.Machine

/-! ### Fields -/

theorem expField_eq (a : F32) : expField a = a.toNat / 2 ^ 23 % 256 := by
  unfold expField
  rw [BitVec.extractLsb'_toNat, Nat.shiftRight_eq_div_pow]

theorem fracField_eq (a : F32) : fracField a = a.toNat % 2 ^ 23 := by
  unfold fracField
  rw [BitVec.extractLsb'_toNat, Nat.shiftRight_zero]

theorem signField_eq (a : F32) : signField a = decide (2 ^ 31 ≤ a.toNat) := by
  unfold signField
  rw [BitVec.msb_eq_decide]

/-- A number is a NaN, an infinity or finite. -/
theorem classify (a : F32) :
    (isNaN a = true ∧ isInf a = false ∧ isFinite a = false) ∨ (isNaN a = false ∧ isInf a = true ∧ isFinite a = false) ∨
    (isNaN a = false ∧ isInf a = false ∧ isFinite a = true) := by
  unfold isNaN isInf isFinite
  by_cases h1 : expField a = 255 <;> by_cases h2 : fracField a = 0 <;> simp [h1, h2]

theorem finite_notNaN {a : F32} (h : isFinite a = true) : isNaN a = false := by
  rcases classify a with ⟨-, -, h'⟩ | ⟨-, -, h'⟩ | ⟨h', -, -⟩
  · rw [h'] at h; cases h
  · rw [h'] at h; cases h
  · exact h'

theorem finite_notInf {a : F32} (h : isFinite a = true) : isInf a = false := by
  rcases classify a with ⟨-, -, h'⟩ | ⟨-, -, h'⟩ | ⟨-, h', -⟩
  · rw [h'] at h; cases h
  · rw [h'] at h; cases h
  · exact h'

/-! ### Values -/

/-- The magnitude of a finite number is a significand below `2^24` times a power of two below `2^254`, the significand full
unless the power is 1. -/
theorem magnitude_form (a : F32) (h : isFinite a = true) :
    ∃ m e : Nat, magnitude a = m * 2 ^ e ∧ m < 2 ^ 24 ∧ e ≤ 253 ∧ (e = 0 ∨ 2 ^ 23 ≤ m) := by
  have h1 : expField a ≠ 255 := by unfold isFinite at h; simpa using h
  have h2 := expField_eq a
  have h3 := fracField_eq a
  have h4 : fracField a < 2 ^ 23 := by rw [h3]; exact Nat.mod_lt _ (by decide)
  have h5 : expField a < 256 := by rw [h2]; exact Nat.mod_lt _ (by decide)
  unfold magnitude
  split
  · exact ⟨fracField a, 0, by simp, by omega, by omega, .inl rfl⟩
  · exact ⟨2 ^ 23 + fracField a, expField a - 1, rfl, by omega, by omega, .inr (by omega)⟩

/-- Every significand below `2^24` and exponent up to 253 is the magnitude of some finite number of either sign. -/
theorem withSign_toNat (neg : Bool) (bits : Nat) (h : bits < 2 ^ 31) :
    (withSign neg bits).toNat = if neg then 2 ^ 31 + bits else bits := by
  unfold withSign
  rw [BitVec.toNat_ofNat]
  cases neg
  · simp only [Bool.false_eq_true, if_false]
    omega
  · simp only [if_true]
    omega

theorem withSign_fields (neg : Bool) (bits : Nat) (h : bits < 2 ^ 31) :
    expField (withSign neg bits) = bits / 2 ^ 23 ∧ fracField (withSign neg bits) = bits % 2 ^ 23 ∧
    signField (withSign neg bits) = neg := by
  have ht := withSign_toNat neg bits h
  rw [expField_eq, fracField_eq, signField_eq, ht]
  clear ht
  cases neg
  · rw [if_neg Bool.false_ne_true]
    exact ⟨by omega, by omega, decide_eq_false (by omega)⟩
  · rw [if_pos rfl]
    exact ⟨by omega, by omega, decide_eq_true (by omega)⟩

/-- What bits assembled from excess bits `e` and a significand `q` stand for: `q * 2^e` units. -/
theorem withSign_value (neg : Bool) (e q : Nat) (hq : q ≤ 2 ^ 24) (he : e = 0 ∨ 2 ^ 23 ≤ q)
    (hb : e * 2 ^ 23 + q < 0x7F800000) :
    isFinite (withSign neg (e * 2 ^ 23 + q)) = true ∧ magnitude (withSign neg (e * 2 ^ 23 + q)) = q * 2 ^ e ∧
    signField (withSign neg (e * 2 ^ 23 + q)) = neg := by
  obtain ⟨f1, f2, f3⟩ := withSign_fields neg (e * 2 ^ 23 + q) (by omega)
  refine ⟨?_, ?_, f3⟩
  · unfold isFinite
    rw [f1]
    simp only [bne_iff_ne]
    omega
  · unfold magnitude
    rw [f1, f2]
    rcases Nat.lt_or_ge q (2 ^ 23) with h1 | h1
    · have h0 : e = 0 := by omega
      subst h0
      rw [if_pos (by omega)]
      simp only [Nat.zero_mul, Nat.zero_add, Nat.pow_zero, Nat.mul_one]
      omega
    · rcases Nat.lt_or_ge q (2 ^ 24) with h2 | h2
      · have h3 : (e * 2 ^ 23 + q) / 2 ^ 23 = e + 1 := by omega
        have h4 : (e * 2 ^ 23 + q) % 2 ^ 23 = q - 2 ^ 23 := by omega
        rw [h3, h4, if_neg (by omega), Nat.add_sub_cancel, show 2 ^ 23 + (q - 2 ^ 23) = q by omega]
      · have hq' : q = 2 ^ 24 := by omega
        have h3 : (e * 2 ^ 23 + q) / 2 ^ 23 = e + 2 := by omega
        have h4 : (e * 2 ^ 23 + q) % 2 ^ 23 = 0 := by omega
        rw [h3, h4, if_neg (by omega), hq', show e + 2 - 1 = e + 1 by omega, Nat.pow_succ]
        ring

theorem value_eq (a : F32) : value a = if signField a then -(magnitude a : Int) else (magnitude a : Int) := rfl

theorem value_natAbs (a : F32) : (value a).natAbs = magnitude a := by
  unfold value
  split <;> simp

theorem infinity_isInf (neg : Bool) :
    isInf (infinity neg) = true ∧ isNaN (infinity neg) = false ∧ isFinite (infinity neg) = false ∧
    signField (infinity neg) = neg := by
  cases neg <;> decide

theorem zero_value (neg : Bool) : isFinite (withSign neg 0) = true ∧ value (withSign neg 0) = 0 := by
  cases neg <;> decide

/-- The NaN of an invalid operation is a NaN, whatever its free bits. -/
theorem nanResult_isNaN (op : Nat) (a b : F32) : isNaN (nanResult op a b) = true := by
  unfold nanResult
  generalize Config.nanBits op a b = x
  have he : ∀ y : Word, expField (x ||| 0x7F800000#32 ||| y) = 255 := by
    intro y
    unfold expField
    rw [BitVec.extractLsb'_or, BitVec.extractLsb'_or,
      show BitVec.extractLsb' 23 8 0x7F800000#32 = BitVec.allOnes 8 by decide, BitVec.or_allOnes, BitVec.allOnes_or]
    decide
  have he0 := he 0#32
  rw [BitVec.or_zero] at he0
  unfold isNaN
  simp only
  split
  · rename_i h
    have hf : fracField (x ||| 0x7F800000#32 ||| 1#32) ≠ 0 := by
      unfold fracField
      intro h0
      have h1 : (BitVec.extractLsb' 0 23 (x ||| 0x7F800000#32 ||| 1#32)).getLsbD 0 = true := by simp
      have h2 : BitVec.extractLsb' 0 23 (x ||| 0x7F800000#32 ||| 1#32) = 0#23 := BitVec.eq_of_toNat_eq (by rw [h0]; rfl)
      rw [h2] at h1
      simp at h1
    rw [he]
    simpa using hf
  · rename_i h
    rw [he0]
    simpa using h

/-- `fneg` flips the sign and nothing else. -/
theorem fneg_fields (a : F32) :
    expField (fneg a) = expField a ∧ fracField (fneg a) = fracField a ∧ signField (fneg a) = !signField a := by
  unfold expField fracField signField fneg
  refine ⟨?_, ?_, ?_⟩
  · rw [BitVec.extractLsb'_xor]
    simp
  · rw [BitVec.extractLsb'_xor]
    simp
  · rw [BitVec.msb_xor, show (0x80000000#32).msb = true from rfl, Bool.xor_true]

/-- `fneg` negates the value. -/
theorem fneg_value (a : F32) :
    isFinite (fneg a) = isFinite a ∧ value (fneg a) = -value a ∧ isNaN (fneg a) = isNaN a ∧ isInf (fneg a) = isInf a := by
  obtain ⟨h1, h2, h3⟩ := fneg_fields a
  unfold isFinite isNaN isInf value magnitude
  rw [h1, h2, h3]
  cases signField a <;> simp

/-! ### Rounding -/

/-- What rounding a quotient to a whole number guarantees: at most half a unit away, and an even result on a tie. -/
theorem roundHalfEven_spec (num D : Nat) (hD : 0 < D) :
    2 * (roundHalfEven num D * D) ≤ 2 * num + D ∧ 2 * num ≤ 2 * (roundHalfEven num D * D) + D ∧
    (2 * (roundHalfEven num D * D) = 2 * num + D ∨ 2 * num = 2 * (roundHalfEven num D * D) + D →
      roundHalfEven num D % 2 = 0) := by
  have h1 := Nat.div_add_mod' num D
  have h2 := Nat.mod_lt num hD
  unfold roundHalfEven
  generalize hp : num / D = a at *
  generalize num % D = b at *
  split
  · rename_i h
    rw [Nat.add_mul, Nat.one_mul]
    refine ⟨by omega, by omega, fun h3 => ?_⟩
    rcases h with h | ⟨-, h⟩
    · omega
    · omega
  · rename_i h
    refine ⟨by omega, by omega, fun h3 => ?_⟩
    by_contra h4
    exact h (.inr ⟨by omega, by omega⟩)

/-- Another whole number of steps is further away, or as far and the result is even. -/
theorem roundHalfEven_nearest (num D : Nat) (hD : 0 < D) (c : Nat) (hc : c ≠ roundHalfEven num D) :
    ((roundHalfEven num D * D : Nat) - (num : Int)).natAbs < ((c * D : Nat) - (num : Int)).natAbs ∨
    ((roundHalfEven num D * D : Nat) - (num : Int)).natAbs = ((c * D : Nat) - (num : Int)).natAbs ∧
      roundHalfEven num D % 2 = 0 := by
  obtain ⟨h1, h2, h3⟩ := roundHalfEven_spec num D hD
  generalize roundHalfEven num D = q at *
  rcases Nat.lt_or_ge c q with h | h
  · have h4 := Nat.mul_le_mul_right D (Nat.succ_le_of_lt h)
    rw [Nat.succ_mul] at h4
    generalize q * D = x at *
    generalize c * D = y at *
    omega
  · have h4 := Nat.mul_le_mul_right D (Nat.succ_le_of_lt (Nat.lt_of_le_of_ne h (Ne.symm hc)))
    rw [Nat.succ_mul] at h4
    generalize q * D = x at *
    generalize c * D = y at *
    omega

/-- The excess bits bring a number of units into the range of a significand. -/
theorem excessBits_range (n : Nat) :
    (excessBits n = 0 ∧ n < 2 ^ 24) ∨ (0 < excessBits n ∧ 2 ^ 23 * 2 ^ excessBits n ≤ n ∧ n < 2 ^ 24 * 2 ^ excessBits n) := by
  unfold excessBits
  split
  · rename_i h; exact .inl ⟨rfl, h⟩
  · rename_i h
    have h0 : n ≠ 0 := by omega
    have h1 := Nat.log2_self_le h0
    have h2 : n < 2 ^ (Nat.log2 n + 1) := Nat.lt_log2_self
    have h3 : 24 ≤ Nat.log2 n := (Nat.le_log2 h0).mpr (by omega)
    refine .inr ⟨by omega, ?_, ?_⟩
    · rw [← Nat.pow_add, show 23 + (Nat.log2 n - 23) = Nat.log2 n by omega]; exact h1
    · rw [← Nat.pow_add, show 24 + (Nat.log2 n - 23) = Nat.log2 n + 1 by omega]; exact h2

/-- The significand of a rounded quotient: at most `2^24`, and full when there are excess bits. -/
theorem significand_range (num den : Nat) (hd : 0 < den) :
    roundHalfEven num (den * 2 ^ excessBits (num / den)) ≤ 2 ^ 24 ∧
    (excessBits (num / den) = 0 ∨
      2 ^ 23 ≤ roundHalfEven num (den * 2 ^ excessBits (num / den)) ∧
      2 ^ 23 * (den * 2 ^ excessBits (num / den)) ≤ num) ∧
    num < 2 ^ 24 * (den * 2 ^ excessBits (num / den)) := by
  have hr := excessBits_range (num / den)
  generalize excessBits (num / den) = e at *
  have hp : 0 < 2 ^ e := Nat.two_pow_pos e
  have hD : 0 < den * 2 ^ e := Nat.mul_pos hd hp
  have hlt : num < 2 ^ 24 * (den * 2 ^ e) := by
    have : num / den < 2 ^ 24 * 2 ^ e := by
      rcases hr with ⟨h0, h1⟩ | ⟨-, -, h1⟩
      · rw [h0, Nat.pow_zero, Nat.mul_one]; exact h1
      · exact h1
    rw [Nat.div_lt_iff_lt_mul hd] at this
    calc num < 2 ^ 24 * 2 ^ e * den := this
      _ = 2 ^ 24 * (den * 2 ^ e) := by ac_rfl
  have hge : e = 0 ∨ 2 ^ 23 * (den * 2 ^ e) ≤ num := by
    rcases hr with ⟨h0, -⟩ | ⟨-, h1, -⟩
    · exact .inl h0
    · refine .inr ?_
      rw [Nat.le_div_iff_mul_le hd] at h1
      calc 2 ^ 23 * (den * 2 ^ e) = 2 ^ 23 * 2 ^ e * den := by ac_rfl
        _ ≤ num := h1
  obtain ⟨h1, h2, h3⟩ := roundHalfEven_spec num (den * 2 ^ e) hD
  generalize hq : roundHalfEven num (den * 2 ^ e) = q at *
  generalize den * 2 ^ e = D at *
  refine ⟨?_, ?_, hlt⟩
  · by_contra h
    have h4 := Nat.mul_le_mul_right D (show 2 ^ 24 + 1 ≤ q by omega)
    rw [Nat.add_mul, Nat.one_mul] at h4
    omega
  · rcases hge with h0 | h0
    · exact .inl h0
    · refine .inr ⟨?_, h0⟩
      by_contra h
      have h4 := Nat.mul_le_mul_right D (show q + 1 ≤ 2 ^ 23 by omega)
      rw [Nat.add_mul, Nat.one_mul] at h4
      omega

/-- `roundUnits_limit` below 253 excess bits: both sides hold. -/
theorem limit_low (num D P q e : Nat) (he : e < 253) (hq1 : q ≤ 2 ^ 24) (hlt : num < 2 ^ 24 * D) (hm : D ≤ P) :
    e * 2 ^ 23 + q < 0x7F800000 ↔ num < 33554431 * P := by
  constructor <;> intro _ <;> omega

/-- `roundUnits_limit` at 253 excess bits: the limit lies half a step below `2^24`. -/
theorem limit_mid (num P q : Nat) (hq1 : q ≤ 2 ^ 24) (h1 : 2 * (q * (2 * P)) ≤ 2 * num + 2 * P)
    (h2 : 2 * num ≤ 2 * (q * (2 * P)) + 2 * P)
    (h3 : 2 * (q * (2 * P)) = 2 * num + 2 * P ∨ 2 * num = 2 * (q * (2 * P)) + 2 * P → q % 2 = 0) (hP : 0 < P) :
    253 * 2 ^ 23 + q < 0x7F800000 ↔ num < 33554431 * P := by
  rcases Nat.lt_or_ge q (2 ^ 24) with h5 | h5
  · rcases Nat.lt_or_ge q (2 ^ 24 - 1) with h7 | h7
    · have h8 := Nat.mul_le_mul_right (2 * P) (show q ≤ 2 ^ 24 - 2 by omega)
      omega
    · have h8 : q = 2 ^ 24 - 1 := by omega
      subst h8
      omega
  · have h8 : q = 2 ^ 24 := by omega
    subst h8
    omega

/-- `roundUnits_limit` above 253 excess bits: neither side holds. -/
theorem limit_high (num D P q e : Nat) (he : 253 < e) (hq2 : 2 ^ 23 ≤ q) (hge : 2 ^ 23 * D ≤ num) (hm : 4 * P ≤ D) :
    e * 2 ^ 23 + q < 0x7F800000 ↔ num < 33554431 * P := by
  constructor <;> intro _ <;> omega

/-- When a rounded quotient stays finite. -/
theorem roundUnits_limit (num den : Nat) (hd : 0 < den) :
    excessBits (num / den) * 2 ^ 23 + roundHalfEven num (den * 2 ^ excessBits (num / den)) < 0x7F800000 ↔
      num < overflowLimit * den := by
  obtain ⟨hq1, hq2, hlt⟩ := significand_range num den hd
  have hlim : overflowLimit * den = 33554431 * (den * 2 ^ 252) := by
    unfold overflowLimit; ac_rfl
  rw [hlim]
  generalize excessBits (num / den) = e at hq1 hq2 hlt ⊢
  have hs := roundHalfEven_spec num (den * 2 ^ e) (Nat.mul_pos hd (Nat.two_pow_pos e))
  rcases Nat.lt_trichotomy e 253 with he | he | he
  · exact limit_low _ _ _ _ _ he hq1 hlt (Nat.mul_le_mul_left _ (Nat.pow_le_pow_right (by decide) (by omega)))
  · subst he
    have hm : den * 2 ^ 253 = 2 * (den * 2 ^ 252) := by rw [Nat.pow_succ 2 252]; ac_rfl
    rw [hm] at hs hq1 ⊢
    exact limit_mid _ _ _ hq1 hs.1 hs.2.1 hs.2.2 (Nat.mul_pos hd (Nat.two_pow_pos 252))
  · have hm' : den * 2 ^ 254 = 4 * (den * 2 ^ 252) := by rw [Nat.pow_add 2 252 2]; ac_rfl
    have hq2 := hq2.resolve_left (by omega)
    exact limit_high _ _ _ _ _ he hq2.1 hq2.2
      (hm' ▸ Nat.mul_le_mul_left _ (Nat.pow_le_pow_right (by decide) (by omega)))

/-- Rule R156 for magnitudes: `roundUnits` gives no NaN, has the sign asked for, is finite exactly below the overflow limit, and
then no finite magnitude is nearer to `num / den`, nor as near unless the result is even. -/
theorem roundUnits_spec (neg : Bool) (num den : Nat) (hd : 0 < den) :
    isNaN (roundUnits neg num den) = false ∧ signField (roundUnits neg num den) = neg ∧
    (isFinite (roundUnits neg num den) = true ↔ num < overflowLimit * den) ∧
    (isFinite (roundUnits neg num den) = true → ∀ c, isFinite c = true →
      magnitude c = magnitude (roundUnits neg num den) ∨
      ((magnitude (roundUnits neg num den) * den : Nat) - (num : Int)).natAbs <
        ((magnitude c * den : Nat) - (num : Int)).natAbs ∨
      ((magnitude (roundUnits neg num den) * den : Nat) - (num : Int)).natAbs =
        ((magnitude c * den : Nat) - (num : Int)).natAbs ∧ (roundUnits neg num den).toNat % 2 = 0) := by
  have hl := roundUnits_limit num den hd
  obtain ⟨hq1, hq2, hlt⟩ := significand_range num den hd
  unfold roundUnits
  simp only
  generalize excessBits (num / den) = e at *
  have hD : 0 < den * 2 ^ e := Nat.mul_pos hd (Nat.two_pow_pos e)
  have hn := roundHalfEven_nearest num (den * 2 ^ e) hD
  generalize hq : roundHalfEven num (den * 2 ^ e) = q at *
  by_cases hb : e * 2 ^ 23 + q < 0x7F800000
  · rw [if_neg (by omega)]
    obtain ⟨f1, f2, f3⟩ := withSign_value neg e q hq1 (hq2.imp id And.left) hb
    refine ⟨finite_notNaN f1, f3, ⟨fun _ => hl.mp hb, fun _ => f1⟩, fun _ c hc => ?_⟩
    obtain ⟨m, f, hm, hm1, -, hm2⟩ := magnitude_form c hc
    rw [f2, hm]
    have heven : q % 2 = 0 → (withSign neg (e * 2 ^ 23 + q)).toNat % 2 = 0 := by
      intro h
      rw [withSign_toNat _ _ (by omega)]
      split <;> omega
    have hqa : q * 2 ^ e * den = q * (den * 2 ^ e) := by ac_rfl
    rcases Nat.lt_or_ge f e with h | h
    · refine .inr (.inl ?_)
      have h1 : m * 2 ^ f * den < 2 ^ 23 * (den * 2 ^ e) := by
        have h2 : 2 ^ (f + 1) ≤ 2 ^ e := Nat.pow_le_pow_right (by decide) h
        have h3 : m * 2 ^ f < 2 ^ 24 * 2 ^ f := Nat.mul_lt_mul_of_pos_right hm1 (Nat.two_pow_pos f)
        have h4 : m * 2 ^ f < 2 ^ 23 * 2 ^ e := by
          rw [Nat.pow_succ] at h2
          generalize 2 ^ f = x at *
          generalize 2 ^ e = y at *
          omega
        calc m * 2 ^ f * den < 2 ^ 23 * 2 ^ e * den := Nat.mul_lt_mul_of_pos_right h4 hd
          _ = _ := by ac_rfl
      have h5 : 2 ^ 23 * (den * 2 ^ e) ≤ num := (hq2.resolve_left (by omega)).2
      rw [hqa]
      by_cases h6 : 2 ^ 23 = q
      · subst h6
        omega
      · have h7 := hn (2 ^ 23) h6
        omega
    · have h1 : m * 2 ^ f = (m * 2 ^ (f - e)) * 2 ^ e := by
        rw [Nat.mul_assoc, ← Nat.pow_add, Nat.sub_add_cancel h]
      have h2 : m * 2 ^ f * den = (m * 2 ^ (f - e)) * (den * 2 ^ e) := by rw [h1]; ac_rfl
      rw [hqa, h2, h1]
      by_cases h3 : m * 2 ^ (f - e) = q
      · exact .inl (by rw [h3])
      · exact .inr ((hn _ h3).imp id fun h4 => ⟨h4.1, heven h4.2⟩)
  · rw [if_pos (by omega)]
    obtain ⟨-, i2, i3, i4⟩ := infinity_isInf neg
    have hnot : ¬ num < overflowLimit * den := fun h => hb (hl.mpr h)
    refine ⟨i2, i4, ⟨fun h => ?_, fun h => absurd h hnot⟩, fun h => ?_⟩
    · rw [i3] at h; cases h
    · rw [i3] at h; cases h

end Sys2Proof.Machine
end

