-- ==== Sys2Proof/Laws/PerInstr.lean ====
section
/-! SUPPORT. A statement about every command as syntax, one lemma per constructor (rules R90, R94). -/

namespace Sys2Proof.Laws

/-- The encoding of `i` decodes to `i`, and `i` is well formed. -/
def RoundTrip.Statement (i : Instr) : Prop := i.wellFormed = true ∧ decode (encode i) = .ok i

theorem RoundTrip.polyCreate : RoundTrip.Statement .polyCreate := ⟨rfl, by decide⟩

theorem RoundTrip.vtxWrite : RoundTrip.Statement .vtxWrite := ⟨rfl, by decide⟩

theorem RoundTrip.polyDestroy : RoundTrip.Statement .polyDestroy := ⟨rfl, by decide⟩

theorem RoundTrip.drawSpan : RoundTrip.Statement .drawSpan := ⟨rfl, by decide⟩

theorem RoundTrip.fillPoly : RoundTrip.Statement .fillPoly := ⟨rfl, by decide⟩

end Sys2Proof.Laws
end

