-- ==== Sys2Proof/Tests/Slice0.lean ====
section
/-! SUPPORT. Tests: command words written out from rule R94, ill-formed accesses, a few of the vectors of 95_test_vectors.md, and for
every statement with hypotheses a state and operands that meet them. -/

namespace Sys2Proof.Tests

open Sys2Proof Sys2Proof.Machine

/-! ### Decoding (rules R90, R94, R95) -/

/-- Bits 31:8 zero, bits 7:0 `0000_0001`. -/
theorem test_decode_polyCreate : decode 0b00000000000000000000000000000001#32 = .ok .polyCreate := by decide

/-- Bits 7:0 `0000_0010`. -/
theorem test_decode_vtxWrite : decode 0b00000000000000000000000000000010#32 = .ok .vtxWrite := by decide

/-- Bits 7:0 `0000_0011`. -/
theorem test_decode_polyDestroy : decode 0b00000000000000000000000000000011#32 = .ok .polyDestroy := by decide

/-- Bits 7:0 `0001_0000`. -/
theorem test_decode_drawSpan : decode 0b00000000000000000000000000010000#32 = .ok .drawSpan := by decide

/-- Bits 7:0 `0001_0001`. -/
theorem test_decode_fillPoly : decode 0b00000000000000000000000000010001#32 = .ok .fillPoly := by decide

/-- The edges of the reserved opcodes of rule R95. -/
theorem test_decode_reserved_opcodes :
    decode 0x00#32 = .error (.opcode 0x00#8) ∧ decode 0x04#32 = .error (.opcode 0x04#8) ∧
    decode 0x0F#32 = .error (.opcode 0x0F#8) ∧ decode 0x12#32 = .error (.opcode 0x12#8) ∧
    decode 0xFF#32 = .error (.opcode 0xFF#8) := by decide

/-- A bit of the field `zero` makes any word reserved. -/
theorem test_decode_reserved_field :
    decode 0x00000111#32 = .error (.nonzeroField 0x000001#24) ∧
    decode 0x80000001#32 = .error (.nonzeroField 0x800000#24) := by decide

/-! ### Well-formedness (rules R31, R32) -/

theorem test_wellFormed_refuses_narrow : (HostAccess.store 2 0x10 0#32).wellFormed = false := by decide

theorem test_wellFormed_refuses_misaligned : (HostAccess.load 4 0x12).wellFormed = false := by decide

theorem test_wellFormed_refuses_outside : (HostAccess.load 4 64).wellFormed = false := by decide

theorem test_wellFormed_accepts : (HostAccess.load 4 0x3C).wellFormed = true := by decide

/-! ### States -/

/-- Reset with `VTX_MAX = 8` and `FB_BASE = 0x20000000`, as 95_test_vectors.md starts. -/
def base : State := { State.reset with vtxCap := 8#32, fbBaseHi := 0x08000000#30 }

/-- `base` with a live polygon of the given vertices. -/
def polygon (vs : List (F32 × F32)) : State :=
  { base with
    pvalid := true, nvert := BitVec.ofNat 32 vs.length
    store := (List.range vs.length).zip (vs.map fun v => ⟨v.1, v.2⟩) }

/-- Vertices (8,2), (4,6), (12,6): vector T1. -/
def triangle : State :=
  polygon [(0x41000000#32, 0x40000000#32), (0x40800000#32, 0x40C00000#32), (0x41400000#32, 0x40C00000#32)]

/-- What `f` sees in the next state. -/
def seen {α : Type} (f : State → α) : Host.Outcome State Fault Refusal → Option α
  | .next t => some (f t)
  | .fault _ => none
  | .refused _ => none

/-- The next host access is `a`. -/
def onBus (a : HostAccess) : State := { base with bus := [a] }

/-! ### One step of each command -/

/-- Vector G1. -/
theorem test_polyCreate_accepted :
    seen (fun t => (statusWord t, t.nvert)) (exec .polyCreate { base with arg0 := 5#32 }) = some (1#32, 5#32) := by decide

/-- Vector G4: `n` above `VTX_MAX`. -/
theorem test_polyCreate_too_many :
    seen (fun t => (statusWord t, t.nvert)) (exec .polyCreate { base with arg0 := 9#32 }) = some (0#32, 0#32) := by decide

/-- Vector G6: vertex 2 of the triangle becomes (1.0, 2.0). -/
theorem test_vtxWrite_stores :
    seen (fun t => (vx t 2#32, vy t 2#32, vy t 1#32))
      (exec .vtxWrite { triangle with arg0 := 2#32, arg1 := 0x3F800000#32, arg2 := 0x40000000#32 }) =
    some (0x3F800000#32, 0x40000000#32, 0x40C00000#32) := by decide

/-- Vector G5: index 3 is not below `NVERT`. -/
theorem test_vtxWrite_ignored :
    seen (fun t => t.store) (exec .vtxWrite { triangle with arg0 := 3#32, arg1 := 0x3F800000#32 }) =
    some triangle.store := by decide

/-- Vector G8. -/
theorem test_polyDestroy_empties :
    seen (fun t => (statusWord t, t.nvert, t.store)) (exec .polyDestroy triangle) = some (0#32, 0#32, []) := by decide

/-- Vector S5: a start word, a full middle word and an end word. -/
theorem test_drawSpan_three_words :
    seen (fun t => t.port.reverse) (exec .drawSpan { base with arg0 := 2#32, arg1 := 30#32, arg2 := 70#32 }) =
    some [.read 0x20000068#32 0#32, .write 0x20000068#32 0x03000000#32, .write 0x2000006C#32 0xFFFFFFFF#32,
      .read 0x20000070#32 0#32, .write 0x20000070#32 0x000000FC#32] := by decide

/-- Vector S12b: the colour lanes under a partial mask. -/
theorem test_drawSpan_colour_lanes :
    seen (fun t => t.port.head?)
      (exec .drawSpan { base with
        arg1 := 4#32, arg2 := 12#32, color := 0x12345678#32, mem := writeWord [] 0x20000000#32 0xFFFFFFFF#32 }) =
    some (some (.write 0x20000000#32 0xFFFF5FF8#32)) := by decide

/-- Vector T1. -/
theorem test_fillPoly_flat_bottom :
    seen (fun t => t.port.reverse) (exec .fillPoly triangle) =
    some [.read 0x2000009C#32 0#32, .write 0x2000009C#32 0x00008001#32, .read 0x200000D0#32 0#32,
      .write 0x200000D0#32 0x0000C003#32, .read 0x20000104#32 0#32, .write 0x20000104#32 0x0000E007#32] := by decide +kernel

/-- Vector T2, a zero-height first edge: (12,2), (4,2), (8,6). -/
theorem test_fillPoly_flat_top :
    seen (fun t => t.port.map PortAccess.isRead |>.length)
      (exec .fillPoly (polygon [(0x41400000#32, 0x40000000#32), (0x40800000#32, 0x40000000#32),
        (0x41000000#32, 0x40C00000#32)])) = some 8 := by decide +kernel

/-- Vectors N1, N4, N5, N9, N12 of 95_test_vectors.md. -/
theorem test_float_vectors :
    f2i (fadd 0x436D8000#32 half) = 238#32 ∧ f2i (fadd 0xBF333333#32 half) = 0#32 ∧ f2i (fadd 0x3EFFFFFF#32 half) = 1#32 ∧
    fdiv 0xC2C80000#32 0x41F00000#32 = 0xC0555555#32 ∧ fdiv 0x7F61B1E6#32 0x006CE3EE#32 = 0x7F800000#32 := by decide +kernel

/-- Vector N8 and the saturating cases of N6. -/
theorem test_conversions_saturate :
    ceilI32 0x7FC00000#32 = 0#32 ∧ ceilI32 0x7F800000#32 = 0x7FFFFFFF#32 ∧ f2i 0xFF800000#32 = 0x80000000#32 := by decide

/-! ### The host's side -/

/-- Vector G11: `FB_BASE[1:0]` is hardwired 0. -/
theorem test_fbBase_hardwired :
    seen (fun t => t.fbBase) (step (onBus (.store 4 0x08 0x20000003#32))) = some 0x20000000#32 := by decide

/-- A narrow register access is refused (rule R32). -/
theorem test_narrow_access_refused : step (onBus (.load 1 0x04)) = .refused .undefinedRegisterAccess := rfl

/-- `withFetchWord` makes the very next step run the command. -/
theorem test_withFetchWord (s : State) : step (s.withFetchWord 32 0x10) = exec .drawSpan s := rfl

/-- The pseudo-instruction `create 5` from reset (rule R98). -/
theorem test_create_program : seen (fun t => t.nvert) (runSteps 2 (base.withProgram [.create 5#32])) = some 5#32 := by decide

/-! ### States and operands that meet the hypotheses of the statements -/

theorem wit_DecodeOfEncodeIsIdentity : Instr.wellFormed .fillPoly = true := rfl

theorem wit_ReservedCommandWordIsIgnored :
    (∀ i, (0x00000111#32 : Word) ≠ encode i) ∧ (onBus (.store 4 0 0x00000111#32)).bus = .store 4 0 0x00000111#32 :: [] := by
  refine ⟨fun i => ?_, rfl⟩
  cases i <;> decide

theorem wit_StepRunsTheDecodedCommand :
    Instr.wellFormed .drawSpan = true ∧ decode 0x10#32 = .ok .drawSpan ∧
    (onBus (.store 4 0 0x10#32)).bus = .store 4 0 0x10#32 :: [] := by decide

theorem wit_IdleBlockStays : base.bus = [] := rfl

theorem wit_RegisterStoreSetsThatRegister :
    (onBus (.store 4 0x08 7#32)).bus = .store 4 0x08 7#32 :: [] ∧ (onBus (.store 4 0x0C 7#32)).bus = .store 4 0x0C 7#32 :: [] ∧
    (onBus (.store 4 0x10 7#32)).bus = .store 4 0x10 7#32 :: [] ∧ (onBus (.store 4 0x14 7#32)).bus = .store 4 0x14 7#32 :: [] ∧
    (onBus (.store 4 0x18 7#32)).bus = .store 4 0x18 7#32 :: [] := by decide

theorem wit_ReadOnlyRegistersIgnoreStores :
    0x3C ∈ [0x04, 0x1C, 0x20, 0x24, 0x28, 0x2C, 0x30, 0x34, 0x38, 0x3C] ∧
    (onBus (.store 4 0x3C 7#32)).bus = .store 4 0x3C 7#32 :: [] := by decide

theorem wit_RegisterLoadReturnsTheRegister :
    let s := { triangle with bus := [.load 4 0x1C] }
    (0x1C, 3#32) ∈ [(0x00, 0#32), (0x04, if s.pvalid then 1#32 else 0#32), (0x08, s.fbBase), (0x0C, s.color),
      (0x10, s.arg0), (0x14, s.arg1), (0x18, s.arg2), (0x1C, s.nvert), (0x20, 400#32), (0x24, 240#32),
      (0x28, 52#32), (0x2C, s.vtxCap), (0x30, 0#32), (0x34, 0#32), (0x38, 0#32), (0x3C, 0#32)] ∧
    s.bus = .load 4 0x1C :: [] := by decide

theorem wit_GeometryRegistersAreConstants :
    (∃ t, step (onBus .reset) = .next t) ∧ (onBus (.load 4 0x20)).bus = .load 4 0x20 :: [] ∧
    (onBus (.load 4 0x24)).bus = .load 4 0x24 :: [] ∧ (onBus (.load 4 0x28)).bus = .load 4 0x28 :: [] ∧
    (onBus (.load 4 0x2C)).bus = .load 4 0x2C :: [] ∧
    0x2C ∈ [0x20, 0x24, 0x28, 0x2C] ∧ (onBus (.store 4 0x2C 7#32)).bus = .store 4 0x2C 7#32 :: [] :=
  ⟨⟨_, rfl⟩, by decide⟩

theorem wit_UndefinedRegisterAccessIsRefused :
    ((onBus (.store 4 64 0#32)).bus = .store 4 64 0#32 :: [] ∧ 64 ≤ 64) ∧
    ((onBus (.load 4 62)).bus = .load 4 62 :: [] ∧ 62 < 64 ∧ 62 % 4 ≠ 0) ∧
    ((onBus (.load 2 60)).bus = .load 2 60 :: [] ∧ 60 < 64 ∧ 2 ≠ 4) := by decide

theorem wit_HostMemoryAccess :
    (onBus (.memStore 0#32 5#8)).bus = .memStore 0#32 5#8 :: [] ∧
    (onBus (.memLoad 0xFFFFFFFF#32)).bus = .memLoad 0xFFFFFFFF#32 :: [] := by decide

theorem wit_PseudoInstructionsRunTheirCommand :
    (base.withProgram [.drawSpan 0 1 2 3]).bus = expand (.drawSpan 0 1 2 3) ++ [] ∧
    (base.withProgram [.create 8]).bus = expand (.create 8) ++ [] ∧
    (base.withProgram [.setVertex 0 1 2]).bus = expand (.setVertex 0 1 2) ++ [] ∧
    (base.withProgram [.destroy]).bus = expand .destroy ++ [] ∧
    (base.withProgram [.fillPolygon 3]).bus = expand (.fillPolygon 3) ++ [] := by decide

theorem wit_ResetEventKeepsMemory : (onBus .reset).bus = .reset :: [] := rfl

theorem wit_ResetEndsARunningCommand :
    ({ triangle with bus := [.resetDuring 0x11#32 3] } : State).bus = .resetDuring 0x11#32 3 :: [] ∧
    decode 0x11#32 = .ok .fillPoly ∧ ∃ whole, exec .fillPoly { triangle with bus := [] } = .next whole :=
  ⟨rfl, by decide, exec_total _ _⟩

theorem wit_PolyCreateMakesTheSlotLive :
    (base.pvalid = false ∧ ∀ n ∈ [1, 8], 1 ≤ ({ base with arg0 := BitVec.ofNat 32 n } : State).arg0.toNat ∧
      ({ base with arg0 := BitVec.ofNat 32 n } : State).arg0.toNat ≤ base.vtxCap.toNat) ∧
    (¬ (triangle.pvalid = false ∧ 1 ≤ triangle.arg0.toNat ∧ triangle.arg0.toNat ≤ triangle.vtxCap.toNat)) ∧
    ∀ n ∈ [0, 9], ¬ (1 ≤ (BitVec.ofNat 32 n).toNat ∧ (BitVec.ofNat 32 n).toNat ≤ base.vtxCap.toNat) := by decide

theorem wit_PolyCreateCornerCases :
    base.arg0 = 0#32 ∧ base.vtxCap.toNat < ({ base with arg0 := 9#32 } : State).arg0.toNat ∧ triangle.pvalid = true ∧
    base.pvalid = false ∧ ({ base with arg0 := 1#32 } : State).arg0 = 1#32 ∧
    ({ base with arg0 := 2#32 } : State).arg0 = 2#32 ∧ 3 ≤ base.vtxCap.toNat := by decide

theorem wit_VtxWriteStoresTheVertex :
    (triangle.pvalid = true ∧ ({ triangle with arg0 := 2#32 } : State).arg0.toNat < triangle.nvert.toNat) ∧
    ¬ (triangle.pvalid = true ∧ ({ triangle with arg0 := 3#32 } : State).arg0.toNat < triangle.nvert.toNat) ∧
    ¬ (base.pvalid = true ∧ base.arg0.toNat < base.nvert.toNat) := by decide

theorem wit_VtxWriteCornerCases :
    base.pvalid = false ∧ triangle.nvert.toNat ≤ ({ triangle with arg0 := 3#32 } : State).arg0.toNat ∧
    triangle.pvalid = true ∧ triangle.arg0.toNat < triangle.nvert.toNat := by decide

theorem base_slotOk : SlotOk base := ⟨by decide, by decide, by decide, by decide⟩

theorem triangle_slotOk : SlotOk triangle := ⟨by decide, by decide, by decide, by decide⟩

theorem wit_PolyDestroyEmptiesTheSlot :
    base.pvalid = false ∧ SlotOk base ∧
    ∃ t, exec .polyCreate { base with arg0 := 3#32 } = .next t ∧ t.pvalid = true :=
  ⟨rfl, base_slotOk, _, rfl, rfl⟩

theorem wit_SlotLifeCycle :
    (SlotOk triangle ∧ ∃ t, step { triangle with bus := [.store 4 0 3#32] } = .next t ∧ t.pvalid ≠ triangle.pvalid) ∧
    (∃ t, exec .polyCreate { base with arg0 := 8#32 } = .next t) ∧ base.pvalid = false ∧ 8 ≤ base.vtxCap.toNat ∧
    triangle.pvalid = true ∧ (∃ t, exec .polyDestroy triangle = .next t) ∧ (∃ t, exec .fillPoly triangle = .next t) ∧
    ({ triangle with bus := [.reset] } : State).bus = .reset :: [] ∧
    ∃ w n, ({ triangle with bus := [.resetDuring 0x11#32 3] } : State).bus = .resetDuring w n :: [] :=
  ⟨⟨triangle_slotOk, _, rfl, by decide⟩, exec_total _ _, rfl, by decide, rfl, exec_total _ _, exec_total _ _, rfl, _, _, rfl⟩

/-- Every command answers a next state. -/
theorem wit_CommandsKeepTheRegisters :
    (∃ t, exec .polyCreate base = .next t) ∧ (∃ t, exec .vtxWrite triangle = .next t) ∧
    (∃ t, exec .polyDestroy triangle = .next t) ∧ (∃ t, exec .drawSpan base = .next t) ∧
    ∃ t, exec .fillPoly triangle = .next t :=
  ⟨exec_total _ _, exec_total _ _, exec_total _ _, exec_total _ _, exec_total _ _⟩

theorem wit_AccessesStayInTheFramebuffer :
    seen (fun t => t.port.length) (exec .drawSpan { base with arg0 := 239#32, arg1 := 399#32, arg2 := 400#32 }) = some 2 := by decide

theorem wit_RecordExplainsMemory : ∃ t, exec .fillPoly triangle = .next t := exec_total _ _

theorem wit_FillIsSpansInRowOrder : ∃ t, exec .fillPoly triangle = .next t := exec_total _ _

/-- An access that is a read, with the write after it. -/
theorem wit_AccessesGoUpward :
    seen (fun t => t.port.reverse) (exec .drawSpan { base with arg0 := 239#32, arg1 := 0#32, arg2 := 1#32 }) =
    some ([] ++ .read 0x2000308C#32 0#32 :: [.write 0x2000308C#32 0x00000080#32]) := by decide

theorem wit_PixelOfLogicalAndMemoryWord : 239 < 240 ∧ 12 < 13 ∧ 31 < 32 := by decide

theorem wit_SpanMaskCoversItsPixels : 31 < 32 ∧ 32 ≤ 32 := by decide

theorem wit_WordAccessIsLittleEndian : (4#32 : Word) ≠ 0#32 ∧ (4#32 : Word) ≠ 0#32 + 1 ∧ (4#32 : Word) ≠ 0#32 + 2 ∧ (4#32 : Word) ≠ 0#32 + 3 := by
  decide

/-- The last row, the last visible and the last padding
pixel, and the first byte outside the framebuffer. -/
theorem wit_DrawSpanPixelByPixel :
    239 < 240 ∧ 399 < 416 ∧ 415 < 416 ∧ inFramebuffer base 0x200030C0#32 = false ∧
    (239#32 : Word).toInt = (239 : Nat) ∧ max 0 (395#32 : Word).toInt ≤ (399 : Nat) ∧
    ((399 : Nat) : Int) < min 400 (410#32 : Word).toInt := by decide

theorem wit_SpanEffectInPixels :
    239 < 240 ∧ 0 < 416 ∧ (239#32 : Word).toInt = (239 : Nat) ∧ max 0 (0xFFFFFFFB#32 : Word).toInt ≤ (0 : Nat) ∧
    ((0 : Nat) : Int) < min 400 (1#32 : Word).toInt ∧ inFramebuffer base 0x1FFFFFFF#32 = false := by decide

theorem wit_FillChangesVisiblePixelsOnly :
    239 < 240 ∧ 400 ≤ 400 ∧ 400 ≤ 415 ∧ 415 < 416 ∧ inFramebuffer base 0x200030C0#32 = false := by decide

theorem wit_EmptySpanMakesNoAccess :
    (0xFFFFFFFF#32 : Word).toInt < 0 ∧ 240 ≤ (240#32 : Word).toInt ∧ 400 ≤ (400#32 : Word).toInt ∧
    min 400 (0#32 : Word).toInt ≤ max 0 (0xFFFFFFFB#32 : Word).toInt := by decide

/-- The whole of the last row. -/
theorem wit_DrawSpanAccessesInOrder :
    let s := { base with arg0 := 239#32, arg1 := 0xFFFFFFFB#32, arg2 := 410#32 }
    0 ≤ s.arg0.toInt ∧ s.arg0.toInt < 240 ∧ 0 ≤ s.arg2.toInt ∧ s.arg1.toInt < 400 ∧
    max 0 s.arg1.toInt < min 400 s.arg2.toInt := by decide

theorem wit_DrawSpanAccessCount :
    let s := { base with arg0 := 239#32, arg1 := 0xFFFFFFFB#32, arg2 := 410#32 }
    0 ≤ s.arg0.toInt ∧ s.arg0.toInt < 240 ∧ 0 ≤ s.arg2.toInt ∧ s.arg1.toInt < 400 ∧
    max 0 s.arg1.toInt < min 400 s.arg2.toInt ∧ ∃ t, exec .drawSpan s = .next t :=
  ⟨by decide, by decide, by decide, by decide, by decide, exec_total _ _⟩

theorem wit_DrawSpanIsIdempotent :
    Memory.wf base.mem = true ∧ ∃ t u, exec .drawSpan { base with arg2 := 10#32 } = .next t ∧ exec .drawSpan t = .next u :=
  ⟨rfl, _, _, rfl, rfl⟩

theorem wit_DefinedHostNeverStops : DefinedHost (base.withProgram [.create 5]) := by
  unfold DefinedHost
  decide

theorem base_stateOk : StateOk base := ⟨by decide, base_slotOk, by decide⟩

theorem wit_StepKeepsTheInvariant :
    StateOk { triangle with bus := [.store 4 0 0x11#32] } ∧ ∃ t, step { triangle with bus := [.store 4 0 0x11#32] } = .next t :=
  ⟨⟨by decide, ⟨by decide, by decide, by decide, by decide⟩, by decide⟩, exec_total .fillPoly triangle⟩

/-- FloatOperationsRoundOnce, with the smallest number, the largest and a divisor that is not zero. -/
theorem wit_FloatOperationsRoundOnce :
    isFinite 0x00000001#32 = true ∧ isFinite 0x7F7FFFFF#32 = true ∧ value 0x80000001#32 ≠ 0 := by decide

theorem wit_FloatSpecialOperands :
    isNaN 0x7F800001#32 = true ∧ isInf 0x7F800000#32 = true ∧ isInf 0xFF800000#32 = true ∧ isFinite 0x7F7FFFFF#32 = true ∧
    value 0x80000000#32 = 0 ∧ value 0x00000001#32 ≠ 0 := by decide

theorem wit_FloatComparisons :
    isNaN 0xFFFFFFFF#32 = true ∧ isFinite 0x80000000#32 = true ∧ isFinite 0x7F7FFFFF#32 = true ∧ isInf 0x7F800000#32 = true ∧
    isInf 0xFF800000#32 = true := by decide

/-- `2^31`, `-2^31` and the largest number below `2^31`. -/
theorem wit_F2iTruncatesAndSaturates :
    isNaN 0x7FC00000#32 = true ∧ isNaN 0x4F000000#32 = false ∧ 2 ^ 31 * (unitsPerOne : Int) ≤ value 0x4F000000#32 ∧
    isNaN 0xCF000000#32 = false ∧ value 0xCF000000#32 ≤ -(2 ^ 31 * (unitsPerOne : Int)) ∧
    isNaN 0x4EFFFFFF#32 = false ∧ |value 0x4EFFFFFF#32| < 2 ^ 31 * (unitsPerOne : Int) := by decide

theorem wit_CeilIsTheLeastIntegerAbove :
    isNaN 0xFFC00000#32 = true ∧ isNaN 0x7F800000#32 = false ∧ 2 ^ 31 * (unitsPerOne : Int) ≤ value 0x7F800000#32 ∧
    isNaN 0xFF800000#32 = false ∧ value 0xFF800000#32 ≤ -(2 ^ 31 * (unitsPerOne : Int)) ∧
    isNaN 0xCEFFFFFF#32 = false ∧ |value 0xCEFFFFFF#32| < 2 ^ 31 * (unitsPerOne : Int) := by decide +kernel

/-- BoundRoundsHalfUp: 0.5, and the largest number below `2^23`. -/
theorem wit_BoundRoundsHalfUp :
    (isFinite half = true ∧ 0 ≤ value half ∧ value half < 2 ^ 23 * (unitsPerOne : Int) ∧ half ≠ 0x3EFFFFFF#32) ∧
    isFinite 0x4AFFFFFF#32 = true ∧ 0 ≤ value 0x4AFFFFFF#32 ∧ value 0x4AFFFFFF#32 < 2 ^ 23 * (unitsPerOne : Int) ∧
    (0x4AFFFFFF#32 : F32) ≠ 0x3EFFFFFF#32 := by decide

theorem wit_SlopeNeverDividesByZero :
    (isFinite (vy triangle 1#32) = true ∧ isFinite (vy triangle 2#32) = true ∧
      value (vy triangle 2#32) = value (vy triangle 1#32)) ∧
    isFinite (vy triangle 0#32) = true ∧ value (vy triangle 1#32) ≠ value (vy triangle 0#32) := by decide

theorem wit_FillWithoutPolygonDoesNothing :
    base.pvalid = false ∧ (polygon [(0#32, 0#32), (0#32, 0#32)]).nvert.toNat < 3 := by decide

theorem wit_FillFollowsTheLoops :
    base.pvalid = false ∧ (polygon [(0#32, 0#32), (0#32, 0#32)]).nvert.toNat < 3 ∧
    triangle.pvalid = true ∧ 3 ≤ triangle.nvert.toNat := by decide

/-- WalkEndsAtTheBottomVertex: a walk of one iteration, and one of none with all vertices at one y (vector T9). -/
theorem wit_WalkEndsAtTheBottomVertex :
    3 ≤ triangle.nvert.toNat ∧ (findTopBottom triangle).work.top ≠ (findTopBottom triangle).work.bot ∧
    (∃ t, WalkRuns 1 (startChains (findTopBottom triangle)) t) ∧
    let flat := polygon [(0x3F800000#32, 0x40A00000#32), (0x41100000#32, 0x40A00000#32), (0x40A00000#32, 0x40A00000#32)]
    (findTopBottom flat).work.top = (findTopBottom flat).work.bot ∧
    ∃ t, WalkRuns 0 (startChains (findTopBottom flat)) t :=
  ⟨by decide, by decide, ⟨_, .turn (by decide) (bandRuns_fillBand _) (.done (by decide))⟩, by decide, _, .done (by decide)⟩

theorem wit_TopAndBottomAreFirstExtremes :
    1 ≤ triangle.nvert.toNat ∧ ∀ i : Word, i.toNat < triangle.nvert.toNat → isNaN (vy triangle i) = false := by
  refine ⟨by decide, fun i hi => ?_⟩
  have h : ∀ k < 3, isNaN (vy triangle (BitVec.ofNat 32 k)) = false := by decide
  have h3 : triangle.nvert.toNat = 3 := rfl
  have := h i.toNat (h3 ▸ hi)
  rwa [BitVec.ofNat_toNat, BitVec.setWidth_eq] at this

theorem wit_ChainsStartAtTheTopVertex : triangle.work.top.toNat < triangle.nvert.toNat := by decide

theorem wit_BandEndsAtTheNearerVertex :
    let s := startChains (findTopBottom triangle)
    let nan := { polygon [(0#32, 0#32), (0#32, 0x7FC00000#32), (0#32, 0#32)] with work := { Work.atReset with ln := 1, rn := 2 } }
    (isNaN (vy s s.work.ln) = false ∧ isNaN (vy s s.work.rn) = false ∧
      value (vy s s.work.ln) ≤ value (vy s s.work.rn)) ∧
    isNaN (vy nan nan.work.ln) = true ∧ isNaN (vy { nan with work := { nan.work with rn := 1 } } 1#32) = true ∧
    (let u := { triangle with work := { Work.atReset with ln := 1, rn := 0 } }
     isNaN (vy u u.work.ln) = false ∧ isNaN (vy u u.work.rn) = false ∧
       value (vy u u.work.rn) < value (vy u u.work.ln)) := by decide

/-- The last row of the framebuffer, the row above the first, the row below the last, and the last row before `2^31 - 1`. -/
theorem wit_RowDrawsThenAddsSlopes :
    let at' (y : Word) : State := { base with work := { Work.atReset with y := y, yEnd := 0x7FFFFFFF#32 } }
    (0 ≤ (at' 239#32).work.y.toInt ∧ (at' 239#32).work.y.toInt < 240 ∧
      (at' 239#32).work.y.toInt < (at' 239#32).work.yEnd.toInt) ∧
    ((at' 0xFFFFFFFF#32).work.y.toInt < 0 ∧ (at' 0xFFFFFFFF#32).work.y.toInt < (at' 0xFFFFFFFF#32).work.yEnd.toInt) ∧
    (240 ≤ (at' 240#32).work.y.toInt ∧ (at' 240#32).work.y.toInt < (at' 240#32).work.yEnd.toInt) ∧
    (at' 0x7FFFFFFE#32).work.y.toInt < (at' 0x7FFFFFFE#32).work.yEnd.toInt := by decide

theorem wit_ChainAdvanceReloadsX :
    let s := startChains (findTopBottom triangle)
    s.work.ln.toNat < s.nvert.toNat ∧ s.work.rn.toNat < s.nvert.toNat := by decide

/-- FillDependsOnItsInputsOnly: the triangle, and the triangle with other operands and other leftovers. -/
theorem wit_FillDependsOnItsInputsOnly :
    let s' := { triangle with arg0 := 77#32, work := Work.unspecified 3 }
    s'.pvalid = triangle.pvalid ∧ s'.nvert = triangle.nvert ∧ s'.color = triangle.color ∧ s'.fbBase = triangle.fbBase ∧
    s'.mem = triangle.mem ∧ (∀ i : Word, i.toNat < triangle.nvert.toNat → vx s' i = vx triangle i ∧ vy s' i = vy triangle i) ∧
    (∃ t, exec .fillPoly triangle = .next t) ∧ ∃ t, exec .fillPoly s' = .next t :=
  ⟨rfl, rfl, rfl, rfl, rfl, fun _ _ => ⟨rfl, rfl⟩, exec_total _ _, exec_total _ _⟩

/-- DrawSpanDependsOnItsInputsOnly. -/
theorem wit_DrawSpanDependsOnItsInputsOnly :
    let s' := { triangle with arg2 := 10#32 }
    let s := { base with arg2 := 10#32 }
    s'.arg0 = s.arg0 ∧ s'.arg1 = s.arg1 ∧ s'.arg2 = s.arg2 ∧ s'.color = s.color ∧ s'.fbBase = s.fbBase ∧ s'.mem = s.mem ∧
    (∃ t, exec .drawSpan s = .next t) ∧ ∃ t, exec .drawSpan s' = .next t :=
  ⟨rfl, rfl, rfl, rfl, rfl, rfl, exec_total _ _, exec_total _ _⟩

/-- RectangleFillIsExact: from (-1, 0) to (2^20, 240), corners down the left side first. -/
theorem wit_RectangleFillIsExact :
    let s := polygon [(0xBF800000#32, 0#32), (0xBF800000#32, 0x43700000#32), (0x49800000#32, 0x43700000#32), (0x49800000#32, 0#32)]
    s.pvalid = true ∧ s.nvert = 4#32 ∧ |(-1 : Int)| ≤ 2 ^ 20 ∧ |(2 ^ 20 : Int)| ≤ 2 ^ 20 ∧ |(0 : Int)| ≤ 2 ^ 20 ∧
    |(240 : Int)| ≤ 2 ^ 20 ∧ (0 : Int) < 240 ∧
    IsWhole (vx s 0) (-1) ∧ IsWhole (vy s 0) 0 ∧ IsWhole (vx s 1) (-1) ∧ IsWhole (vy s 1) 240 ∧
    IsWhole (vx s 2) (2 ^ 20) ∧ IsWhole (vy s 2) 240 ∧ IsWhole (vx s 3) (2 ^ 20) ∧ IsWhole (vy s 3) 0 := by
  unfold IsWhole
  decide

end Sys2Proof.Tests
end

section
/-! SUPPORT. The host's own accesses to framebuffer memory between commands (rules R14, R71). -/

namespace Sys2Proof.Proofs

open Sys2Proof Sys2Proof.Machine

/-- A host write changes the pending accesses and the one byte. -/
theorem step_memStore (s : State) (a : Word) (v : Byte) (rest : List HostAccess) (h : s.bus = .memStore a v :: rest) :
    step s = .next { s with bus := rest, mem := writeByte s.mem a v } := by
  rw [step_access s _ rest h]
  rfl

/-- A host read changes the pending accesses and the data read. -/
theorem step_memLoad (s : State) (a : Word) (rest : List HostAccess) (h : s.bus = .memLoad a :: rest) :
    step s = .next { s with bus := rest, readData := (readByte s.mem a).setWidth 32 } := by
  rw [step_access s _ rest h]
  rfl

theorem readByte_writeByte_same (m : Memory) (a : Word) (v : Byte) : readByte (writeByte m a v) a = v := by
  rw [readByte_writeByte, if_pos rfl]

theorem readByte_writeByte_of_ne (m : Memory) {a b : Word} (v : Byte) (h : b ≠ a) :
    readByte (writeByte m a v) b = readByte m b := by
  rw [readByte_writeByte, if_neg h]

/-- Settles O12: one host access of either kind, and what a byte reads as after a byte write. -/
theorem hostMemoryAccess : Obligations.HostMemoryAccess := by
  intro s a v rest
  refine ⟨fun hstore => ?_, step_memLoad s a rest⟩
  exact ⟨_, step_memStore s a v rest hstore, rfl, readByte_writeByte_same s.mem a v,
    fun b hb => readByte_writeByte_of_ne s.mem v hb⟩

end Sys2Proof.Proofs
end

section
/-! SUPPORT. The order of binary32 numbers (rule R9). `value` gives an infinity plus or minus `2^277` units and every finite number
less than that, so the order of values decides every comparison without a NaN. -/

namespace Sys2Proof.Proofs

open Sys2Proof Sys2Proof.Machine

/-! ### Where the values lie -/

theorem isInf_notNaN {a : F32} (h : isInf a = true) : isNaN a = false := by
  rcases classify a with ⟨-, hinf, -⟩ | ⟨hnan, -, -⟩ | ⟨hnan, -, -⟩
  · rw [hinf] at h; cases h
  · exact hnan
  · exact hnan

theorem magnitude_of_isInf {a : F32} (h : isInf a = true) : magnitude a = 2 ^ 277 := by
  obtain ⟨hexp, hfrac⟩ : expField a = 255 ∧ fracField a = 0 := by simpa [isInf] using h
  rw [magnitude, hexp, hfrac, if_neg (by decide), Nat.add_zero, show 277 = 23 + 254 from rfl, Nat.pow_add]

theorem magnitude_lt_of_isFinite {a : F32} (h : isFinite a = true) : magnitude a < 2 ^ 277 := by
  obtain ⟨m, e, hmag, hm, he, -⟩ := magnitude_form a h
  calc magnitude a = m * 2 ^ e := hmag
    _ < 2 ^ 24 * 2 ^ e := Nat.mul_lt_mul_of_pos_right hm (Nat.two_pow_pos e)
    _ ≤ 2 ^ 24 * 2 ^ 253 := Nat.mul_le_mul_left _ (Nat.pow_le_pow_right (by decide) he)
    _ = 2 ^ 277 := by rw [show 277 = 24 + 253 from rfl, Nat.pow_add]

theorem value_of_isInf {a : F32} (h : isInf a = true) : value a = if signField a then -2 ^ 277 else 2 ^ 277 := by
  rw [value_eq, magnitude_of_isInf h, Nat.cast_pow, Nat.cast_ofNat]

/-- A finite number lies strictly between the infinities. -/
theorem value_between_of_isFinite {a : F32} (h : isFinite a = true) : -2 ^ 277 < value a ∧ value a < 2 ^ 277 := by
  rw [← abs_lt, Int.abs_eq_natAbs, value_natAbs]
  exact_mod_cast magnitude_lt_of_isFinite h

/-! ### The comparisons, by the order of the values -/

/-- A NaN on either side: every comparison is false. -/
theorem comparisons_of_isNaN {a b : F32} (h : isNaN a = true ∨ isNaN b = true) :
    flt a b = false ∧ fgt a b = false ∧ fle a b = false ∧ feq a b = false := by
  have hnot : (!isNaN a && !isNaN b) = false := by
    rcases h with h | h
    · rw [h]; rfl
    · rw [h, Bool.not_true, Bool.and_false]
  unfold flt fgt fle feq
  rw [hnot]
  exact ⟨rfl, rfl, rfl, rfl⟩

section
variable {a b : F32} (ha : isNaN a = false) (hb : isNaN b = false)
include ha hb

/-- Without a NaN the comparisons compare values. -/
theorem comparisons_eq_decide :
    flt a b = decide (value a < value b) ∧ fgt a b = decide (value b < value a) ∧
    fle a b = decide (value a ≤ value b) ∧ feq a b = decide (value a = value b) := by
  unfold flt fgt fle feq
  rw [ha, hb]
  exact ⟨rfl, rfl, rfl, rfl⟩

theorem comparisons_of_value_lt (h : value a < value b) :
    flt a b = true ∧ fgt a b = false ∧ fle a b = true ∧ feq a b = false := by
  obtain ⟨hlt, hgt, hle, heq⟩ := comparisons_eq_decide ha hb
  exact ⟨hlt.trans (decide_eq_true h), hgt.trans (decide_eq_false h.asymm), hle.trans (decide_eq_true h.le),
    heq.trans (decide_eq_false h.ne)⟩

theorem comparisons_of_value_gt (h : value b < value a) :
    flt a b = false ∧ fgt a b = true ∧ fle a b = false ∧ feq a b = false := by
  obtain ⟨hlt, hgt, hle, heq⟩ := comparisons_eq_decide ha hb
  exact ⟨hlt.trans (decide_eq_false h.asymm), hgt.trans (decide_eq_true h), hle.trans (decide_eq_false h.not_ge),
    heq.trans (decide_eq_false h.ne')⟩

theorem comparisons_of_value_eq (h : value a = value b) :
    flt a b = false ∧ fgt a b = false ∧ fle a b = true ∧ feq a b = true := by
  obtain ⟨hlt, hgt, hle, heq⟩ := comparisons_eq_decide ha hb
  exact ⟨hlt.trans (decide_eq_false h.not_lt), hgt.trans (decide_eq_false h.not_gt), hle.trans (decide_eq_true h.le),
    heq.trans (decide_eq_true h)⟩

end

/-! ### Finite numbers and infinities -/

theorem comparisons_finite_finite {a b : F32} (ha : isFinite a = true) (hb : isFinite b = true) :
    (flt a b = true ↔ value a < value b) ∧ (fgt a b = true ↔ value b < value a) ∧
    (fle a b = true ↔ value a ≤ value b) ∧ (feq a b = true ↔ value a = value b) := by
  obtain ⟨hlt, hgt, hle, heq⟩ := comparisons_eq_decide (finite_notNaN ha) (finite_notNaN hb)
  rw [hlt, hgt, hle, heq]
  exact ⟨decide_eq_true_iff, decide_eq_true_iff, decide_eq_true_iff, decide_eq_true_iff⟩

theorem comparisons_inf_finite {a b : F32} (ha : isInf a = true) (hb : isFinite b = true) :
    flt a b = signField a ∧ fgt a b = !signField a ∧ fle a b = signField a ∧ feq a b = false := by
  have hva := value_of_isInf ha
  obtain ⟨hlow, hhigh⟩ := value_between_of_isFinite hb
  cases hs : signField a <;> rw [hs] at hva
  case true => exact comparisons_of_value_lt (isInf_notNaN ha) (finite_notNaN hb) (hva ▸ hlow)
  case false => exact comparisons_of_value_gt (isInf_notNaN ha) (finite_notNaN hb) (hva ▸ hhigh)

theorem comparisons_finite_inf {a b : F32} (ha : isFinite a = true) (hb : isInf b = true) :
    flt a b = !signField b ∧ fgt a b = signField b ∧ fle a b = !signField b ∧ feq a b = false := by
  have hvb := value_of_isInf hb
  obtain ⟨hlow, hhigh⟩ := value_between_of_isFinite ha
  cases hs : signField b <;> rw [hs] at hvb
  case true => exact comparisons_of_value_gt (finite_notNaN ha) (isInf_notNaN hb) (hvb ▸ hlow)
  case false => exact comparisons_of_value_lt (finite_notNaN ha) (isInf_notNaN hb) (hvb ▸ hhigh)

theorem comparisons_inf_inf {a b : F32} (ha : isInf a = true) (hb : isInf b = true) :
    flt a b = (signField a && !signField b) ∧ fgt a b = (!signField a && signField b) ∧
    fle a b = (signField a || !signField b) ∧ feq a b = (signField a == signField b) := by
  have hva := value_of_isInf ha
  have hvb := value_of_isInf hb
  have hna := isInf_notNaN ha
  have hnb := isInf_notNaN hb
  have hopposite : (-2 ^ 277 : Int) < 2 ^ 277 := neg_lt_self (pow_pos two_pos 277)
  cases hsa : signField a <;> cases hsb : signField b <;> rw [hsa] at hva <;> rw [hsb] at hvb
  case false.false => exact comparisons_of_value_eq hna hnb (hva.trans hvb.symm)
  case false.true => exact comparisons_of_value_gt hna hnb (hva ▸ hvb ▸ hopposite)
  case true.false => exact comparisons_of_value_lt hna hnb (hva ▸ hvb ▸ hopposite)
  case true.true => exact comparisons_of_value_eq hna hnb (hva.trans hvb.symm)

/-- Settles O41: the two zeros evaluated, then one lemma for each pair of classes of operands. -/
theorem floatComparisons : Obligations.FloatComparisons :=
  ⟨by decide, fun _ _ => ⟨comparisons_of_isNaN, comparisons_finite_finite, comparisons_inf_finite,
    comparisons_finite_inf, comparisons_inf_inf⟩⟩

end Sys2Proof.Proofs
end

section
/-! SUPPORT. The register window (rules R21 to R32): which register an offset reaches, and what a step does with a store or a load
of that register. -/

namespace Sys2Proof.Proofs

open Sys2Proof Sys2Proof.Machine

/-! ### Which register an access reaches -/

theorem registerMap_offsets_lt {o : Nat} {r : Reg} (h : (o, r) ∈ registerMap) : o < 64 :=
  (by decide : ∀ e ∈ registerMap, e.1 < 64) (o, r) h

/-- A 32-bit access at an offset of the map reaches the register the map gives it. -/
theorem reached_of_mem {o : Nat} {r : Reg} (h : (o, r) ∈ registerMap) : reached 4 o = .ok r := by
  have hlt : ¬ 64 ≤ o := Nat.not_le.2 (registerMap_offsets_lt h)
  have hreg : regAt o = some r := entryAt_of_mem (o, r) registerMap (by decide) h
  rw [reached, if_neg hlt, if_pos rfl, hreg]

theorem regAt_misaligned {o : Nat} (hlt : o < 64) (h : o % 4 ≠ 0) : regAt o = none :=
  (by decide : ∀ o < 64, o % 4 ≠ 0 → regAt o = none) o hlt h

theorem reached_outside {size o : Nat} (h : 64 ≤ o) : reached size o = .error .outsideWindow := if_pos h

theorem reached_undefined {size o : Nat} (hlt : o < 64) (h : size ≠ 4 ∨ o % 4 ≠ 0) :
    reached size o = .error .undefinedRegisterAccess := by
  rw [reached, if_neg (Nat.not_le.2 hlt)]
  by_cases hsize : size = 4
  · rw [if_pos hsize, regAt_misaligned hlt (h.resolve_left (not_not_intro hsize))]
  · rw [if_neg hsize]

/-! ### A step that stores or loads -/

section
variable {s : State} {rest : List HostAccess} {size o : Nat} {v : Word}

theorem step_store {r : Reg} (hr : reached size o = .ok r) (h : s.bus = .store size o v :: rest) :
    step s = writeReg { s with bus := rest } v r := by
  rw [step_access s _ rest h, hostAccess, hr]

theorem step_load {r : Reg} (hr : reached size o = .ok r) (h : s.bus = .load size o :: rest) :
    step s = .next { s with bus := rest, readData := readReg s r } := by
  rw [step_access s _ rest h, hostAccess, hr]
  cases r <;> rfl

theorem step_refused {e : Refusal} (he : reached size o = .error e)
    (h : s.bus = .store size o v :: rest ∨ s.bus = .load size o :: rest) : step s = .refused e := by
  rcases h with h | h <;> rw [step_access s _ rest h, hostAccess, he]

end

theorem issue_of_decode {w : Word} {i : Instr} (h : decode w = .ok i) (s : State) : issue w s = exec i s := by
  rw [issue, h]

/-- Settles O5: the store reaches `CMD`, and `CMD` issues the decoded command. -/
theorem stepRunsTheDecodedCommand : Obligations.StepRunsTheDecodedCommand := by
  intro s w rest i _ hdecode hbus
  rw [step_store (reached_of_mem (r := .cmd) (by decide)) hbus]
  exact issue_of_decode hdecode _

/-! ### Stores -/

/-- Keeping bits 31:2 and appending two zeros is masking with `0xFFFFFFFC` (rule R24). -/
theorem high30_append_zeros (v : Word) : v.extractLsb' 2 30 ++ 0#2 = v &&& 0xFFFFFFFC#32 := by
  refine BitVec.eq_of_getLsbD_eq fun i hi => ?_
  have hmask : (0xFFFFFFFC#32 : Word).getLsbD i = decide (2 ≤ i) :=
    (by decide : ∀ i < 32, (0xFFFFFFFC#32 : Word).getLsbD i = decide (2 ≤ i)) i hi
  rw [BitVec.getLsbD_append, BitVec.getLsbD_and, hmask]
  by_cases hlow : i < 2
  · simp [hlow]
  · rw [if_neg hlow, BitVec.getLsbD_extractLsb', Nat.add_sub_cancel' (by omega)]
    simp [show i - 2 < 30 by omega, show 2 ≤ i by omega]

/-- Settles O7: each offset reaches its register, and `FB_BASE` drops its low two bits. -/
theorem registerStoreSetsThatRegister : Obligations.RegisterStoreSetsThatRegister := by
  intro s v rest
  refine ⟨fun hbus => ?fbBase, fun hbus => ?color, fun hbus => ?arg0, fun hbus => ?arg1, fun hbus => ?arg2⟩
  case fbBase => exact ⟨_, step_store (reached_of_mem (r := .fbBase) (by decide)) hbus, high30_append_zeros v, rfl⟩
  case color => exact step_store (reached_of_mem (r := .color) (by decide)) hbus
  case arg0 => exact step_store (reached_of_mem (r := .arg0) (by decide)) hbus
  case arg1 => exact step_store (reached_of_mem (r := .arg1) (by decide)) hbus
  case arg2 => exact step_store (reached_of_mem (r := .arg2) (by decide)) hbus

/-- The registers that ignore a store (rules R23, R29, R30, R31). -/
def ignoresStores : List Reg := [.status, .nvert, .geomW, .geomH, .geomStride, .vtxCap, .reserved]

theorem writeReg_of_ignoresStores {r : Reg} (h : r ∈ ignoresStores) (s : State) (v : Word) : writeReg s v r = .next s := by
  simp only [ignoresStores, List.mem_cons, List.not_mem_nil, or_false] at h
  rcases h with rfl | rfl | rfl | rfl | rfl | rfl | rfl <;> rfl

theorem offset_ignoresStores {o : Nat} (h : o ∈ [0x04, 0x1C, 0x20, 0x24, 0x28, 0x2C, 0x30, 0x34, 0x38, 0x3C]) :
    ∃ e ∈ registerMap, e.1 = o ∧ e.2 ∈ ignoresStores :=
  (by decide : ∀ o ∈ [0x04, 0x1C, 0x20, 0x24, 0x28, 0x2C, 0x30, 0x34, 0x38, 0x3C],
    ∃ e ∈ registerMap, e.1 = o ∧ e.2 ∈ ignoresStores) o h

/-- Settles O8: each of these offsets reaches a register that ignores stores. -/
theorem readOnlyRegistersIgnoreStores : Obligations.ReadOnlyRegistersIgnoreStores := by
  intro s v rest offset hoffset hbus
  obtain ⟨⟨o, r⟩, hmem, rfl, hr⟩ := offset_ignoresStores hoffset
  rw [step_store (reached_of_mem hmem) hbus]
  exact writeReg_of_ignoresStores hr _ v

/-! ### Loads -/

/-- Settles O9: the table of the statement is the register map with each register read. -/
theorem registerLoadReturnsTheRegister : Obligations.RegisterLoadReturnsTheRegister := by
  intro s rest offset v hmem hbus
  obtain ⟨⟨o, r⟩, hreg, hread⟩ := List.mem_map.1
    (show (offset, v) ∈ registerMap.map fun e => (e.1, readReg s e.2) from hmem)
  obtain ⟨rfl, rfl⟩ := Prod.mk.inj hread
  exact step_load (reached_of_mem hreg) hbus

/-- Settles O11: nothing outside the window, narrow or misaligned reaches a register. -/
theorem undefinedRegisterAccessIsRefused : Obligations.UndefinedRegisterAccessIsRefused :=
  fun _ _ _ _ _ hbus =>
    ⟨fun hout => step_refused (reached_outside hout) hbus, fun hlt h => step_refused (reached_undefined hlt h) hbus⟩

end Sys2Proof.Proofs
end

section
/-! SUPPORT. Reset (rules R45, R280, R282). -/

namespace Sys2Proof.Proofs

open Sys2Proof Sys2Proof.Machine

theorem step_reset {s : State} {rest : List HostAccess} (h : s.bus = .reset :: rest) :
    step s = .next { s with bus := rest }.resetBlock :=
  step_access s _ rest h

theorem resetBlock_fbBase (s : State) : s.resetBlock.fbBase = 0#32 := by
  rw [State.fbBase, resetBlock_fbBaseHi]
  rfl

theorem isWritten_of_store_nil {s : State} (h : s.store = []) (i : Word) : isWritten s i = false := by
  rw [isWritten, h]
  rfl

theorem reset_vtxCap_bounds : 3 ≤ State.reset.vtxCap.toNat ∧ State.reset.vtxCap.toNat ≤ 65535 := by
  rw [reset_vtxCap]
  exact vtxMax_bounds

/-- Settles O14: the fields of `State.reset`, its empty store and the range of `VTX_MAX`. -/
theorem resetValues : Obligations.ResetValues :=
  ⟨rfl, rfl, rfl, rfl, rfl, rfl, rfl, rfl, isWritten_of_store_nil rfl, reset_vtxCap_bounds⟩

/-- Settles O15: the step is the block reset, which keeps memory, the record, `VTX_CAP` and the host's side. -/
theorem resetEventKeepsMemory : Obligations.ResetEventKeepsMemory := by
  intro s rest hbus
  exact ⟨_, step_reset hbus, rfl, rfl, resetBlock_fbBase _, rfl, rfl, rfl, rfl, rfl, rfl, isWritten_of_store_nil rfl,
    rfl, rfl, rfl, rfl, rfl, rfl, rfl, rfl⟩

theorem slotOk_of_empty {s : State} (hp : s.pvalid = false) (hn : s.nvert = 0#32) (hs : s.store = []) : SlotOk s where
  live h := absurd (hp.symm.trans h) Bool.false_ne_true
  empty _ := hn
  written e he := by rw [hs] at he; cases he
  ordered := by rw [hs]; rfl

/-- Settles O37: no byte listed, an empty slot, and `VTX_MAX` in range. -/
theorem invariantAtReset : Obligations.InvariantAtReset :=
  ⟨rfl, slotOk_of_empty rfl rfl rfl, reset_vtxCap_bounds⟩

end Sys2Proof.Proofs
end

section
/-! SUPPORT. The record of accesses explains memory (rules R37, R71): every access on the port keeps this, and a command does
nothing to memory but accesses on the port. -/

namespace Sys2Proof.Proofs

open Sys2Proof Sys2Proof.Machine

/-- The memory of `s` is `m` with the recorded writes done, and each recorded read returned what memory held then. -/
def Explained (m : Memory) (s : State) : Prop :=
  s.mem = replay m s.port.reverse ∧ readsAgree m s.port.reverse

theorem readsAgree_append (xs ys : List PortAccess) : ∀ m : Memory,
    readsAgree m (xs ++ ys) ↔ readsAgree m xs ∧ readsAgree (replay m xs) ys := by
  induction xs with
  | nil => exact fun m => (and_iff_right trivial).symm
  | cons p rest ih =>
    intro m
    cases p with
    | read a v => exact (and_congr_right fun _ => ih m).trans and_assoc.symm
    | write a v => exact ih _

section
variable {m : Memory} {s : State}

/-- Before a command's first access. -/
theorem explained_of_port_nil (hm : s.mem = m) (hp : s.port = []) : Explained m s := by
  rw [Explained, hm, hp]
  exact ⟨rfl, trivial⟩

theorem explained_portRead (a : Word) (h : Explained m s) : Explained m (portRead a s) := by
  obtain ⟨hmem, hreads⟩ := h
  rw [Explained, portRead_mem, portRead_port, List.reverse_cons, replay_append, readsAgree_append, ← hmem]
  exact ⟨rfl, hreads, rfl, trivial⟩

theorem explained_portWrite (a v : Word) (h : Explained m s) : Explained m (portWrite a v s) := by
  obtain ⟨hmem, hreads⟩ := h
  rw [Explained, portWrite_mem, portWrite_port, List.reverse_cons, replay_append, readsAgree_append, ← hmem]
  exact ⟨rfl, hreads, trivial⟩

theorem explained_maskedWrite (a k c : Word) (h : Explained m s) : Explained m (maskedWrite a k c s) := by
  unfold maskedWrite
  split
  · exact explained_portWrite a _ h
  · exact explained_portWrite a _ (explained_portRead a h)

theorem explained_spanWord (y : Nat) (c : Word) (k : Nat) (h : Explained m s) : Explained m (spanWord y c s k) :=
  explained_maskedWrite _ _ _ h

theorem explained_span (y x1 x2 c : Word) (h : Explained m s) : Explained m (span y x1 x2 c s) := by
  have hclip : Explained m (s.setClip (clipLow x1) (clipHigh x2)) := h
  rcases span_cases y x1 x2 c s with ⟨-, heq | heq⟩ | ⟨-, -, -, -, -, heq⟩ <;> rw [heq]
  · exact h
  · exact hclip
  · exact List.foldlRecOn _ _ hclip fun _ ht k _ => explained_spanWord _ c k ht

theorem explained_drawRow (h : Explained m s) : Explained m (drawRow s) := by
  unfold drawRow
  split
  · exact explained_span _ _ _ _ h
  · exact h

end

theorem explained_fillRows {m : Memory} (n : Nat) : ∀ {s : State}, Explained m s → Explained m (fillRows n s) := by
  induction n with
  | zero => exact id
  | succ n ih => exact fun h => ih (explained_drawRow h)

theorem explained_walkOnce {m : Memory} {s : State} (h : Explained m s) : Explained m (walkOnce s) := by
  have hfilled : Explained m (fillBand (setBandEnd s)) := explained_fillRows _ h
  unfold walkOnce
  split <;> exact hfilled

theorem explained_walk {m : Memory} (n : Nat) : ∀ {s : State}, Explained m s → Explained m (walk n s) := by
  induction n with
  | zero => exact id
  | succ n ih =>
    intro s h
    unfold walk
    split
    · exact ih (explained_walkOnce h)
    · exact h

theorem explained_fillPolygon {m : Memory} {s : State} (h : Explained m s) : Explained m (fillPolygon s) := by
  obtain ⟨hmem, hport⟩ := startChains_mem s
  refine explained_walk _ ?_
  rw [Explained, hmem, hport]
  exact h

/-- Settles O34: the commands on the slot make no access, the drawing commands make each on the port. -/
theorem recordExplainsMemory : Obligations.RecordExplainsMemory := by
  intro i s t hexec
  have hstart : Explained s.mem s.startCommand := explained_of_port_nil rfl rfl
  show Explained s.mem t
  cases i with
  | polyCreate => rcases execPolyCreate_cases s with ⟨-, ht⟩ | ⟨-, ht⟩ <;> cases ht.symm.trans hexec <;> exact hstart
  | vtxWrite => rcases execVtxWrite_cases s with ⟨-, ht⟩ | ⟨-, ht⟩ <;> cases ht.symm.trans hexec <;> exact hstart
  | polyDestroy =>
    cases (exec_polyDestroy s).symm.trans hexec
    exact hstart
  | drawSpan =>
    cases (exec_drawSpan s).symm.trans hexec
    exact explained_span _ _ _ _ hstart
  | fillPoly =>
    rcases execFillPoly_cases s with ⟨-, ht⟩ | ⟨-, ht⟩ <;> cases ht.symm.trans hexec
    · exact hstart
    · exact explained_fillPolygon hstart

end Sys2Proof.Proofs
end

section
/-! SUPPORT. Everything a step can do, said once, and what follows for the capacity (rule R30) and for the invariant
(rules R7, R29, R203, R205). -/

namespace Sys2Proof.Proofs

open Sys2Proof Sys2Proof.Machine

/-! ### What a step can do -/

/-- `t` differs from `u` at most in the registers a host store can set and in the data read: what register accesses that start no
command and host reads of memory may change. -/
def OnlyHostRegisters (u t : State) : Prop :=
  t = { u with fbBaseHi := t.fbBaseHi, color := t.color, arg0 := t.arg0, arg1 := t.arg1, arg2 := t.arg2,
               readData := t.readData }

/-- What a `CMD` write can do: run a command, or only clear the record when the word is reserved (rules R22, R95). -/
inductive IssueEffect (u : State) : State → Prop where
  | command (i : Instr) {t : State} (h : exec i u = .next t) : IssueEffect u t
  | reservedWord : IssueEffect u u.startCommand

/-- What a host access can do to the state `u` in which it is used up (`hostAccess_effect`). -/
inductive HostEffect (u : State) : State → Prop where
  | registers {t : State} (h : OnlyHostRegisters u t) : HostEffect u t
  | issued {t : State} (h : IssueEffect u t) : HostEffect u t
  | hostByte (a : Word) (v : Byte) : HostEffect u { u with mem := writeByte u.mem a v }
  | reset : HostEffect u u.resetBlock
  | resetDuring (n : Nat) {t : State} (h : IssueEffect u t) : HostEffect u (interrupted n u t)

theorem issue_effect {w : Word} {u t : State} (h : issue w u = .next t) : IssueEffect u t := by
  unfold issue at h
  split at h
  case h_1 i _ => exact .command i h
  case h_2 => cases h; exact .reservedWord

theorem writeReg_effect {u t : State} {v : Word} {r : Reg} (h : writeReg u v r = .next t) : HostEffect u t := by
  cases r
  case cmd => exact .issued (issue_effect h)
  all_goals
    cases h
    exact .registers rfl

theorem hostAccess_effect {a : HostAccess} {u t : State} (h : hostAccess a u = .next t) : HostEffect u t := by
  cases a with
  | store size offset v =>
    simp only [hostAccess] at h
    split at h
    · exact writeReg_effect h
    · cases h
  | load size offset =>
    simp only [hostAccess] at h
    split at h <;> cases h
    exact .registers rfl
  | memStore a v => cases h; exact .hostByte a v
  | memLoad a => cases h; exact .registers rfl
  | reset => cases h; exact .reset
  | resetDuring w n =>
    simp only [hostAccess] at h
    split at h <;> cases h
    exact .resetDuring n (issue_effect ‹_›)

/-- A step leaves an idle block as it is (rule R281), or uses up one host access. -/
theorem step_effect {s t : State} (h : step s = .next t) : t = s ∨ ∃ rest, HostEffect { s with bus := rest } t := by
  cases hbus : s.bus with
  | nil =>
    rw [step, stepHost, hbus] at h
    cases h
    exact .inl rfl
  | cons a rest =>
    rw [step_access s a rest hbus] at h
    exact .inr ⟨rest, hostAccess_effect h⟩

/-! ### The capacity (rule R30) -/

theorem exec_vtxCap {i : Instr} {s t : State} (h : exec i s = .next t) : t.vtxCap = s.vtxCap := by rw [exec_keeps i s t h]

theorem IssueEffect.vtxCap {u t : State} (h : IssueEffect u t) : t.vtxCap = u.vtxCap := by
  cases h with
  | command i h => exact exec_vtxCap h
  | reservedWord => rfl

theorem HostEffect.vtxCap {u t : State} (h : HostEffect u t) : t.vtxCap = u.vtxCap := by
  cases h with
  | registers h => rw [h]
  | issued h => exact h.vtxCap
  | hostByte | reset | resetDuring => rfl

theorem step_vtxCap {s t : State} (h : step s = .next t) : t.vtxCap = s.vtxCap := by
  rcases step_effect h with rfl | ⟨rest, heffect⟩
  · rfl
  · exact heffect.vtxCap

/-- Settles O10: no step changes `VTX_CAP`, and the window reads and ignores the four registers as O8 and O9 say. -/
theorem geometryRegistersAreConstants : Obligations.GeometryRegistersAreConstants := by
  refine ⟨rfl, fun s t => step_vtxCap, fun s rest => ⟨?width, ?height, ?stride, ?capacity, ?stores⟩⟩
  case width => exact step_load (reached_of_mem (r := .geomW) (by decide))
  case height => exact step_load (reached_of_mem (r := .geomH) (by decide))
  case stride => exact step_load (reached_of_mem (r := .geomStride) (by decide))
  case capacity => exact step_load (reached_of_mem (r := .vtxCap) (by decide))
  case stores =>
    intro offset v hoffset
    have hsubset : [0x20, 0x24, 0x28, 0x2C] ⊆ [0x04, 0x1C, 0x20, 0x24, 0x28, 0x2C, 0x30, 0x34, 0x38, 0x3C] := by decide
    exact readOnlyRegistersIgnoreStores s v rest offset (hsubset hoffset)

/-! ### The polygon slot (rules R29, R203, R205) -/

/-- A good slot depends on four fields only. -/
theorem slotOk_congr {s t : State} (h : SlotOk s) (hp : t.pvalid = s.pvalid) (hn : t.nvert = s.nvert) (hc : t.vtxCap = s.vtxCap)
    (hs : t.store = s.store) : SlotOk t where
  live := by rw [hp, hn, hc]; exact h.live
  empty := by rw [hp, hn]; exact h.empty
  written := by rw [hs, hn]; exact h.written
  ordered := by rw [hs]; exact h.ordered

theorem slotOk_onlyDrawing {s t : State} (hd : OnlyDrawing s t) (h : SlotOk s) : SlotOk t :=
  slotOk_congr h hd.pvalid hd.nvert hd.vtxCap hd.store

theorem slotOk_startCommand {s : State} (h : SlotOk s) : SlotOk s.startCommand := slotOk_congr h rfl rfl rfl rfl

theorem slotOk_endCommand {s : State} (h : SlotOk s) : SlotOk s.endCommand := slotOk_congr h rfl rfl rfl rfl

theorem slotOk_createSlot {s : State} {n : Word} (h1 : 1 ≤ n.toNat) (h2 : n.toNat ≤ s.vtxCap.toNat) :
    SlotOk (s.createSlot n) where
  live _ := ⟨h1, h2⟩
  empty h := absurd h.symm Bool.false_ne_true
  written _ he := by cases he
  ordered := rfl

theorem slotOk_writeVertex {s : State} {i : Word} (x y : F32) (hi : i.toNat < s.nvert.toNat) (h : SlotOk s) :
    SlotOk (s.writeVertex i x y) where
  live := h.live
  empty := h.empty
  written e he := by
    rcases mem_putEntry _ _ _ e he with rfl | hold
    · exact hi
    · exact h.written e hold
  ordered := rising_putEntry _ _ _ h.ordered

/-- Every command keeps a good slot. -/
theorem exec_slotOk {i : Instr} {s t : State} (h : SlotOk s) (hexec : exec i s = .next t) : SlotOk t := by
  have hstart := slotOk_startCommand h
  cases i with
  | polyCreate =>
    rcases execPolyCreate_cases s with ⟨⟨-, h1, h2⟩, ht⟩ | ⟨-, ht⟩ <;> cases ht.symm.trans hexec
    · exact slotOk_createSlot h1 h2
    · exact hstart
  | vtxWrite =>
    rcases execVtxWrite_cases s with ⟨⟨-, hi⟩, ht⟩ | ⟨-, ht⟩ <;> cases ht.symm.trans hexec
    · exact slotOk_writeVertex _ _ hi hstart
    · exact hstart
  | polyDestroy =>
    cases (exec_polyDestroy s).symm.trans hexec
    exact slotOk_of_empty rfl rfl rfl
  | drawSpan =>
    cases (exec_drawSpan s).symm.trans hexec
    exact slotOk_endCommand (slotOk_onlyDrawing (span_onlyDrawing _ _ _ _ _) hstart)
  | fillPoly =>
    rcases execFillPoly_cases s with ⟨-, ht⟩ | ⟨-, ht⟩ <;> cases ht.symm.trans hexec
    · exact hstart
    · exact slotOk_endCommand (slotOk_onlyDrawing (fillPolygon_onlyDrawing _) hstart)

/-! ### The invariant -/

/-- Every command keeps the canonical form of memory: it only does the writes it records. -/
theorem exec_wf {i : Instr} {s t : State} (h : Memory.wf s.mem = true) (hexec : exec i s = .next t) :
    Memory.wf t.mem = true := by
  rw [(recordExplainsMemory i s t hexec).1]
  exact wf_replay _ _ h

/-- A reset leaves an empty slot, whatever the slot was. -/
theorem slotOk_resetBlock (s : State) : SlotOk s.resetBlock := slotOk_of_empty rfl rfl rfl

theorem IssueEffect.stateOk {u t : State} (heffect : IssueEffect u t) (h : StateOk u) : StateOk t := by
  cases heffect with
  | command i hexec => exact ⟨exec_wf h.memory hexec, exec_slotOk h.slot hexec, exec_vtxCap hexec ▸ h.capacity⟩
  | reservedWord => exact ⟨h.memory, slotOk_startCommand h.slot, h.capacity⟩

theorem HostEffect.stateOk {u t : State} (heffect : HostEffect u t) (h : StateOk u) : StateOk t := by
  cases heffect with
  | registers ht =>
    rw [ht]
    exact ⟨h.memory, slotOk_congr h.slot rfl rfl rfl rfl, h.capacity⟩
  | issued hissue => exact hissue.stateOk h
  | hostByte a v => exact ⟨wf_writeByte _ a v h.memory, slotOk_congr h.slot rfl rfl rfl rfl, h.capacity⟩
  | reset => exact ⟨h.memory, slotOk_resetBlock u, h.capacity⟩
  | resetDuring n => exact ⟨wf_replay _ _ h.memory, slotOk_resetBlock _, h.capacity⟩

/-- Settles O38: every effect a step can have keeps the invariant. -/
theorem stepKeepsTheInvariant : Obligations.StepKeepsTheInvariant := by
  intro s t h hstep
  rcases step_effect hstep with rfl | ⟨rest, heffect⟩
  · exact h
  · exact heffect.stateOk ⟨h.memory, slotOk_congr h.slot rfl rfl rfl rfl, h.capacity⟩

end Sys2Proof.Proofs
end

section
/-! SUPPORT. Noninterference of the drawing commands (rules R36, R75, R92): two states that agree on a command's inputs make the
same accesses. For FILL_POLY the agreement of the two walks is carried line by line through rule R175. -/

namespace Sys2Proof.Proofs

open Sys2Proof Sys2Proof.Machine

/-- Settles O57: DRAW_SPAN is one span, and a span depends on its operands, memory and `FB_BASE`. -/
theorem drawSpanDependsOnItsInputsOnly : Obligations.DrawSpanDependsOnItsInputsOnly := by
  intro s s' t t' h0 h1 h2 hcolor hbase hmem hexec hexec'
  have hstart : SameDrawing s.startCommand s'.startCommand := ⟨hmem, rfl, hbase⟩
  cases (exec_drawSpan s).symm.trans hexec
  cases (exec_drawSpan s').symm.trans hexec'
  rw [h0, h1, h2, hcolor]
  have hspan := span_same hstart s.arg0 s.arg1 s.arg2 s.color
  exact ⟨hspan.mem, hspan.port⟩

/-! ### What FILL_POLY reads -/

/-- The two states hold the same polygon and colour: what no line of rule R175 changes. -/
structure SamePolygon (s s' : State) : Prop where
  nvert : s'.nvert = s.nvert
  color : s'.color = s.color
  vertex : ∀ i : Word, i.toNat < s.nvert.toNat → vx s' i = vx s i ∧ vy s' i = vy s i

/-- The working registers that carry the walk from one iteration to the next (lines F7 to F23) agree. -/
structure SameCursors (w w' : Work) : Prop where
  bot : w'.bot = w.bot
  l : w'.l = w.l
  ln : w'.ln = w.ln
  r : w'.r = w.r
  rn : w'.rn = w.rn
  xl : w'.xl = w.xl
  xr : w'.xr = w.xr
  sl : w'.sl = w.sl
  sr : w'.sr = w.sr
  y : w'.y = w.y

/-- The two states walk alike, and the walk reads vertices of the polygon only. -/
structure SameWalk (s s' : State) : Prop where
  drawing : SameDrawing s s'
  polygon : SamePolygon s s'
  cursors : SameCursors s.work s'.work
  ln_lt : s.work.ln.toNat < s.nvert.toNat
  rn_lt : s.work.rn.toNat < s.nvert.toNat

theorem samePolygon_onlyDrawing {s s' t t' : State} (h : SamePolygon s s') (hd : OnlyDrawing s t)
    (hd' : OnlyDrawing s' t') : SamePolygon t t' where
  nvert := by rw [hd.nvert, hd'.nvert, h.nvert]
  color := by rw [hd.color, hd'.color, h.color]
  vertex i hi := by
    rw [hd.vx, hd.vy, hd'.vx, hd'.vy]
    exact h.vertex i (hd.nvert ▸ hi)

theorem sameDrawing_setWork {s s' : State} (h : SameDrawing s s') (w w' : Work) :
    SameDrawing (s.setWork w) (s'.setWork w') := ⟨h.mem, h.port, h.base⟩

theorem nextIndex_lt {n i : Word} (h : i.toNat < n.toNat) : (nextIndex n i).toNat < n.toNat := by
  rw [nextIndex_toNat n i h]
  exact Nat.mod_lt _ (Nat.zero_lt_of_lt h)

theorem prevIndex_lt {n i : Word} (h : i.toNat < n.toNat) : (prevIndex n i).toNat < n.toNat := by
  rw [prevIndex_toNat n i h]
  exact Nat.mod_lt _ (Nat.zero_lt_of_lt h)

section
variable {s s' : State} {a b : Word} (h : SamePolygon s s') (ha : a.toNat < s.nvert.toNat)
include h ha

theorem vx_same : vx s' a = vx s a := (h.vertex a ha).1

theorem vy_same : vy s' a = vy s a := (h.vertex a ha).2

theorem edgeSlope_same (hb : b.toNat < s.nvert.toNat) : edgeSlope s' a b = edgeSlope s a b := by
  rw [edgeSlope, edgeSlope, vx_same h ha, vy_same h ha, vx_same h hb, vy_same h hb]

end

/-! ### The start of the walk (lines F3 to F11) -/

/-- During the search for the top and bottom vertex: both states have found the same vertices so far. -/
structure SameExtremes (s s' : State) : Prop where
  drawing : SameDrawing s s'
  polygon : SamePolygon s s'
  top : s'.work.top = s.work.top
  bot : s'.work.bot = s.work.bot
  top_lt : s.work.top.toNat < s.nvert.toNat
  bot_lt : s.work.bot.toNat < s.nvert.toNat

theorem scanVertex_same {s s' : State} (h : SameExtremes s s') {i : Nat} (hi : i < s.nvert.toNat) :
    SameExtremes (scanVertex s i) (scanVertex s' i) := by
  have hv : (BitVec.ofNat 32 i).toNat < s.nvert.toNat := lt_of_le_of_lt (Nat.mod_le _ _) hi
  have hyv := vy_same h.polygon hv
  have hytop := vy_same h.polygon h.top_lt
  have hybot := vy_same h.polygon h.bot_lt
  refine ⟨sameDrawing_setWork h.drawing _ _, samePolygon_onlyDrawing h.polygon rfl rfl, ?_, ?_, ?_, ?_⟩ <;>
    simp only [scanVertex, setWork_work, setWork_nvert]
  · rw [h.top, hyv, hytop]
  · rw [h.bot, hyv, hybot]
  · split
    · exact hv
    · exact h.top_lt
  · split
    · exact hv
    · exact h.bot_lt

theorem foldl_scanVertex_same (is : List Nat) : ∀ {s s' : State}, (∀ i ∈ is, i < s.nvert.toNat) → SameExtremes s s' →
    SameExtremes (is.foldl scanVertex s) (is.foldl scanVertex s') := by
  induction is with
  | nil => exact fun _ h => h
  | cons i rest ih =>
    intro s s' his h
    obtain ⟨hi, hrest⟩ := List.forall_mem_cons.1 his
    exact ih hrest (scanVertex_same h hi)

theorem findTopBottom_same {s s' : State} (hd : SameDrawing s s') (hp : SamePolygon s s') (hn : 3 ≤ s.nvert.toNat) :
    SameExtremes (findTopBottom s) (findTopBottom s') := by
  have h0 : (0#32 : Word).toNat < s.nvert.toNat := lt_of_lt_of_le (by decide) hn
  unfold findTopBottom
  rw [hp.nvert]
  refine foldl_scanVertex_same _ (fun i hi => ?_)
    ⟨sameDrawing_setWork hd _ _, samePolygon_onlyDrawing hp rfl rfl, rfl, rfl, h0, h0⟩
  rw [List.mem_range'_1] at hi
  rw [setWork_nvert]
  omega

theorem startChains_same {s s' : State} (h : SameExtremes s s') : SameWalk (startChains s) (startChains s') := by
  have hln := nextIndex_lt h.top_lt
  have hrn := prevIndex_lt h.top_lt
  have hx := vx_same h.polygon h.top_lt
  have hslopeL := edgeSlope_same h.polygon h.top_lt hln
  have hslopeR := edgeSlope_same h.polygon h.top_lt hrn
  have hy := congrArg ceilI32 (vy_same h.polygon h.top_lt)
  refine ⟨sameDrawing_setWork h.drawing _ _, samePolygon_onlyDrawing h.polygon rfl rfl, ?_, hln, hrn⟩
  unfold startChains
  rw [h.top, h.polygon.nvert]
  exact ⟨h.bot, rfl, rfl, rfl, rfl, hx, hx, hslopeL, hslopeR, hy⟩

/-! ### One iteration (lines F13 to F23) -/

section
variable {s s' : State} (h : SameWalk s s')
include h

theorem leftFirst_same : leftFirst s' = leftFirst s := by
  rw [leftFirst, leftFirst, h.cursors.ln, h.cursors.rn, vy_same h.polygon h.ln_lt, vy_same h.polygon h.rn_lt]

theorem walking_same : walking s' = walking s := by
  rw [walking, walking, h.cursors.l, h.cursors.r, h.cursors.bot]

theorem setBandEnd_same : SameWalk (setBandEnd s) (setBandEnd s') :=
  ⟨sameDrawing_setWork h.drawing _ _, samePolygon_onlyDrawing h.polygon rfl rfl,
    { h.cursors with }, h.ln_lt, h.rn_lt⟩

theorem rowsLeft_setBandEnd_same : rowsLeft (setBandEnd s') = rowsLeft (setBandEnd s) := by
  have hend : (setBandEnd s').work.yEnd = (setBandEnd s).work.yEnd := by
    simp only [setBandEnd, setWork_work]
    rw [leftFirst_same h, h.cursors.ln, h.cursors.rn, vy_same h.polygon h.ln_lt, vy_same h.polygon h.rn_lt]
  rw [rowsLeft, rowsLeft, hend, (setBandEnd_same h).cursors.y]

theorem drawRow_same : SameDrawing (drawRow s) (drawRow s') := by
  unfold drawRow
  rw [h.cursors.y, h.cursors.xl, h.cursors.xr, h.polygon.color]
  split
  · exact span_same h.drawing _ _ _ _
  · exact h.drawing

theorem row_same : SameWalk (nextRow (drawRow s)) (nextRow (drawRow s')) := by
  have hd := (drawRow_onlyDrawing s).trans (nextRow_onlyDrawing _)
  have hd' := (drawRow_onlyDrawing s').trans (nextRow_onlyDrawing _)
  refine ⟨sameDrawing_setWork (drawRow_same h) _ _, samePolygon_onlyDrawing h.polygon hd hd', ?_, ?_, ?_⟩
  · rw [row_work, row_work, h.cursors.xl, h.cursors.sl, h.cursors.xr, h.cursors.sr, h.cursors.y]
    exact { h.cursors with xl := rfl, xr := rfl, y := rfl }
  · rw [row_work, hd.nvert]
    exact h.ln_lt
  · rw [row_work, hd.nvert]
    exact h.rn_lt

theorem advanceLeft_same : SameWalk (advanceLeft s) (advanceLeft s') := by
  have hln := nextIndex_lt h.ln_lt
  have hx := vx_same h.polygon h.ln_lt
  have hslope := edgeSlope_same h.polygon h.ln_lt hln
  refine ⟨sameDrawing_setWork h.drawing _ _, samePolygon_onlyDrawing h.polygon rfl rfl, ?_, hln, h.rn_lt⟩
  unfold advanceLeft
  rw [h.cursors.ln, h.polygon.nvert]
  exact { h.cursors with l := rfl, ln := rfl, xl := hx, sl := hslope }

theorem advanceRight_same : SameWalk (advanceRight s) (advanceRight s') := by
  have hrn := prevIndex_lt h.rn_lt
  have hx := vx_same h.polygon h.rn_lt
  have hslope := edgeSlope_same h.polygon h.rn_lt hrn
  refine ⟨sameDrawing_setWork h.drawing _ _, samePolygon_onlyDrawing h.polygon rfl rfl, ?_, h.ln_lt, hrn⟩
  unfold advanceRight
  rw [h.cursors.rn, h.polygon.nvert]
  exact { h.cursors with r := rfl, rn := rfl, xr := hx, sr := hslope }

end

theorem fillRows_same (n : Nat) : ∀ {s s' : State}, SameWalk s s' → SameWalk (fillRows n s) (fillRows n s') := by
  induction n with
  | zero => exact id
  | succ n ih => exact fun h => ih (row_same h)

theorem walkOnce_same {s s' : State} (h : SameWalk s s') : SameWalk (walkOnce s) (walkOnce s') := by
  have hfilled : SameWalk (fillBand (setBandEnd s)) (fillBand (setBandEnd s')) := by
    rw [fillBand, fillBand, rowsLeft_setBandEnd_same h]
    exact fillRows_same _ (setBandEnd_same h)
  unfold walkOnce
  rw [leftFirst_same h]
  split
  · exact advanceLeft_same hfilled
  · exact advanceRight_same hfilled

/-! ### The whole command -/

theorem walk_same (n : Nat) : ∀ {s s' : State}, SameWalk s s' → SameWalk (walk n s) (walk n s') := by
  induction n with
  | zero => exact id
  | succ n ih =>
    intro s s' h
    rw [walk, walk, walking_same h]
    split
    · exact ih (walkOnce_same h)
    · exact h

theorem fillPolygon_same {s s' : State} (hd : SameDrawing s s') (hp : SamePolygon s s') (hn : 3 ≤ s.nvert.toNat) :
    SameDrawing (fillPolygon s) (fillPolygon s') := by
  unfold fillPolygon
  rw [hp.nvert]
  exact (walk_same _ (startChains_same (findTopBottom_same hd hp hn))).drawing

/-- Line F1 returns (rule R151). -/
theorem exec_fillPoly_ignored {s : State} (h : s.pvalid = false ∨ s.nvert.toNat < 3) :
    exec .fillPoly s = .next s.startCommand := if_pos h

/-- Line F1 goes on (rule R175). -/
theorem exec_fillPoly_drawn {s : State} (h : ¬ (s.pvalid = false ∨ s.nvert.toNat < 3)) :
    exec .fillPoly s = .next (fillPolygon s.startCommand).endCommand := if_neg h

/-- Settles O56: both states pass or fail the check of line F1 together, and then walk alike. -/
theorem fillDependsOnItsInputsOnly : Obligations.FillDependsOnItsInputsOnly := by
  intro s s' t t' hpvalid hnvert hcolor hbase hmem hvertex hexec hexec'
  have hstart : SameDrawing s.startCommand s'.startCommand := ⟨hmem, rfl, hbase⟩
  have hpolygon : SamePolygon s.startCommand s'.startCommand := ⟨hnvert, hcolor, hvertex⟩
  have hF1' : (s'.pvalid = false ∨ s'.nvert.toNat < 3) ↔ (s.pvalid = false ∨ s.nvert.toNat < 3) := by
    rw [hpvalid, hnvert]
  by_cases hF1 : s.pvalid = false ∨ s.nvert.toNat < 3
  · cases (exec_fillPoly_ignored hF1).symm.trans hexec
    cases (exec_fillPoly_ignored (hF1'.2 hF1)).symm.trans hexec'
    exact ⟨hmem, rfl⟩
  · cases (exec_fillPoly_drawn hF1).symm.trans hexec
    cases (exec_fillPoly_drawn (mt hF1'.1 hF1)).symm.trans hexec'
    have hdrawn := fillPolygon_same hstart hpolygon (Nat.not_lt.1 (not_or.1 hF1).2)
    exact ⟨hdrawn.mem, hdrawn.port⟩

end Sys2Proof.Proofs
end

section
/-! SUPPORT. Words and the pixels they hold (rules R62, R63, R65). -/

namespace Sys2Proof.Proofs

open Sys2Proof Sys2Proof.Machine

/-! ### Little-endian words -/

/-- Byte `i` of a written word lies at offset `i`. -/
theorem readByte_writeWord_add (m : Memory) (a v : Word) {i : Nat} (hi : i < 4) :
    readByte (writeWord m a v) (a + BitVec.ofNat 32 i) = byteOf v i := by
  have hoffset : (a + BitVec.ofNat 32 i - a).toNat = i := by bv_omega
  rw [readByte_writeWord, hoffset, if_pos hi]

theorem readByte_writeWord_of_ne (m : Memory) (v : Word) {a b : Word} (h0 : b ≠ a) (h1 : b ≠ a + 1) (h2 : b ≠ a + 2)
    (h3 : b ≠ a + 3) : readByte (writeWord m a v) b = readByte m b := by
  have hout : ¬ (b - a).toNat < 4 := by bv_omega
  rw [readByte_writeWord, if_neg hout]

/-- Settles O24: a read is the four bytes by definition; after a write, each byte by its offset. -/
theorem wordAccessIsLittleEndian : Obligations.WordAccessIsLittleEndian := by
  intro m a v
  refine ⟨rfl, ?byte0, readByte_writeWord_add m a v (i := 1) (by decide), readByte_writeWord_add m a v (i := 2) (by decide),
    readByte_writeWord_add m a v (i := 3) (by decide), fun b => readByte_writeWord_of_ne m v, readWord_writeWord_self m a v⟩
  case byte0 =>
    have h := readByte_writeWord_add m a v (i := 0) (by decide)
    rwa [BitVec.add_zero] at h

/-! ### Pixels of a word -/

/-- The byte of word `k` that holds its pixel `j` (rules R63, R64). -/
theorem wordAddress_add_eq_pixelAddress (s : State) (y k j : Nat) :
    wordAddress s y k + BitVec.ofNat 32 (j / 8) = pixelAddress s y (32 * k + j) := by
  have hoffset : Config.stride * y + 4 * k + j / 8 = Config.stride * y + (32 * k + j) / 8 := by omega
  rw [wordAddress, pixelAddress, BitVec.add_assoc, ← BitVec.ofNat_add, hoffset]

theorem readWord_pixel (s : State) (y k j : Nat) (hj : j < 32) :
    (readWord s.mem (wordAddress s y k)).getLsbD (8 * (j / 8) + 7 - j % 8) = pixel s y (32 * k + j) := by
  have hbyte : (8 * (j / 8) + 7 - j % 8) / 8 = j / 8 := by omega
  have hbit : (8 * (j / 8) + 7 - j % 8) % 8 = 7 - (32 * k + j) % 8 := by omega
  rw [readWord_getLsbD _ _ _ (by omega), hbyte, hbit, wordAddress_add_eq_pixelAddress s y k j, pixel]

/-- Settles O25: the bit of the memory word, and byte reversal takes bit `31 - j` there. -/
theorem pixelOfLogicalAndMemoryWord : Obligations.PixelOfLogicalAndMemoryWord := by
  intro s y k j _ _ hj
  have hreversed : 8 * (3 - (31 - j) / 8) + (31 - j) % 8 = 8 * (j / 8) + 7 - j % 8 := by omega
  refine ⟨?_, readWord_pixel s y k j hj⟩
  rw [bswap32_getLsbD _ _ (by omega), hreversed]
  exact readWord_pixel s y k j hj

end Sys2Proof.Proofs
end

section
/-! SUPPORT. A FILL_POLY is a list of `SPAN`s on rising rows (rules R161, R163, R175), and what such a list leaves alone
(rules R68, R77, R166). -/

namespace Sys2Proof.Proofs

open Sys2Proof Sys2Proof.Machine

/-- The spans `(y, x1, x2)` of a list, drawn in order in colour `c`. -/
def drawSpans (c : Word) (rows : List (Word × Word × Word)) (s : State) : State :=
  rows.foldl (fun u r => span r.1 r.2.1 r.2.2 c u) s

theorem sameDrawing_trans {s t u : State} (h : SameDrawing s t) (h' : SameDrawing t u) : SameDrawing s u :=
  ⟨h'.mem.trans h.mem, h'.port.trans h.port, h'.base.trans h.base⟩

theorem drawSpans_append (c : Word) (rows later : List (Word × Word × Word)) (s : State) :
    drawSpans c (rows ++ later) s = drawSpans c later (drawSpans c rows s) := List.foldl_append

theorem drawSpans_same (c : Word) (rows : List (Word × Word × Word)) : ∀ {s s' : State}, SameDrawing s s' →
    SameDrawing (drawSpans c rows s) (drawSpans c rows s') := by
  induction rows with
  | nil => exact id
  | cons r rest ih => exact fun h => ih (span_same h r.1 r.2.1 r.2.2 c)

theorem drawSpans_onlyDrawing (c : Word) (rows : List (Word × Word × Word)) : ∀ s : State,
    OnlyDrawing s (drawSpans c rows s) := by
  induction rows with
  | nil => exact OnlyDrawing.refl
  | cons r rest ih => exact fun s => (span_onlyDrawing r.1 r.2.1 r.2.2 c s).trans (ih _)

/-! ### The spans of a FILL_POLY -/

/-- The spans lie on rows of the framebuffer from `lo` up to but not including `hi`, each below the one before it. -/
structure RowsBetween (lo hi : Int) (rows : List (Word × Word × Word)) : Prop where
  rising : (rows.map fun r => r.1.toInt).Pairwise (· < ·)
  visible : ∀ r ∈ rows, 0 ≤ r.1.toInt ∧ r.1.toInt < 240
  within : ∀ r ∈ rows, lo ≤ r.1.toInt ∧ r.1.toInt < hi

theorem rowsBetween_nil (lo hi : Int) : RowsBetween lo hi [] := ⟨.nil, by simp, by simp⟩

theorem rowsBetween_append {lo mid hi : Int} {rows later : List (Word × Word × Word)} (hlo : lo ≤ mid) (hhi : mid ≤ hi)
    (h : RowsBetween lo mid rows) (h' : RowsBetween mid hi later) : RowsBetween lo hi (rows ++ later) where
  rising := by
    rw [List.map_append, List.pairwise_append]
    refine ⟨h.rising, h'.rising, ?_⟩
    simp only [List.forall_mem_map]
    exact fun r hr q hq => lt_of_lt_of_le (h.within r hr).2 (h'.within q hq).1
  visible := List.forall_mem_append.2 ⟨h.visible, h'.visible⟩
  within := List.forall_mem_append.2
    ⟨fun r hr => ⟨(h.within r hr).1, (h.within r hr).2.trans_le hhi⟩,
      fun r hr => ⟨hlo.trans (h'.within r hr).1, (h'.within r hr).2⟩⟩

/-- From `s` to `t` the rasterizer drew spans in `COLOR` on the rows that its row counter passed, and nothing else. -/
structure DrawsRows (s t : State) : Prop where
  frame : OnlyDrawing s t
  down : s.work.y.toInt ≤ t.work.y.toInt
  spans : ∃ rows, RowsBetween s.work.y.toInt t.work.y.toInt rows ∧ SameDrawing (drawSpans s.color rows s) t

/-- Lines that set working registers other than `Y` draw nothing. -/
theorem drawsRows_setWork (s : State) (w : Work) (hy : w.y = s.work.y) : DrawsRows s (s.setWork w) where
  frame := setWork_onlyDrawing s w
  down := by rw [setWork_work, hy]
  spans := ⟨[], rowsBetween_nil _ _, rfl, rfl, rfl⟩

theorem DrawsRows.refl (s : State) : DrawsRows s s := drawsRows_setWork s s.work rfl

theorem DrawsRows.trans {s t u : State} (h : DrawsRows s t) (h' : DrawsRows t u) : DrawsRows s u := by
  obtain ⟨rows, hrows, hdrawn⟩ := h.spans
  obtain ⟨later, hlater, hdrawn'⟩ := h'.spans
  refine ⟨h.frame.trans h'.frame, h.down.trans h'.down, rows ++ later, rowsBetween_append h.down h'.down hrows hlater, ?_⟩
  rw [h.frame.color] at hdrawn'
  rw [drawSpans_append]
  exact sameDrawing_trans (drawSpans_same s.color later hdrawn) hdrawn'

/-- Lines F16 to F19: at most the span of row `Y`, and then the next row. -/
theorem drawsRows_row {s : State} (h : s.work.y.toInt < s.work.yEnd.toInt) : DrawsRows s (nextRow (drawRow s)) := by
  have hy : (nextRow (drawRow s)).work.y.toInt = s.work.y.toInt + 1 := by
    rw [row_work]
    exact toInt_succ _ _ h
  refine ⟨(drawRow_onlyDrawing s).trans (nextRow_onlyDrawing _), by omega, ?_⟩
  rw [hy]
  by_cases hvisible : 0 ≤ s.work.y.toInt ∧ s.work.y.toInt < Config.height
  · refine ⟨[(s.work.y, f2i (fadd s.work.xl half), f2i (fadd s.work.xr half))], ⟨List.pairwise_singleton _ _, ?_, ?_⟩, ?_⟩
    · exact List.forall_mem_singleton.2 hvisible
    · exact List.forall_mem_singleton.2 ⟨le_refl _, Int.lt_succ _⟩
    · rw [drawRow, if_pos hvisible]
      exact ⟨rfl, rfl, rfl⟩
  · refine ⟨[], rowsBetween_nil _ _, ?_⟩
    rw [drawRow, if_neg hvisible]
    exact ⟨rfl, rfl, rfl⟩

/-- Line F15. -/
theorem drawsRows_band {s t : State} (h : BandRuns s t) : DrawsRows s t := by
  induction h with
  | done => exact .refl _
  | row hlt _ ih => exact (drawsRows_row hlt).trans ih

theorem drawsRows_walkOnce (s : State) : DrawsRows s (walkOnce s) := by
  have hband : DrawsRows s (fillBand (setBandEnd s)) :=
    .trans (t := setBandEnd s) (drawsRows_setWork s _ rfl) (drawsRows_band (bandRuns_fillBand _))
  unfold walkOnce
  split
  · exact hband.trans (drawsRows_setWork _ _ rfl)
  · exact hband.trans (drawsRows_setWork _ _ rfl)

theorem drawsRows_walk (n : Nat) : ∀ s : State, DrawsRows s (walk n s) := by
  induction n with
  | zero => exact .refl
  | succ n ih =>
    intro s
    unfold walk
    split
    · exact (drawsRows_walkOnce s).trans (ih _)
    · exact .refl s

/-- The row counter starts at the top vertex (line F11). -/
theorem startChains_y (s : State) :
    (startChains (findTopBottom s)).work.y = ceilI32 (vy s (findTopBottom s).work.top) :=
  congrArg ceilI32 ((findTopBottom_onlyDrawing s).vy _)

/-- Finding the top and bottom vertex and starting the chains draw nothing. -/
theorem startChains_sameDrawing (s : State) : SameDrawing s (startChains (findTopBottom s)) where
  mem := (startChains_mem s).1
  port := (startChains_mem s).2
  base := ((findTopBottom_onlyDrawing s).trans (startChains_onlyDrawing _)).fbBase

/-- FILL_POLY draws spans in `COLOR` on rising rows from the top vertex down, and does nothing else to memory and the port. -/
theorem fillPolygon_spans (s : State) :
    ∃ rows, RowsBetween (ceilI32 (vy s (findTopBottom s).work.top)).toInt (fillPolygon s).work.y.toInt rows ∧
      SameDrawing (drawSpans s.color rows s) (fillPolygon s) := by
  have hwalk : DrawsRows (startChains (findTopBottom s)) (fillPolygon s) := drawsRows_walk _ _
  obtain ⟨rows, hrows, hdrawn⟩ := hwalk.spans
  have hcolor : (startChains (findTopBottom s)).color = s.color :=
    ((findTopBottom_onlyDrawing s).trans (startChains_onlyDrawing _)).color
  rw [startChains_y] at hrows
  rw [hcolor] at hdrawn
  exact ⟨rows, hrows, sameDrawing_trans (drawSpans_same s.color rows (startChains_sameDrawing s)) hdrawn⟩

/-! ### What spans leave alone -/

/-- No span reaches the padding of a row (rule R68). -/
theorem drawSpans_padding (c : Word) (rows : List (Word × Word × Word)) (s : State) {y x : Nat} (hy : y < 240)
    (hx : 400 ≤ x) (hx' : x < 416) : pixel (drawSpans c rows s) y x = pixel s y x := by
  refine List.foldlRecOn (motive := fun u => pixel u y x = pixel s y x) rows _ rfl fun u hu r _ => ?_
  have hnot : ¬ (r.1.toInt = y ∧ r.2.1.toInt ≤ x ∧ (x : Int) < min 400 r.2.2.toInt) := by omega
  rw [span_pixel _ _ _ _ _ _ _ hy hx', if_neg hnot, hu]

/-- No span reaches a byte outside the framebuffer (rule R77). -/
theorem drawSpans_outside (c : Word) {a : Word} (rows : List (Word × Word × Word)) : ∀ s : State,
    inFramebuffer s a = false → readByte (drawSpans c rows s).mem a = readByte s.mem a := by
  induction rows with
  | nil => exact fun _ _ => rfl
  | cons r rest ih =>
    intro s ha
    have hspan := span_onlyDrawing r.1 r.2.1 r.2.2 c s
    calc readByte (drawSpans c rest (span r.1 r.2.1 r.2.2 c s)).mem a
        = readByte (span r.1 r.2.1 r.2.2 c s).mem a := ih _ ((hspan.inFramebuffer a).trans ha)
      _ = readByte s.mem a := span_outside _ _ _ _ _ _ ha

theorem pixel_same {s s' : State} (h : SameDrawing s s') (y x : Nat) : pixel s' y x = pixel s y x := by
  rw [pixel, pixel, pixelAddress, pixelAddress, h.mem, h.base]

/-- Settles O49: the command returns at once or draws spans, and no span reaches the padding or a byte outside. -/
theorem fillChangesVisiblePixelsOnly : Obligations.FillChangesVisiblePixelsOnly := by
  intro s
  rcases execFillPoly_cases s with ⟨-, ht⟩ | ⟨-, ht⟩
  · exact ⟨_, ht, rfl, fun _ _ _ _ _ => rfl, fun _ _ => rfl⟩
  · have hframe : OnlyDrawing s (fillPolygon s.startCommand).endCommand :=
      OnlyDrawing.trans (t := s.startCommand) rfl ((fillPolygon_onlyDrawing _).trans rfl)
    obtain ⟨rows, -, hdrawn⟩ := fillPolygon_spans s.startCommand
    refine ⟨_, ht, hframe, fun y x hy hx hx' => ?padding, fun a ha => ?outside⟩
    case padding => exact (pixel_same hdrawn y x).trans (drawSpans_padding _ rows s.startCommand hy hx hx')
    case outside =>
      rw [endCommand_mem, hdrawn.mem]
      exact drawSpans_outside _ rows s.startCommand ha

end Sys2Proof.Proofs
end

section
/-! SUPPORT. Where the recorded accesses lie and in which order they come (rules R61, R66, R70, R77). -/

namespace Sys2Proof.Proofs

open Sys2Proof Sys2Proof.Machine

/-! ### Words of the framebuffer -/

theorem wordAddress_sub_fbBase (s : State) {y k : Nat} (hy : y < 240) (hk : k < 13) :
    (wordAddress s y k - s.fbBase).toNat = 52 * y + 4 * k := by
  unfold wordAddress Config.stride
  bv_omega

theorem accessOffset_of_addr {s : State} {p : PortAccess} {y k : Nat} (hp : p.addr = wordAddress s y k) (hy : y < 240)
    (hk : k < 13) : accessOffset s p = 52 * y + 4 * k := by
  rw [accessOffset, hp, wordAddress_sub_fbBase s hy hk]

/-- A word address is 4-byte aligned, because `FB_BASE` is (rules R24, R66). -/
theorem wordAddress_aligned (s : State) (y k : Nat) : (wordAddress s y k).toNat % 4 = 0 := by
  have hbase : s.fbBase.toNat % 4 = 0 := by
    rw [State.fbBase, BitVec.toNat_append, Nat.shiftLeft_eq]
    simp
  unfold wordAddress Config.stride
  rw [BitVec.toNat_add, BitVec.toNat_ofNat]
  omega

/-- The access is to a word of the framebuffer of `s` that starts below offset `n`. -/
def AccessBelow (s : State) (n : Nat) (p : PortAccess) : Prop :=
  ∃ y k : Nat, y < 240 ∧ k < 13 ∧ 52 * y + 4 * k < n ∧ p.addr = wordAddress s y k

theorem AccessBelow.mono {s : State} {m n : Nat} {p : PortAccess} (h : AccessBelow s m p) (hmn : m ≤ n) :
    AccessBelow s n p := by
  obtain ⟨y, k, hy, hk, hlt, hp⟩ := h
  exact ⟨y, k, hy, hk, hlt.trans_le hmn, hp⟩

theorem AccessBelow.offset_lt {s : State} {n : Nat} {p : PortAccess} (h : AccessBelow s n p) : accessOffset s p < n := by
  obtain ⟨y, k, hy, hk, hlt, hp⟩ := h
  rwa [accessOffset_of_addr hp hy hk]

/-! ### Records that go upward -/

/-- A record of accesses, NEWEST FIRST, that goes upward through the words of the framebuffer of `s` and has stayed below offset
`n`: each word is written, alone or right after a read of it. -/
inductive UpwardBelow (s : State) : Nat → List PortAccess → Prop where
  | none (n : Nat) : UpwardBelow s n []
  | write {m n y k : Nat} {v : Word} {port : List PortAccess} (earlier : UpwardBelow s m port) (hy : y < 240) (hk : k < 13)
      (hm : m ≤ 52 * y + 4 * k) (hn : 52 * y + 4 * k < n) : UpwardBelow s n (.write (wordAddress s y k) v :: port)
  | readWrite {m n y k : Nat} {w v : Word} {port : List PortAccess} (earlier : UpwardBelow s m port) (hy : y < 240)
      (hk : k < 13) (hm : m ≤ 52 * y + 4 * k) (hn : 52 * y + 4 * k < n) :
      UpwardBelow s n (.write (wordAddress s y k) v :: .read (wordAddress s y k) w :: port)

section
variable {s : State} {n : Nat} {port : List PortAccess}

theorem UpwardBelow.mono {m : Nat} (h : UpwardBelow s m port) (hmn : m ≤ n) : UpwardBelow s n port := by
  cases h with
  | none => exact .none n
  | write earlier hy hk hm hn => exact .write earlier hy hk hm (hn.trans_le hmn)
  | readWrite earlier hy hk hm hn => exact .readWrite earlier hy hk hm (hn.trans_le hmn)

theorem UpwardBelow.accessBelow (h : UpwardBelow s n port) : ∀ p ∈ port, AccessBelow s n p := by
  induction h with
  | none => simp
  | write _ hy hk hm hn ih =>
    have hearlier := fun p hp => (ih p hp).mono (hm.trans hn.le)
    exact List.forall_mem_cons.2 ⟨⟨_, _, hy, hk, hn, rfl⟩, hearlier⟩
  | readWrite _ hy hk hm hn ih =>
    have hearlier := fun p hp => (ih p hp).mono (hm.trans hn.le)
    exact List.forall_mem_cons.2
      ⟨⟨_, _, hy, hk, hn, rfl⟩, List.forall_mem_cons.2 ⟨⟨_, _, hy, hk, hn, rfl⟩, hearlier⟩⟩

/-- An access at or above the bound of a record has no smaller offset than the record's. -/
theorem UpwardBelow.offset_le (h : UpwardBelow s n port) {y k : Nat} {p : PortAccess} (hy : y < 240) (hk : k < 13)
    (hn : n ≤ 52 * y + 4 * k) (hp : p.addr = wordAddress s y k) :
    ∀ older ∈ port, accessOffset s older ≤ accessOffset s p := by
  intro older holder
  rw [accessOffset_of_addr hp hy hk]
  exact (h.accessBelow older holder).offset_lt.le.trans hn

/-- The offsets never go down from an access to the next newer one. -/
theorem UpwardBelow.offsets (h : UpwardBelow s n port) :
    port.Pairwise fun newer older => accessOffset s older ≤ accessOffset s newer := by
  induction h with
  | none => exact .nil
  | write earlier hy hk hm _ ih => exact .cons (earlier.offset_le hy hk hm rfl) ih
  | readWrite earlier hy hk hm _ ih =>
    exact .cons (List.forall_mem_cons.2 ⟨le_refl _, earlier.offset_le hy hk hm rfl⟩)
      (.cons (earlier.offset_le hy hk hm rfl) ih)

/-- The next newer access after a read is the write of the same word. -/
theorem UpwardBelow.write_after_read (h : UpwardBelow s n port) {a v : Word} {older : List PortAccess} :
    ∀ newer : List PortAccess, port = newer ++ .read a v :: older →
      ∃ (w : Word) (later : List PortAccess), newer = later ++ [.write a w] := by
  induction h with
  | none => simp
  | write _ _ _ _ _ ih =>
    intro newer hport
    cases newer with
    | nil => cases hport
    | cons p newer =>
      obtain ⟨w, later, rfl⟩ := ih newer (List.cons.inj hport).2
      exact ⟨w, p :: later, rfl⟩
  | readWrite _ _ _ _ _ ih =>
    intro newer hport
    match newer with
    | [] => cases hport
    | [p] =>
      cases hport
      exact ⟨_, [], rfl⟩
    | p :: q :: newer =>
      obtain ⟨w, later, rfl⟩ := ih newer (List.cons.inj (List.cons.inj hport).2).2
      exact ⟨w, p :: q :: later, rfl⟩

end

/-! ### Spans go upward -/

section
variable {s u : State} (hbase : u.fbBase = s.fbBase)
include hbase

theorem upwardBelow_spanWord {y k : Nat} (c : Word) (hy : y < 240) (hk : k < 13)
    (h : UpwardBelow s (52 * y + 4 * k) u.port) : UpwardBelow s (52 * y + 4 * (k + 1)) (spanWord y c u k).port := by
  have haddress : wordAddress u y k = wordAddress s y k := by rw [wordAddress, wordAddress, hbase]
  have hnext : 52 * y + 4 * k < 52 * y + 4 * (k + 1) := by omega
  rw [spanWord_eq, haddress]
  dsimp only
  split
  · exact .write h hy hk le_rfl hnext
  · exact .readWrite h hy hk le_rfl hnext

theorem upwardBelow_words {y : Nat} (c : Word) (hy : y < 240) (count : Nat) {k : Nat} (hk : k + count ≤ 13)
    (h : UpwardBelow s (52 * y + 4 * k) u.port) :
    UpwardBelow s (52 * y + 4 * (k + count)) ((List.range' k count).foldl (spanWord y c) u).port := by
  induction count generalizing u k with
  | zero => exact h
  | succ count ih =>
    have hword := upwardBelow_spanWord hbase c hy (by omega) h
    have hbase' := (spanWord_onlyDrawing y c u k).fbBase.trans hbase
    rw [List.range'_succ, List.foldl_cons, Nat.add_comm count, ← Nat.add_assoc]
    exact ih hbase' (by omega) hword

/-- A `SPAN` in row `y` stays below the next row. -/
theorem upwardBelow_span (y x1 x2 c : Word) (h : UpwardBelow s (52 * y.toNat) u.port) :
    UpwardBelow s (52 * (y.toNat + 1)) (span y x1 x2 c u).port := by
  have hnone : UpwardBelow s (52 * (y.toNat + 1)) u.port := h.mono (by omega)
  rcases span_cases y x1 x2 c u with ⟨-, heq | heq⟩ | ⟨hy, hy', hx2, hx1, hclip, heq⟩ <;> rw [heq]
  · exact hnone
  · exact hnone
  · obtain ⟨hlow, hhigh, -, -⟩ := clip_toNat x1 x2 hx2 hx1
    have hrow : y.toNat < 240 := by
      rw [toInt_eq_toNat_of_nonneg y hy] at hy'
      omega
    have hclipped : (u.setClip (clipLow x1) (clipHigh x2)).fbBase = s.fbBase := hbase
    unfold spanWords
    refine (upwardBelow_words hclipped c hrow _ ?_ (h.mono ?_)).mono ?_ <;> omega

end

theorem rowsBetween_tail {lo hi : Int} {r : Word × Word × Word} {rest : List (Word × Word × Word)}
    (h : RowsBetween lo hi (r :: rest)) : RowsBetween (r.1.toInt + 1) hi rest := by
  obtain ⟨hfirst, hrising⟩ := List.pairwise_cons.1 h.rising
  rw [List.forall_mem_map] at hfirst
  exact ⟨hrising, fun q hq => h.visible q (List.mem_cons_of_mem _ hq),
    fun q hq => ⟨hfirst q hq, (h.within q (List.mem_cons_of_mem _ hq)).2⟩⟩

/-- Spans on rising rows go upward (rule R70). -/
theorem upwardBelow_drawSpans {s : State} (c : Word) {hi : Int} (rows : List (Word × Word × Word)) : ∀ {lo : Int} {u : State},
    u.fbBase = s.fbBase → RowsBetween lo hi rows → UpwardBelow s (52 * lo.toNat) u.port →
    ∃ n, UpwardBelow s n (drawSpans c rows u).port := by
  induction rows with
  | nil => exact fun _ _ h => ⟨_, h⟩
  | cons r rest ih =>
    intro lo u hbase hrows h
    have hlo := (hrows.within r List.mem_cons_self).1
    have hrow := toInt_eq_toNat_of_nonneg r.1 (hrows.visible r List.mem_cons_self).1
    have hspan := upwardBelow_span hbase r.1 r.2.1 r.2.2 c (h.mono (by omega))
    exact ih ((span_onlyDrawing _ _ _ _ _).fbBase.trans hbase) (rowsBetween_tail hrows) (hspan.mono (by omega))

/-! ### Commands -/

/-- The commands on the slot make no access (rule R61). -/
theorem exec_slot_port {i : Instr} {s t : State} (hi : i = .polyCreate ∨ i = .vtxWrite ∨ i = .polyDestroy)
    (hexec : exec i s = .next t) : t.port = [] := by
  rcases hi with rfl | rfl | rfl
  · rcases execPolyCreate_cases s with ⟨-, ht⟩ | ⟨-, ht⟩ <;> cases ht.symm.trans hexec <;> rfl
  · rcases execVtxWrite_cases s with ⟨-, ht⟩ | ⟨-, ht⟩ <;> cases ht.symm.trans hexec <;> rfl
  · cases (exec_polyDestroy s).symm.trans hexec
    rfl

theorem exec_upwardBelow {i : Instr} {s t : State} (hexec : exec i s = .next t) : ∃ n, UpwardBelow s n t.port := by
  cases i with
  | polyCreate => exact ⟨0, exec_slot_port (.inl rfl) hexec ▸ .none 0⟩
  | vtxWrite => exact ⟨0, exec_slot_port (.inr (.inl rfl)) hexec ▸ .none 0⟩
  | polyDestroy => exact ⟨0, exec_slot_port (.inr (.inr rfl)) hexec ▸ .none 0⟩
  | drawSpan =>
    cases (exec_drawSpan s).symm.trans hexec
    exact ⟨_, upwardBelow_span (s := s) (u := s.startCommand) rfl s.arg0 s.arg1 s.arg2 s.color (.none _)⟩
  | fillPoly =>
    rcases execFillPoly_cases s with ⟨-, ht⟩ | ⟨-, ht⟩ <;> cases ht.symm.trans hexec
    · exact ⟨0, .none 0⟩
    · obtain ⟨rows, hrows, hdrawn⟩ := fillPolygon_spans s.startCommand
      rw [endCommand_port, hdrawn.port]
      exact upwardBelow_drawSpans _ rows rfl hrows (.none _)

/-- Settles O33: every access of an upward record is to a word of the framebuffer, and `FB_BASE` is aligned. -/
theorem accessesStayInTheFramebuffer : Obligations.AccessesStayInTheFramebuffer := by
  intro i s t hexec
  refine ⟨fun hi => exec_slot_port hi hexec, fun p hp => ?_⟩
  obtain ⟨n, hport⟩ := exec_upwardBelow hexec
  obtain ⟨y, k, hy, hk, -, haddress⟩ := hport.accessBelow p hp
  refine ⟨haddress ▸ wordAddress_aligned s y k, ?_, y, k, Nat.le_of_lt_succ hy, Nat.le_of_lt_succ hk, haddress⟩
  rw [accessOffset_of_addr haddress hy hk]
  omega

/-- Settles O35: the record of every command goes upward; turned around it is oldest first. -/
theorem accessesGoUpward : Obligations.AccessesGoUpward := by
  intro i s t hexec
  obtain ⟨n, hport⟩ := exec_upwardBelow hexec
  refine ⟨?order, fun before after a v hsplit => ?pairing⟩
  case order =>
    rw [List.pairwise_map, List.pairwise_reverse]
    exact hport.offsets
  case pairing =>
    have hnewest : t.port = after.reverse ++ .read a v :: before.reverse := by
      rw [← List.reverse_reverse t.port, hsplit]
      simp
    obtain ⟨w, later, hafter⟩ := hport.write_after_read after.reverse hnewest
    refine ⟨w, later.reverse, ?_⟩
    rw [← List.reverse_reverse after, hafter, List.reverse_append]
    rfl

end Sys2Proof.Proofs
end

section
/-! SUPPORT. Command words (rules R90, R94, R95): a word is its two fields, so the decoder is the inverse of the encoder; and what
that makes of reserved words and of the pseudo-instructions (rules R97, R98). -/

namespace Sys2Proof.Proofs

open Sys2Proof Sys2Proof.Machine Sys2Proof.Laws

/-! ### Decoder and encoder -/

/-- A command word is its field `zero` above its field `opcode` (rule R90). -/
theorem zeroField_append_opcodeField (w : Word) : zeroField w ++ opcodeField w = w := by
  have hjoin : zeroField w ++ opcodeField w = w.extractLsb' 0 32 := BitVec.extractLsb'_append_extractLsb'_eq_extractLsb' rfl
  rw [hjoin, BitVec.extractLsb'_eq_self]

theorem opcodeOf_of_instrOf {op : BitVec 8} {i : Instr} (h : instrOf op = some i) : opcodeOf i = op :=
  eq_of_beq (List.find?_some (p := fun i => opcodeOf i == op) h)

/-- Whatever the decoder accepts has `zero` 0 and the command's opcode. -/
theorem fields_of_decode {w : Word} {i : Instr} (h : decode w = .ok i) : zeroField w = 0#24 ∧ opcodeField w = opcodeOf i := by
  unfold decode at h
  split at h
  case isTrue hzero =>
    split at h <;> cases h
    exact ⟨hzero, (opcodeOf_of_instrOf ‹_›).symm⟩
  case isFalse => cases h

theorem eq_encode_of_decode {w : Word} {i : Instr} (h : decode w = .ok i) : w = encode i := by
  obtain ⟨hzero, hopcode⟩ := fields_of_decode h
  calc
    w = zeroField w ++ opcodeField w := (zeroField_append_opcodeField w).symm
    _ = encode i := by rw [hzero, hopcode, encode]

theorem roundTrip (i : Instr) : RoundTrip.Statement i := by
  cases i
  case polyCreate => exact RoundTrip.polyCreate
  case vtxWrite => exact RoundTrip.vtxWrite
  case polyDestroy => exact RoundTrip.polyDestroy
  case drawSpan => exact RoundTrip.drawSpan
  case fillPoly => exact RoundTrip.fillPoly

@[simp] theorem decode_encode (i : Instr) : decode (encode i) = .ok i := (roundTrip i).2

theorem decode_eq_ok_iff (w : Word) (i : Instr) : decode w = .ok i ↔ w = encode i :=
  ⟨eq_encode_of_decode, fun h => h ▸ decode_encode i⟩

/-- Settles O1: the words by computation, and the decoder as the inverse of the encoder. -/
theorem decodeAcceptsExactlyFiveWords : Obligations.DecodeAcceptsExactlyFiveWords :=
  ⟨⟨rfl, rfl, rfl, rfl, rfl⟩, decode_eq_ok_iff⟩

/-! ### Table words -/

theorem tableWord_toNat (w : Word) : tableWord 32 w.toNat = w := by
  rw [tableWord, Nat.mod_eq_of_lt w.isLt, BitVec.ofNat_toNat, BitVec.setWidth_eq]

theorem decodeTableWord_of_ok {nbits w : Nat} {i : Instr} (h : decode (tableWord nbits w) = .ok i) :
    decodeTableWord nbits w = some i := by
  rw [decodeTableWord, h]

theorem decodeTableWord_of_error {nbits w : Nat} (e : Reserved) (h : decode (tableWord nbits w) = .error e) :
    decodeTableWord nbits w = none := by
  rw [decodeTableWord, h]

/-- Settles O2: each word is an encoding, or is reserved for the reason given. -/
theorem commandWordsDecode : Obligations.CommandWordsDecode :=
  ⟨decode_encode .polyCreate, decode_encode .vtxWrite, decode_encode .polyDestroy, decode_encode .drawSpan,
    decode_encode .fillPoly, decodeTableWord_of_ok (decode_encode .drawSpan),
    decodeTableWord_of_error (.opcode 0x00#8) (by decide), decodeTableWord_of_error (.opcode 0x04#8) (by decide),
    decodeTableWord_of_error (.opcode 0x12#8) (by decide), decodeTableWord_of_error (.nonzeroField 0x000001#24) (by decide),
    decodeTableWord_of_error (.nonzeroField 0x800000#24) (by decide)⟩

/-- Settles O3: at 32 bits the table word of an encoding is the encoding. -/
theorem decodeOfEncodeIsIdentity : Obligations.DecodeOfEncodeIsIdentity :=
  fun i _ => ⟨decode_encode i, decodeTableWord_of_ok (by rw [tableWord_toNat, decode_encode])⟩

/-! ### Reserved words -/

theorem decode_reserved {w : Word} (h : ∀ i, w ≠ encode i) : ∃ e, decode w = .error e := by
  cases hdecode : decode w with
  | ok i => exact absurd (eq_encode_of_decode hdecode) (h i)
  | error e => exact ⟨e, rfl⟩

theorem issue_of_reserved {w : Word} {e : Reserved} (h : decode w = .error e) (s : State) :
    issue w s = .next s.startCommand := by
  rw [issue, h]

/-- Settles O4: the store reaches `CMD`, and a word the decoder rejects only clears the record. -/
theorem reservedCommandWordIsIgnored : Obligations.ReservedCommandWordIsIgnored := by
  intro s w rest hreserved hbus
  obtain ⟨e, hdecode⟩ := decode_reserved hreserved
  rw [step_store (reached_of_mem (r := .cmd) (by decide)) hbus]
  exact issue_of_reserved hdecode _

/-! ### Pseudo-instructions -/

/-- A `WR` line reaches the register it names (rules R21, R97). -/
theorem reached_regOffset (r : Reg) : reached 4 (regOffset r) = .ok r :=
  reached_of_mem (by cases r <;> decide)

section
variable {s t : State} {rest : List HostAccess}

/-- A run does a `WR` line that starts no command and goes on from the state it leaves. -/
theorem runSteps_wr {r : Reg} {v : Word} (n : Nat) (hbus : s.bus = wr r v :: rest)
    (hwrite : writeReg { s with bus := rest } v r = .next t) : runSteps (n + 1) s = runSteps n t := by
  rw [runSteps, (step_store (reached_regOffset r) hbus).trans hwrite]

/-- A run of one step that is a command's line is that command. -/
theorem runSteps_issueLine {i : Instr} (hbus : s.bus = issueLine i :: rest) : runSteps 1 s = exec i { s with bus := rest } := by
  have hstep : step s = exec i { s with bus := rest } :=
    (step_store (reached_regOffset .cmd) hbus).trans (issue_of_decode (decode_encode i) _)
  obtain ⟨t, ht⟩ := exec_total i { s with bus := rest }
  rw [runSteps, hstep, ht]
  rfl

end

/-- Settles O13: each expansion is a row of `WR` lines to operand registers and then one command's line. -/
theorem pseudoInstructionsRunTheirCommand : Obligations.PseudoInstructionsRunTheirCommand := by
  intro s rest a b c d
  refine ⟨fun hbus => ?drawSpan, fun hbus => ?create, fun hbus => ?setVertex, fun hbus => ?destroy, fun hbus => ?fillPolygon⟩
  case drawSpan =>
    calc
      runSteps 5 s = runSteps 4 _ := runSteps_wr 4 hbus rfl
      _ = runSteps 3 _ := runSteps_wr 3 rfl rfl
      _ = runSteps 2 _ := runSteps_wr 2 rfl rfl
      _ = runSteps 1 _ := runSteps_wr 1 rfl rfl
      _ = _ := runSteps_issueLine rfl
  case create => exact (runSteps_wr 1 hbus rfl).trans (runSteps_issueLine rfl)
  case setVertex =>
    calc
      runSteps 4 s = runSteps 3 _ := runSteps_wr 3 hbus rfl
      _ = runSteps 2 _ := runSteps_wr 2 rfl rfl
      _ = runSteps 1 _ := runSteps_wr 1 rfl rfl
      _ = _ := runSteps_issueLine rfl
  case destroy => exact runSteps_issueLine hbus
  case fillPolygon => exact (runSteps_wr 1 hbus rfl).trans (runSteps_issueLine rfl)

end Sys2Proof.Proofs
end

section
/-! SUPPORT. The mask of a span (rules R124, R125): its pixels, and when it covers the whole word. -/

namespace Sys2Proof.Proofs

open Sys2Proof Sys2Proof.Machine

/-! ### Pixels of a logical word -/

theorem logicalMask_pixel {lo hi j : Nat} (hhi : hi ≤ 32) (hj : j < 32) :
    (logicalMask lo hi).getLsbD (31 - j) = decide (lo ≤ j ∧ j < hi) := by
  rw [logicalMask_getLsbD _ _ _ hhi (by omega)]
  exact decide_eq_decide.2 (by omega)

/-- Byte reversal brings pixel `j` from its bit of the logical word to its bit of the memory word (rule R65). -/
theorem bswap32_pixel (v : Word) {j : Nat} (hj : j < 32) :
    (bswap32 v).getLsbD (8 * (j / 8) + 7 - j % 8) = v.getLsbD (31 - j) := by
  rw [bswap32_getLsbD _ _ (by omega)]
  congr 1
  omega

/-! ### Full masks -/

theorem bswap32_bswap32 (v : Word) : bswap32 (bswap32 v) = v := by
  refine BitVec.eq_of_getLsbD_eq fun i hi => ?_
  rw [bswap32_getLsbD _ _ hi, bswap32_getLsbD _ _ (by omega)]
  congr 1
  omega

theorem bswap32_eq_full_iff (v : Word) : bswap32 v = 0xFFFFFFFF#32 ↔ v = 0xFFFFFFFF#32 := by
  have hfull : bswap32 0xFFFFFFFF#32 = 0xFFFFFFFF#32 := by decide
  constructor <;> intro h
  · rw [← bswap32_bswap32 v, h, hfull]
  · rw [h, hfull]

/-- The outermost bits decide: bit 31 is set from `lo = 0` on, bit 0 up to `hi = 32`. -/
theorem logicalMask_eq_full_iff {lo hi : Nat} (hhi : hi ≤ 32) : logicalMask lo hi = 0xFFFFFFFF#32 ↔ lo = 0 ∧ hi = 32 := by
  constructor
  · intro h
    have hfirst := logicalMask_pixel (lo := lo) hhi (j := 0) (by decide)
    have hlast := logicalMask_pixel (lo := lo) hhi (j := 31) (by decide)
    rw [h] at hfirst hlast
    obtain ⟨hlo, -⟩ := of_decide_eq_true hfirst.symm
    obtain ⟨-, hhi'⟩ := of_decide_eq_true hlast.symm
    omega
  · rintro ⟨rfl, rfl⟩
    decide

/-- Settles O26: the two shifts by definition, the rest pixel by pixel and by the two outermost bits. -/
theorem spanMaskCoversItsPixels : Obligations.SpanMaskCoversItsPixels := by
  intro lo hi _ hhi
  refine ⟨rfl, fun j hj => logicalMask_pixel hhi hj, fun j hj => ?_, ?_, bswap32_eq_full_iff _⟩
  · rw [bswap32_pixel _ hj, logicalMask_pixel hhi hj]
  · rw [bswap32_eq_full_iff, logicalMask_eq_full_iff hhi]

/-- The mask of word `k` is full exactly when the span covers the word's pixels `32*k .. 32*k + 31`. -/
theorem memoryMask_eq_full_iff (x1c x2c k : Nat) :
    memoryMask x1c x2c k = 0xFFFFFFFF#32 ↔ x1c ≤ 32 * k ∧ 32 * k + 32 ≤ x2c := by
  rw [memoryMask, bswap32_eq_full_iff, logicalMask_eq_full_iff (by omega)]
  omega

end Sys2Proof.Proofs
end

section
/-! SUPPORT. What `SPAN` and DRAW_SPAN do to pixels (rules R120, R127, R131), and that doing it twice is doing it once (rule R129):
pixels and the bytes outside the framebuffer determine memory. -/

namespace Sys2Proof.Proofs

open Sys2Proof Sys2Proof.Machine

/-! ### `SPAN` -/

/-- A pixel index is not negative, so the lower clamp of the span changes nothing for it. -/
theorem span_pixel_clipped (y x1 x2 c : Word) (s : State) (y' x : Nat) (hy' : y' < 240) (hx : x < 416) :
    pixel (span y x1 x2 c s) y' x =
      if y.toInt = y' ∧ max 0 x1.toInt ≤ x ∧ (x : Int) < min 400 x2.toInt then colourBit c x else pixel s y' x := by
  have hclamp : max 0 x1.toInt ≤ x ↔ x1.toInt ≤ x := by omega
  simp only [hclamp]
  exact span_pixel y x1 x2 c s y' x hy' hx

theorem colourBit_full (x : Nat) : colourBit 0xFFFFFFFF#32 x = true := by
  have hbit : 8 * (x % 32 / 8) + 7 - x % 8 < 32 := by omega
  show (BitVec.allOnes 32).getLsbD _ = true
  rw [BitVec.getLsbD_allOnes, decide_eq_true hbit]

theorem colourBit_zero (x : Nat) : colourBit 0#32 x = false := BitVec.getLsbD_zero

/-- Settles O28: the frame, the pixels and the bytes outside are laws of `span`; the two colours have the same bit everywhere. -/
theorem spanEffectInPixels : Obligations.SpanEffectInPixels := by
  intro y x1 x2 c s
  refine ⟨span_onlyDrawing y x1 x2 c s, span_pixel_clipped y x1 x2 c s, span_outside y x1 x2 c s, ?colours⟩
  case colours =>
    intro y' x hy' hrow hlow hhigh
    have hpixel : pixel (span y x1 x2 c s) y' x = colourBit c x := by
      rw [span_pixel_clipped _ _ _ _ _ _ _ hy' (by omega), if_pos ⟨hrow, hlow, hhigh⟩]
    rw [hpixel]
    exact ⟨fun hc => hc ▸ colourBit_full x, fun hc => hc ▸ colourBit_zero x⟩

/-! ### DRAW_SPAN -/

/-- Settles O27: DRAW_SPAN is one `SPAN` of the operand registers between the start and the end of a command. -/
theorem drawSpanPixelByPixel : Obligations.DrawSpanPixelByPixel := by
  intro s
  obtain ⟨hframe, hpixels, houtside, -⟩ := spanEffectInPixels s.arg0 s.arg1 s.arg2 s.color s.startCommand
  have hstart : OnlyDrawing s s.startCommand := rfl
  exact ⟨_, exec_drawSpan s, hstart.trans (hframe.trans rfl), hpixels, houtside⟩

/-- Settles O29: a `SPAN` that draws has a row that exists and a span that is not empty; any other returns as it began, but for
the clipped bounds. -/
theorem emptySpanMakesNoAccess : Obligations.EmptySpanMakesNoAccess := by
  intro s hempty
  refine ⟨_, exec_drawSpan s, ?_⟩
  rcases span_cases s.arg0 s.arg1 s.arg2 s.color s.startCommand with ⟨-, heq | heq⟩ | ⟨hy, hy', hx2, hx1, hclip, -⟩
  · rw [heq]
    exact ⟨rfl, rfl, rfl⟩
  · rw [heq]
    exact ⟨rfl, rfl, rfl⟩
  · omega

/-! ### Memory from its pixels -/

/-- Bit `i` of byte `b` of a row is pixel `8*b + 7 - i` (rule R63). -/
theorem readByte_pixel (s : State) (y b : Nat) {i : Nat} (hi : i < 8) :
    (readByte s.mem (s.fbBase + BitVec.ofNat 32 (52 * y + b))).getLsbD i = pixel s y (8 * b + (7 - i)) := by
  have hbyte : (8 * b + (7 - i)) / 8 = b := by omega
  have hbit : 7 - (8 * b + (7 - i)) % 8 = i := by omega
  rw [pixel, pixelAddress, hbyte, hbit, Config.stride]

/-- A byte of the framebuffer is byte `b` of row `y` for some `y` and `b` (rules R64, R77). -/
theorem exists_row_byte {s : State} {a : Word} (h : inFramebuffer s a = true) :
    ∃ y b : Nat, y < 240 ∧ b < 52 ∧ a = s.fbBase + BitVec.ofNat 32 (52 * y + b) := by
  have hoffset : (a - s.fbBase).toNat < 12480 := of_decide_eq_true h
  refine ⟨(a - s.fbBase).toNat / 52, (a - s.fbBase).toNat % 52, by omega, by omega, ?_⟩
  rw [Nat.div_add_mod, BitVec.ofNat_toNat, BitVec.setWidth_eq, BitVec.add_comm, BitVec.sub_add_cancel]

/-- Canonical memories with the same pixels, padding included, and the same bytes outside the framebuffer are equal. -/
theorem mem_eq_of_pixels {s t : State} (hbase : t.fbBase = s.fbBase) (hs : Memory.wf s.mem = true)
    (ht : Memory.wf t.mem = true) (hpixels : ∀ y x, y < 240 → x < 416 → pixel t y x = pixel s y x)
    (houtside : ∀ a, inFramebuffer s a = false → readByte t.mem a = readByte s.mem a) : t.mem = s.mem := by
  refine memory_ext _ _ ht hs fun a => ?_
  cases ha : inFramebuffer s a with
  | false => exact houtside a ha
  | true =>
    obtain ⟨y, b, hy, hb, rfl⟩ := exists_row_byte ha
    refine BitVec.eq_of_getLsbD_eq fun i hi => ?_
    rw [readByte_pixel s y b hi, ← hbase, readByte_pixel t y b hi]
    exact hpixels y _ hy (by omega)

/-- Settles O32: the second span gives the pixels of the span the bits they have, and leaves the others. -/
theorem drawSpanIsIdempotent : Obligations.DrawSpanIsIdempotent := by
  intro s t u hwf hst htu
  obtain ⟨t', ht', hframe, hpixels, -⟩ := drawSpanPixelByPixel s
  obtain ⟨u', hu', hframe', hpixels', houtside'⟩ := drawSpanPixelByPixel t
  cases ht'.symm.trans hst
  cases hu'.symm.trans htu
  have hwf_t := exec_wf hwf hst
  refine mem_eq_of_pixels hframe'.fbBase hwf_t (exec_wf hwf_t htu) (fun y x hy hx => ?_) houtside'
  have harg0 : t.arg0 = s.arg0 := by rw [hframe]
  have harg1 : t.arg1 = s.arg1 := by rw [hframe]
  have harg2 : t.arg2 = s.arg2 := by rw [hframe]
  rw [hpixels' y x hy hx, hpixels y x hy hx, harg0, harg1, harg2, hframe.color]
  split <;> rfl

end Sys2Proof.Proofs
end

section
/-! SUPPORT. The record of a DRAW_SPAN that draws: which accesses, in which order (rules R121, R123, R126), and how many
(rule R133). -/

namespace Sys2Proof.Proofs

open Sys2Proof Sys2Proof.Machine

/-! ### The accesses of a list of words -/

/-- The accesses of one masked write, oldest first, when memory holds `m` (rule R126). -/
def maskedAccesses (m : Memory) (a mask c : Word) : List PortAccess :=
  if mask = 0xFFFFFFFF#32 then [.write a c] else [.read a (readWord m a), .write a (blend mask c (readWord m a))]

theorem spanWord_port_reverse (y : Nat) (c : Word) (s : State) (k : Nat) :
    (spanWord y c s k).port.reverse =
      s.port.reverse ++
        maskedAccesses s.mem (wordAddress s y k) (memoryMask s.work.x1c.toNat s.work.x2c.toNat k) c := by
  rw [spanWord_eq, maskedAccesses]
  dsimp only
  split
  case isTrue hfull => rw [hfull, blend_full, List.reverse_cons]
  case isFalse => rw [List.reverse_cons, List.reverse_cons, List.append_assoc, List.singleton_append]

/-- Two words of one row do not overlap. -/
theorem wordAddress_sub_ge (s : State) (y : Nat) {j k : Nat} (hj : j < 13) (hk : k < 13) (hjk : j ≠ k) :
    4 ≤ (wordAddress s y j - wordAddress s y k).toNat := by
  unfold wordAddress Config.stride
  bv_omega

theorem readWord_spanWord_of_ne (y : Nat) (c : Word) (s : State) {j k : Nat} (hj : j < 13) (hk : k < 13) (hjk : j ≠ k) :
    readWord (spanWord y c s k).mem (wordAddress s y j) = readWord s.mem (wordAddress s y j) := by
  rw [spanWord_mem]
  exact readWord_writeWord_ne _ _ _ _ (wordAddress_sub_ge s y hj hk hjk) (wordAddress_sub_ge s y hk hj hjk.symm)

/-- Every word of a span is read as it was before the span, because no word is written twice. -/
theorem foldl_spanWord_port_reverse (y : Nat) (c : Word) (ks : List Nat) : ∀ s : State,
    ks.Nodup → (∀ k ∈ ks, k < 13) →
    (ks.foldl (spanWord y c) s).port.reverse =
      s.port.reverse ++ ks.flatMap fun k =>
        maskedAccesses s.mem (wordAddress s y k) (memoryMask s.work.x1c.toNat s.work.x2c.toNat k) c := by
  induction ks with
  | nil => exact fun s _ _ => (List.append_nil _).symm
  | cons k rest ih =>
    intro s hdistinct hks
    obtain ⟨hnew, hdistinct'⟩ := List.nodup_cons.1 hdistinct
    obtain ⟨hk, hrest⟩ := List.forall_mem_cons.1 hks
    have hunread : ∀ j ∈ rest,
        maskedAccesses (spanWord y c s k).mem (wordAddress (spanWord y c s k) y j)
          (memoryMask (spanWord y c s k).work.x1c.toNat (spanWord y c s k).work.x2c.toNat j) c =
        maskedAccesses s.mem (wordAddress s y j) (memoryMask s.work.x1c.toNat s.work.x2c.toNat j) c := by
      intro j hj
      have hjk : j ≠ k := fun h => hnew (h ▸ hj)
      rw [maskedAccesses, maskedAccesses, spanWord_x1c, spanWord_x2c, (spanWord_onlyDrawing y c s k).wordAddress,
        readWord_spanWord_of_ne y c s (hrest j hj) hk hjk]
    rw [List.foldl_cons, ih _ hdistinct' hrest, spanWord_port_reverse, List.flatMap_congr hunread, List.flatMap_cons,
      List.append_assoc]

theorem spanWords_nodup (x1c x2c : Nat) : (spanWords x1c x2c).Nodup := List.nodup_range'

/-- Settles O30: the operands meet the premises of a `SPAN` that draws, whose words are distinct. -/
theorem drawSpanAccessesInOrder : Obligations.DrawSpanAccessesInOrder := by
  intro s hrow hrow' hx2 hx1 hclip x1c x2c
  refine ⟨_, exec_drawSpan s, ?_⟩
  obtain ⟨hlow, hhigh, -, -⟩ := clip_toNat s.arg1 s.arg2 hx2 hx1
  have hlow' : (clipLow s.arg1).toNat = x1c := by omega
  have hhigh' : (clipHigh s.arg2).toNat = x2c := by omega
  rcases span_cases s.arg0 s.arg1 s.arg2 s.color s.startCommand with ⟨hempty, -⟩ | ⟨-, -, -, -, -, hdrawn⟩
  · omega
  · rw [endCommand_port, hdrawn,
      foldl_spanWord_port_reverse _ _ _ _ (spanWords_nodup _ _) (spanWords_lt s.arg1 s.arg2 hx2 hx1 hclip)]
    simp only [setClip_work, hlow', hhigh']
    rfl

/-! ### How many accesses -/

theorem countP_isRead_maskedAccesses (m : Memory) (a mask c : Word) :
    (maskedAccesses m a mask c).countP PortAccess.isRead = if mask = 0xFFFFFFFF#32 then 0 else 1 := by
  unfold maskedAccesses
  split <;> rfl

theorem countP_isWrite_maskedAccesses (m : Memory) (a mask c : Word) :
    (maskedAccesses m a mask c).countP (fun p => !p.isRead) = 1 := by
  unfold maskedAccesses
  split <;> rfl

/-- The reads of word `k` of the span `[x1c, x2c)`: none when the span covers the word. -/
def readsOfWord (x1c x2c k : Nat) : Nat := if x1c ≤ 32 * k ∧ 32 * k + 32 ≤ x2c then 0 else 1

theorem countP_isRead_word (m : Memory) (a c : Word) (x1c x2c k : Nat) :
    (maskedAccesses m a (memoryMask x1c x2c k) c).countP PortAccess.isRead = readsOfWord x1c x2c k := by
  rw [countP_isRead_maskedAccesses, readsOfWord]
  simp only [memoryMask_eq_full_iff]

/-- A span inside one word reads it unless it covers it. -/
theorem readsOfWord_single {x1c x2c : Nat} (hlt : x1c < x2c) (hsame : x1c / 32 = (x2c - 1) / 32) :
    readsOfWord x1c x2c (x1c / 32) = if x1c % 32 ≠ 0 ∨ x2c % 32 ≠ 0 then 1 else 0 := by
  unfold readsOfWord
  split <;> split <;> omega

section
variable {x1c x2c : Nat} (hlt : x1c / 32 < (x2c - 1) / 32)
include hlt

theorem readsOfWord_first : readsOfWord x1c x2c (x1c / 32) = if x1c % 32 ≠ 0 then 1 else 0 := by
  unfold readsOfWord
  split <;> split <;> omega

theorem readsOfWord_last : readsOfWord x1c x2c ((x2c - 1) / 32) = if x2c % 32 ≠ 0 then 1 else 0 := by
  unfold readsOfWord
  split <;> split <;> omega

end

theorem readsOfWord_middle {x1c x2c k : Nat} (hk : x1c / 32 < k) (hk' : k < (x2c - 1) / 32) : readsOfWord x1c x2c k = 0 :=
  if_pos (by omega)

/-- The words of a span that lies in more than one: the first, those between, the last. -/
theorem spanWords_split {x1c x2c : Nat} (hlt : x1c / 32 < (x2c - 1) / 32) :
    spanWords x1c x2c =
      x1c / 32 :: (List.range' (x1c / 32 + 1) ((x2c - 1) / 32 - x1c / 32 - 1) ++ [(x2c - 1) / 32]) := by
  have hcount : (x2c - 1) / 32 + 1 - x1c / 32 = ((x2c - 1) / 32 - x1c / 32 - 1) + 1 + 1 := by omega
  have hlast : x1c / 32 + 1 + ((x2c - 1) / 32 - x1c / 32 - 1) = (x2c - 1) / 32 := by omega
  rw [spanWords, hcount, List.range'_succ, List.range'_1_concat, hlast]

/-- The reads of a span: one for a first word that it starts inside and one for a last word that it ends inside, counted once
when they are one word (rule R133). -/
theorem sum_readsOfWord {x1c x2c : Nat} (hlt : x1c < x2c) :
    ((spanWords x1c x2c).map (readsOfWord x1c x2c)).sum =
      if x1c / 32 = (x2c - 1) / 32 then (if x1c % 32 ≠ 0 ∨ x2c % 32 ≠ 0 then 1 else 0)
      else (if x1c % 32 ≠ 0 then 1 else 0) + (if x2c % 32 ≠ 0 then 1 else 0) := by
  split
  case isTrue hsame =>
    have hone : spanWords x1c x2c = [x1c / 32] := by
      rw [spanWords, ← hsame, Nat.add_sub_cancel_left, List.range'_one]
    rw [hone, List.map_singleton, List.sum_singleton, readsOfWord_single hlt hsame]
  case isFalse hdiffer =>
    have hlt' : x1c / 32 < (x2c - 1) / 32 := by omega
    have hmiddle :
        ((List.range' (x1c / 32 + 1) ((x2c - 1) / 32 - x1c / 32 - 1)).map (readsOfWord x1c x2c)).sum = 0 := by
      refine List.sum_eq_zero fun n hn => ?_
      obtain ⟨k, hk, rfl⟩ := List.mem_map.1 hn
      rw [List.mem_range'_1] at hk
      exact readsOfWord_middle (by omega) (by omega)
    rw [spanWords_split hlt', List.map_cons, List.map_append, List.sum_cons, List.sum_append, hmiddle, List.map_singleton,
      List.sum_singleton, readsOfWord_first hlt', readsOfWord_last hlt', Nat.zero_add]

/-- Settles O31: the record of O30, counted word by word. -/
theorem drawSpanAccessCount : Obligations.DrawSpanAccessCount := by
  intro s t hrow hrow' hx2 hx1 hclip hexec x1c x2c reads writes
  obtain ⟨t', ht', hrecord⟩ := drawSpanAccessesInOrder s hrow hrow' hx2 hx1 hclip
  cases ht'.symm.trans hexec
  have hport : t.port.reverse = (spanWords x1c x2c).flatMap fun k =>
      maskedAccesses s.mem (wordAddress s s.arg0.toNat k) (memoryMask x1c x2c k) s.color := hrecord
  have hlt : x1c < x2c := by omega
  have hreads : reads = ((spanWords x1c x2c).map (readsOfWord x1c x2c)).sum := by
    calc
      reads = t.port.reverse.countP PortAccess.isRead := by rw [List.countP_reverse, List.countP_eq_length_filter]
      _ = _ := by
        rw [hport, List.countP_flatMap]
        exact congrArg List.sum (List.map_congr_left fun k _ => countP_isRead_word _ _ _ x1c x2c k)
  have hwrites : writes = (spanWords x1c x2c).length := by
    calc
      writes = t.port.reverse.countP fun p => !p.isRead := by rw [List.countP_reverse, List.countP_eq_length_filter]
      _ = ((spanWords x1c x2c).map fun _ => 1).sum := by
        rw [hport, List.countP_flatMap]
        exact congrArg List.sum (List.map_congr_left fun k _ => countP_isWrite_maskedAccesses _ _ _ _)
      _ = _ := by simp
  rw [sum_readsOfWord hlt] at hreads
  rw [spanWords, List.length_range'] at hwrites
  refine ⟨hwrites, by omega, by omega, hreads, fun h400 => ?_⟩
  rw [hreads]
  split
  · exact (if_pos (.inr (by omega))).ge
  · rw [if_pos (show x2c % 32 ≠ 0 by omega)]
    exact Nat.le_add_left 1 _

end Sys2Proof.Proofs
end

section
/-! SUPPORT. The lines of rule R175 one by one: line F1 (rule R151), the top and bottom vertex (rule R152), the start of the
chains (rule R153), the end of a band (rules R159, R160), one row (rules R161 to R163) and an advance (rule R164). -/

namespace Sys2Proof.Proofs

open Sys2Proof Sys2Proof.Machine

/-- Settles O46: line F1 returns. -/
theorem fillWithoutPolygonDoesNothing : Obligations.FillWithoutPolygonDoesNothing := fun _ => exec_fillPoly_ignored

/-! ### The top and bottom vertex (lines F3 to F6) -/

/-- The search reads no record of accesses. -/
theorem findTopBottom_startCommand (s : State) : findTopBottom s.startCommand = (findTopBottom s).startCommand :=
  List.foldl_hom (g₁ := scanVertex) (g₂ := scanVertex) (init := s.setWork { s.work with top := 0#32, bot := 0#32 })
    State.startCommand fun _ _ => rfl

/-- `b` is the first of the indices below `n` at which `f` is least. -/
structure FirstLeast (f : Word → Int) (n : Nat) (b : Word) : Prop where
  lt : b.toNat < n
  least : ∀ i : Word, i.toNat < n → f b ≤ f i
  first : ∀ i : Word, i.toNat < b.toNat → f b < f i

theorem firstLeast_zero (f : Word → Int) : FirstLeast f 1 0#32 where
  lt := Nat.one_pos
  least i hi := by rw [BitVec.eq_of_toNat_eq (x := i) (y := 0#32) (Nat.lt_one_iff.1 hi)]
  first _ hi := absurd hi (Nat.not_lt_zero _)

/-- One more index takes the place of the first least one exactly when `f` is less there. -/
theorem firstLeast_succ {f : Word → Int} {n : Nat} {b v : Word} (hv : v.toNat = n) (h : FirstLeast f n b) :
    FirstLeast f (n + 1) (if f v < f b then v else b) := by
  have hcases : ∀ i : Word, i.toNat < n + 1 → i = v ∨ i.toNat < n := fun i hi =>
    (Nat.lt_succ_iff_lt_or_eq.1 hi).symm.imp_left fun heq => BitVec.eq_of_toNat_eq (heq.trans hv.symm)
  split
  case isTrue hless =>
    refine ⟨by omega, fun i hi => ?_, fun i hi => hless.trans_le (h.least i (hv ▸ hi))⟩
    rcases hcases i hi with rfl | hlt
    · exact le_rfl
    · exact hless.le.trans (h.least i hlt)
  case isFalse hnot =>
    refine ⟨h.lt.trans n.lt_succ_self, fun i hi => ?_, h.first⟩
    rcases hcases i hi with rfl | hlt
    · exact not_lt.1 hnot
    · exact h.least i hlt

/-- `TOP` and `BOT` are the first vertices of minimum and of maximum y among the first `n`. -/
structure ExtremesAmong (n : Nat) (s : State) : Prop where
  top : FirstLeast (fun i => value (vy s i)) n s.work.top
  bot : FirstLeast (fun i => -value (vy s i)) n s.work.bot

theorem extremesAmong_scanVertex {s : State} {n : Nat} (hnan : ∀ i : Word, i.toNat < s.nvert.toNat → isNaN (vy s i) = false)
    (hn : n < s.nvert.toNat) (h : ExtremesAmong n s) : ExtremesAmong (n + 1) (scanVertex s n) := by
  have hv : (BitVec.ofNat 32 n).toNat = n := by
    rw [BitVec.toNat_ofNat, Nat.mod_eq_of_lt (hn.trans s.nvert.isLt)]
  have hvnan := hnan _ (hv.trans_lt hn)
  obtain ⟨hless, -⟩ := comparisons_eq_decide hvnan (hnan _ (h.top.lt.trans hn))
  obtain ⟨-, hgreater, -⟩ := comparisons_eq_decide hvnan (hnan _ (h.bot.lt.trans hn))
  have htop := firstLeast_succ hv h.top
  have hbot := firstLeast_succ hv h.bot
  simp only [neg_lt_neg_iff] at hbot
  constructor
  · simp only [scanVertex, setWork_work, hless, decide_eq_true_eq]
    exact htop
  · simp only [scanVertex, setWork_work, hgreater, decide_eq_true_eq]
    exact hbot

theorem extremesAmong_foldl (count : Nat) : ∀ {s : State} {n : Nat},
    (∀ i : Word, i.toNat < s.nvert.toNat → isNaN (vy s i) = false) → n + count ≤ s.nvert.toNat → ExtremesAmong n s →
    ExtremesAmong (n + count) ((List.range' n count).foldl scanVertex s) := by
  induction count with
  | zero => exact fun _ _ h => h
  | succ count ih =>
    intro s n hnan hn h
    rw [List.range'_succ, List.foldl_cons, Nat.add_comm count, ← Nat.add_assoc]
    have hscan := extremesAmong_scanVertex hnan (by omega) h
    exact ih (s := scanVertex s n) hnan (show n + 1 + count ≤ s.nvert.toNat by omega) hscan

theorem findTopBottom_extremes {s : State} (hn : 1 ≤ s.nvert.toNat)
    (hnan : ∀ i : Word, i.toNat < s.nvert.toNat → isNaN (vy s i) = false) :
    ExtremesAmong s.nvert.toNat (findTopBottom s) := by
  have h := extremesAmong_foldl (s.nvert.toNat - 1) (s := s.setWork { s.work with top := 0#32, bot := 0#32 }) (n := 1)
    hnan (Nat.add_sub_cancel' hn).le ⟨firstLeast_zero _, firstLeast_zero _⟩
  rwa [Nat.add_sub_cancel' hn] at h

/-- Settles O51: the scan keeps the first extremes among the vertices it has passed. -/
theorem topAndBottomAreFirstExtremes : Obligations.TopAndBottomAreFirstExtremes := by
  intro s hn hnan top bot
  obtain ⟨htop, hbot⟩ := findTopBottom_extremes hn hnan
  simp only [(findTopBottom_onlyDrawing s).vy] at htop hbot
  exact ⟨htop.lt, hbot.lt, fun i hi => ⟨htop.least i hi, neg_le_neg_iff.1 (hbot.least i hi)⟩, htop.first,
    fun i hi => neg_lt_neg_iff.1 (hbot.first i hi)⟩

/-! ### The spans of the whole command -/

/-- Settles O50: line F1 returns with no row drawn, or the spans are those of `fillPolygon_spans`. -/
theorem fillIsSpansInRowOrder : Obligations.FillIsSpansInRowOrder := by
  intro s t hexec
  rcases execFillPoly_cases s with ⟨-, ht⟩ | ⟨-, ht⟩ <;> cases ht.symm.trans hexec
  · exact ⟨[], .nil, by simp, rfl, rfl⟩
  · obtain ⟨rows, hrows, hdrawn⟩ := fillPolygon_spans s.startCommand
    rw [findTopBottom_startCommand] at hrows
    refine ⟨rows, hrows.rising, fun r hr => ?_, hdrawn.mem, hdrawn.port⟩
    obtain ⟨hfirst, hlast⟩ := hrows.visible r hr
    exact ⟨hfirst, hlast, (hrows.within r hr).1⟩

/-! ### The chains (lines F7 to F14, F20 to F23) -/

/-- Settles O52: the registers as lines F7 to F11 set them, and the two neighbours modulo `NVERT`. -/
theorem chainsStartAtTheTopVertex : Obligations.ChainsStartAtTheTopVertex := fun s htop =>
  ⟨rfl, rfl, nextIndex_toNat s.nvert s.work.top htop, prevIndex_toNat s.nvert s.work.top htop,
    rfl, rfl, rfl, rfl, rfl, rfl, rfl⟩

/-- Line F14 by the choice of line F13. -/
theorem setBandEnd_yEnd (s : State) :
    (leftFirst s = true → (setBandEnd s).work.yEnd = ceilI32 (vy s s.work.ln)) ∧
    (leftFirst s = false → (setBandEnd s).work.yEnd = ceilI32 (vy s s.work.rn)) := by
  constructor <;> intro h <;> simp [setBandEnd, h]

/-- Settles O53: the choice is `fle`, which a NaN makes false. -/
theorem bandEndsAtTheNearerVertex : Obligations.BandEndsAtTheNearerVertex := by
  refine ⟨fun s hnan => ?nan, fun s hl hr => ⟨fun hle => ?left, fun hlt => ?right⟩⟩
  case nan =>
    obtain ⟨-, -, hchoice, -⟩ := comparisons_of_isNaN hnan
    exact ⟨hchoice, (setBandEnd_yEnd s).2 hchoice⟩
  case left =>
    obtain ⟨-, -, hdecide, -⟩ := comparisons_eq_decide hl hr
    have hchoice : leftFirst s = true := hdecide.trans (decide_eq_true hle)
    exact ⟨hchoice, (setBandEnd_yEnd s).1 hchoice⟩
  case right =>
    obtain ⟨-, -, hchoice, -⟩ := comparisons_of_value_gt hl hr hlt
    exact ⟨hchoice, (setBandEnd_yEnd s).2 hchoice⟩

/-- Settles O55: lines F21 and F23, each setting its own chain's four registers. -/
theorem chainAdvanceReloadsX : Obligations.ChainAdvanceReloadsX := fun s hln hrn =>
  ⟨⟨rfl, nextIndex_toNat s.nvert s.work.ln hln, rfl, rfl, rfl⟩, rfl, prevIndex_toNat s.nvert s.work.rn hrn, rfl, rfl, rfl⟩

/-! ### One row (lines F16 to F19) -/

theorem drawRow_visible {s : State} (h : 0 ≤ s.work.y.toInt ∧ s.work.y.toInt < 240) :
    drawRow s = span s.work.y (f2i (fadd s.work.xl half)) (f2i (fadd s.work.xr half)) s.color s := if_pos h

theorem drawRow_invisible {s : State} (h : s.work.y.toInt < 0 ∨ 240 ≤ s.work.y.toInt) : drawRow s = s :=
  if_neg (show ¬ (0 ≤ s.work.y.toInt ∧ s.work.y.toInt < (240 : Nat)) by omega)

theorem row_onlyDrawing (s : State) : OnlyDrawing s (nextRow (drawRow s)) :=
  (drawRow_onlyDrawing s).trans (nextRow_onlyDrawing _)

/-- Settles O54: the row exists or not, and `row_work` says what becomes of the working registers. -/
theorem rowDrawsThenAddsSlopes : Obligations.RowDrawsThenAddsSlopes := by
  intro s hlt t
  have hwork : t.work = _ := row_work s
  refine ⟨fun h => ?visible, fun h => ?invisible, ?registers⟩
  case visible =>
    show (drawRow s).mem = _ ∧ (drawRow s).port = _
    rw [drawRow_visible h]
    exact ⟨rfl, rfl⟩
  case invisible =>
    have ht : t = nextRow s := congrArg nextRow (drawRow_invisible h)
    rw [ht]
    exact ⟨rfl, rfl, rfl⟩
  case registers =>
    rw [hwork]
    exact ⟨rfl, rfl, toInt_succ _ _ hlt, rfl, rfl, rfl, rfl, rfl, rfl, rfl, rfl, rfl, row_onlyDrawing s⟩

end Sys2Proof.Proofs
end

section
/-! SUPPORT. How long the walk of line F12 is (rule R165): the two cursors go towards `BOT` from both sides, one of them one
vertex nearer in every iteration, and the walk ends when one is there. So the bounded walk is the unbounded one (rule R175). -/

namespace Sys2Proof.Proofs

open Sys2Proof Sys2Proof.Machine

/-! ### Distances around the polygon -/

/-- How many steps forward lead from vertex `a` to vertex `b` of `n`. -/
def distance (n a b : Nat) : Nat := if a ≤ b then b - a else b + n - a

theorem distance_eq_zero_iff {n a b : Nat} (ha : a < n) : distance n a b = 0 ↔ a = b := by
  unfold distance
  split <;> omega

section
variable {n a b : Nat} (ha : a < n) (hb : b < n)
include ha hb

theorem distance_eq_mod : (b + n - a) % n = distance n a b := by
  unfold distance
  split
  case isTrue hle => rw [show b + n - a = b - a + n by omega, Nat.add_mod_right, Nat.mod_eq_of_lt (by omega)]
  case isFalse hgt => exact Nat.mod_eq_of_lt (by omega)

theorem distance_add_distance (hab : a ≠ b) : distance n a b + distance n b a = n := by
  unfold distance
  split <;> split <;> omega

/-- A step forward of the start shortens the way by one. -/
theorem distance_next (hab : a ≠ b) : distance n ((a + 1) % n) b + 1 = distance n a b := by
  unfold distance
  rcases Nat.lt_or_eq_of_le (Nat.succ_le_of_lt ha) with hlt | heq
  · rw [Nat.mod_eq_of_lt hlt]
    split <;> split <;> omega
  · rw [show a + 1 = n from heq, Nat.mod_self]
    split <;> split <;> omega

/-- A step backward of the end shortens the way by one. -/
theorem distance_prev (hab : a ≠ b) : distance n a ((b + n - 1) % n) + 1 = distance n a b := by
  unfold distance
  rcases Nat.eq_zero_or_pos b with rfl | hpos
  · rw [Nat.zero_add, Nat.mod_eq_of_lt (by omega)]
    split <;> split <;> omega
  · rw [show b + n - 1 = b - 1 + n by omega, Nat.add_mod_right, Nat.mod_eq_of_lt (by omega)]
    split <;> split <;> omega

end

/-! ### The cursors -/

/-- Both cursors and `BOT` are vertices of the polygon, and each chain's next vertex is its neighbour (rule R41). -/
structure CursorsOk (s : State) : Prop where
  l_lt : s.work.l.toNat < s.nvert.toNat
  r_lt : s.work.r.toNat < s.nvert.toNat
  bot_lt : s.work.bot.toNat < s.nvert.toNat
  ln : s.work.ln = nextIndex s.nvert s.work.l
  rn : s.work.rn = prevIndex s.nvert s.work.r

/-- How many edges the left chain still has to the bottom vertex. -/
def leftToGo (s : State) : Nat := distance s.nvert.toNat s.work.l.toNat s.work.bot.toNat

/-- How many edges the right chain still has to the bottom vertex. -/
def rightToGo (s : State) : Nat := distance s.nvert.toNat s.work.bot.toNat s.work.r.toNat

theorem leftToGo_eq_zero_iff {s : State} (h : CursorsOk s) : leftToGo s = 0 ↔ s.work.l = s.work.bot := by
  rw [leftToGo, distance_eq_zero_iff h.l_lt, BitVec.toNat_inj]

theorem rightToGo_eq_zero_iff {s : State} (h : CursorsOk s) : rightToGo s = 0 ↔ s.work.r = s.work.bot := by
  rw [rightToGo, distance_eq_zero_iff h.bot_lt, BitVec.toNat_inj, eq_comm]

/-- What filling a band leaves as it was: the polygon and the registers that say where the chains are. -/
structure KeepsCursors (s t : State) : Prop where
  frame : OnlyDrawing s t
  bot : t.work.bot = s.work.bot
  l : t.work.l = s.work.l
  ln : t.work.ln = s.work.ln
  r : t.work.r = s.work.r
  rn : t.work.rn = s.work.rn

theorem KeepsCursors.trans {s t u : State} (h : KeepsCursors s t) (h' : KeepsCursors t u) : KeepsCursors s u :=
  ⟨h.frame.trans h'.frame, h'.bot.trans h.bot, h'.l.trans h.l, h'.ln.trans h.ln, h'.r.trans h.r, h'.rn.trans h.rn⟩

theorem keepsCursors_row (s : State) : KeepsCursors s (nextRow (drawRow s)) := by
  refine ⟨row_onlyDrawing s, ?_, ?_, ?_, ?_, ?_⟩ <;> rw [row_work]

theorem keepsCursors_band {s t : State} (h : BandRuns s t) : KeepsCursors s t := by
  induction h with
  | done => exact ⟨OnlyDrawing.refl _, rfl, rfl, rfl, rfl, rfl⟩
  | row _ _ ih => exact (keepsCursors_row _).trans ih

theorem keepsCursors_filled {s filled : State} (h : BandRuns (setBandEnd s) filled) : KeepsCursors s filled :=
  .trans (t := setBandEnd s) ⟨setBandEnd_onlyDrawing s, rfl, rfl, rfl, rfl, rfl⟩ (keepsCursors_band h)

theorem KeepsCursors.cursorsOk {s t : State} (h : KeepsCursors s t) (hs : CursorsOk s) : CursorsOk t where
  l_lt := by rw [h.l, h.frame.nvert]; exact hs.l_lt
  r_lt := by rw [h.r, h.frame.nvert]; exact hs.r_lt
  bot_lt := by rw [h.bot, h.frame.nvert]; exact hs.bot_lt
  ln := by rw [h.ln, h.l, h.frame.nvert, hs.ln]
  rn := by rw [h.rn, h.r, h.frame.nvert, hs.rn]

theorem KeepsCursors.toGo {s t : State} (h : KeepsCursors s t) : leftToGo t = leftToGo s ∧ rightToGo t = rightToGo s := by
  rw [leftToGo, rightToGo, h.bot, h.l, h.r, h.frame.nvert]
  exact ⟨rfl, rfl⟩

/-! ### One iteration -/

/-- `u` comes after `s`, with one of the chains one edge nearer to the same bottom vertex. -/
structure Nearer (s u : State) : Prop where
  ok : CursorsOk u
  bot : u.work.bot = s.work.bot
  toGo : leftToGo u + 1 = leftToGo s ∧ rightToGo u = rightToGo s ∨ leftToGo u = leftToGo s ∧ rightToGo u + 1 = rightToGo s

theorem nearer_advanceLeft {s : State} (h : CursorsOk s) (hl : s.work.l ≠ s.work.bot) : Nearer s (advanceLeft s) := by
  have hln : s.work.ln.toNat = (s.work.l.toNat + 1) % s.nvert.toNat := by rw [h.ln, nextIndex_toNat _ _ h.l_lt]
  have hln_lt : s.work.ln.toNat < s.nvert.toNat := by rw [h.ln]; exact nextIndex_lt h.l_lt
  refine ⟨⟨hln_lt, h.r_lt, h.bot_lt, rfl, h.rn⟩, rfl, .inl ⟨?_, rfl⟩⟩
  show distance _ s.work.ln.toNat _ + 1 = _
  rw [hln]
  exact distance_next h.l_lt h.bot_lt (mt BitVec.eq_of_toNat_eq hl)

theorem nearer_advanceRight {s : State} (h : CursorsOk s) (hr : s.work.r ≠ s.work.bot) : Nearer s (advanceRight s) := by
  have hrn : s.work.rn.toNat = (s.work.r.toNat + s.nvert.toNat - 1) % s.nvert.toNat := by
    rw [h.rn, prevIndex_toNat _ _ h.r_lt]
  have hrn_lt : s.work.rn.toNat < s.nvert.toNat := by rw [h.rn]; exact prevIndex_lt h.r_lt
  refine ⟨⟨h.l_lt, hrn_lt, h.bot_lt, h.ln, rfl⟩, rfl, .inr ⟨rfl, ?_⟩⟩
  show distance _ _ s.work.rn.toNat + 1 = _
  rw [hrn]
  exact distance_prev h.bot_lt h.r_lt (mt BitVec.eq_of_toNat_eq hr.symm)

/-- Lines F13 to F23. -/
theorem nearer_turn {s filled : State} (h : CursorsOk s) (hwalking : s.work.l ≠ s.work.bot ∧ s.work.r ≠ s.work.bot)
    (hband : BandRuns (setBandEnd s) filled) :
    Nearer s (if leftFirst s then advanceLeft filled else advanceRight filled) := by
  have hkeeps := keepsCursors_filled hband
  have hfilled := hkeeps.cursorsOk h
  obtain ⟨hleft, hright⟩ := hkeeps.toGo
  have hnearer : Nearer filled (if leftFirst s then advanceLeft filled else advanceRight filled) := by
    split
    · exact nearer_advanceLeft hfilled (by rw [hkeeps.l, hkeeps.bot]; exact hwalking.1)
    · exact nearer_advanceRight hfilled (by rw [hkeeps.r, hkeeps.bot]; exact hwalking.2)
  exact ⟨hnearer.ok, hnearer.bot.trans hkeeps.bot, hleft ▸ hright ▸ hnearer.toGo⟩

/-! ### The whole walk -/

/-- The walk ends with a cursor at `BOT`; every iteration takes one edge, and the last one is taken by the chain that arrives. -/
theorem walkRuns_bounds {n : Nat} {s t : State} (hrun : WalkRuns n s t) (h : CursorsOk s) :
    t.work.bot = s.work.bot ∧ (t.work.l = s.work.bot ∨ t.work.r = s.work.bot) ∧
    min (leftToGo s) (rightToGo s) ≤ n ∧ n ≤ leftToGo s + rightToGo s - 1 := by
  induction hrun with
  | done hstop =>
    have harrived := not_and_or.1 hstop
    rw [not_not, not_not] at harrived
    refine ⟨rfl, harrived, ?_, Nat.zero_le _⟩
    rw [← leftToGo_eq_zero_iff h, ← rightToGo_eq_zero_iff h] at harrived
    omega
  | turn hwalking hband _ ih =>
    have hnearer := nearer_turn h hwalking hband
    obtain ⟨hbot, harrived, hlow, hhigh⟩ := ih hnearer.ok
    have hl := mt (leftToGo_eq_zero_iff h).1 hwalking.1
    have hr := mt (rightToGo_eq_zero_iff h).1 hwalking.2
    have htoGo := hnearer.toGo
    rw [hnearer.bot] at hbot harrived
    exact ⟨hbot, harrived, by omega, by omega⟩

theorem walking_iff (s : State) : walking s = true ↔ s.work.l ≠ s.work.bot ∧ s.work.r ≠ s.work.bot := by
  rw [walking, Bool.and_eq_true, bne_iff_ne, bne_iff_ne]

/-- With enough iterations allowed, the bounded walk is the walk of line F12. -/
theorem walkRuns_walk (fuel : Nat) : ∀ {s : State}, CursorsOk s → leftToGo s + rightToGo s - 1 ≤ fuel →
    ∃ n, WalkRuns n s (walk fuel s) := by
  induction fuel with
  | zero =>
    intro s h hfuel
    refine ⟨0, .done fun hwalking => ?_⟩
    have hl := mt (leftToGo_eq_zero_iff h).1 hwalking.1
    have hr := mt (rightToGo_eq_zero_iff h).1 hwalking.2
    omega
  | succ fuel ih =>
    intro s h hfuel
    unfold walk
    split
    case isTrue hwalking =>
      rw [walking_iff] at hwalking
      have hband := bandRuns_fillBand (setBandEnd s)
      have hnearer := nearer_turn h hwalking hband
      have htoGo := hnearer.toGo
      obtain ⟨n, hrest⟩ := ih hnearer.ok (by omega)
      exact ⟨n + 1, .turn hwalking hband hrest⟩
    case isFalse hstop => exact ⟨0, .done (mt (walking_iff s).2 hstop)⟩

/-! ### The walk of a polygon -/

theorem findTopBottom_lt {s : State} (hn : 3 ≤ s.nvert.toNat) :
    (findTopBottom s).work.top.toNat < s.nvert.toNat ∧ (findTopBottom s).work.bot.toNat < s.nvert.toNat := by
  have h := findTopBottom_same (s := s) ⟨rfl, rfl, rfl⟩ ⟨rfl, rfl, fun _ _ => ⟨rfl, rfl⟩⟩ hn
  have htop := h.top_lt
  have hbot := h.bot_lt
  rw [(findTopBottom_onlyDrawing s).nvert] at htop hbot
  exact ⟨htop, hbot⟩

section
variable {s : State} (hn : 3 ≤ s.nvert.toNat)
include hn

theorem startChains_cursorsOk : CursorsOk (startChains (findTopBottom s)) := by
  obtain ⟨htop, hbot⟩ := findTopBottom_lt hn
  rw [← (findTopBottom_onlyDrawing s).nvert] at htop hbot
  exact ⟨htop, htop, hbot, rfl, rfl⟩

theorem startChains_leftToGo : leftToGo (startChains (findTopBottom s)) =
    ((findTopBottom s).work.bot.toNat + s.nvert.toNat - (findTopBottom s).work.top.toNat) % s.nvert.toNat := by
  obtain ⟨htop, hbot⟩ := findTopBottom_lt hn
  rw [distance_eq_mod htop hbot, ← (findTopBottom_onlyDrawing s).nvert]
  rfl

/-- With one vertex at the top and at the bottom no edge lies before either chain. -/
theorem startChains_toGo_of_eq (heq : (findTopBottom s).work.top = (findTopBottom s).work.bot) :
    leftToGo (startChains (findTopBottom s)) = 0 ∧ rightToGo (startChains (findTopBottom s)) = 0 :=
  have hok := startChains_cursorsOk hn
  ⟨(leftToGo_eq_zero_iff hok).2 heq, (rightToGo_eq_zero_iff hok).2 heq⟩

/-- Else the two chains together have all edges of the polygon before them. -/
theorem startChains_toGo_of_ne (hne : (findTopBottom s).work.top ≠ (findTopBottom s).work.bot) :
    leftToGo (startChains (findTopBottom s)) + rightToGo (startChains (findTopBottom s)) = s.nvert.toNat := by
  have hok := startChains_cursorsOk hn
  have hnvert : (startChains (findTopBottom s)).nvert = s.nvert := (findTopBottom_onlyDrawing s).nvert
  exact (distance_add_distance hok.l_lt hok.bot_lt (mt BitVec.eq_of_toNat_eq hne)).trans (congrArg BitVec.toNat hnvert)

/-- `NVERT` iterations are enough (rule R165). -/
theorem startChains_toGo_le :
    leftToGo (startChains (findTopBottom s)) + rightToGo (startChains (findTopBottom s)) ≤ s.nvert.toNat := by
  by_cases heq : (findTopBottom s).work.top = (findTopBottom s).work.bot
  · obtain ⟨hl, hr⟩ := startChains_toGo_of_eq hn heq
    omega
  · exact (startChains_toGo_of_ne hn heq).le

end

/-- Settles O48: the bounds of `walkRuns_bounds` with the ways from the top vertex. -/
theorem walkEndsAtTheBottomVertex : Obligations.WalkEndsAtTheBottomVertex := by
  intro s n t hn hrun top bot dL
  have hok := startChains_cursorsOk hn
  obtain ⟨hbot, harrived, hlow, hhigh⟩ := walkRuns_bounds hrun hok
  have hleft : leftToGo (startChains (findTopBottom s)) = dL := startChains_leftToGo hn
  refine ⟨hbot, harrived, fun heq => ?same, fun hne => ?different⟩
  case same =>
    obtain ⟨hl, hr⟩ := startChains_toGo_of_eq hn heq
    omega
  case different =>
    have htoGo := startChains_toGo_of_ne hn hne
    omega

/-- Settles O47: the bounded walk of the model has iterations enough. -/
theorem fillFollowsTheLoops : Obligations.FillFollowsTheLoops := by
  refine ⟨fun s => exec_fillPoly_ignored, fun s hpvalid hn => ?_⟩
  have hok := startChains_cursorsOk (s := s.startCommand) hn
  have hfuel := startChains_toGo_le (s := s.startCommand) hn
  obtain ⟨n, hrun⟩ := walkRuns_walk s.nvert.toNat hok (tsub_le_self.trans hfuel)
  have hdrawn : ¬ (s.pvalid = false ∨ s.nvert.toNat < 3) := by
    rw [hpvalid, Bool.true_eq_false, false_or]
    omega
  have hframe : OnlyDrawing s (fillPolygon s.startCommand).endCommand :=
    OnlyDrawing.trans (t := s.startCommand) rfl ((fillPolygon_onlyDrawing _).trans rfl)
  exact ⟨n, fillPolygon s.startCommand, hrun, exec_fillPoly_drawn hdrawn, hframe⟩

end Sys2Proof.Proofs
end

section
/-! SUPPORT. Addition, subtraction and division (rule R156): one equation per class of operands, and on finite operands rounding
the exact result once. -/

namespace Sys2Proof.Proofs

open Sys2Proof Sys2Proof.Machine

/-! ### Operands that are not finite -/

theorem isNaN_fneg (b : F32) : isNaN (fneg b) = isNaN b := (fneg_value b).2.2.1

theorem isInf_fneg (b : F32) : isInf (fneg b) = isInf b := (fneg_value b).2.2.2

theorem isFinite_fneg (b : F32) : isFinite (fneg b) = isFinite b := (fneg_value b).1

theorem value_fneg (b : F32) : value (fneg b) = -value b := (fneg_value b).2.1

theorem signField_fneg (b : F32) : signField (fneg b) = !signField b := (fneg_fields b).2.2

section
variable {a b : F32}

theorem fadd_isNaN (h : isNaN a = true ∨ isNaN b = true) : isNaN (fadd a b) = true := by
  rw [fadd, if_pos (by simpa using h)]
  exact nanResult_isNaN 0 a b

theorem fdiv_isNaN (h : isNaN a = true ∨ isNaN b = true) : isNaN (fdiv a b) = true := by
  rw [fdiv, if_pos (by simpa using h)]
  exact nanResult_isNaN 1 a b

/-- Infinities of opposite signs have no sum. -/
theorem fadd_inf_opposite (ha : isInf a = true) (hb : isInf b = true) (hs : signField a ≠ signField b) :
    isNaN (fadd a b) = true := by
  have h : fadd a b = nanResult 0 a b := by simp [fadd, isInf_notNaN ha, isInf_notNaN hb, ha, hb, hs]
  rw [h]
  exact nanResult_isNaN 0 a b

theorem fadd_inf_same (ha : isInf a = true) (hb : isInf b = true) (hs : signField a = signField b) : fadd a b = a := by
  simp [fadd, isInf_notNaN ha, isInf_notNaN hb, ha, hs]

theorem fadd_inf_inf_isNaN_iff (ha : isInf a = true) (hb : isInf b = true) :
    isNaN (fadd a b) = true ↔ signField a ≠ signField b := by
  refine ⟨fun hnan hs => ?_, fadd_inf_opposite ha hb⟩
  rw [fadd_inf_same ha hb hs, isInf_notNaN ha] at hnan
  cases hnan

theorem fadd_inf_finite (ha : isInf a = true) (hb : isFinite b = true) : fadd a b = a := by
  simp [fadd, isInf_notNaN ha, finite_notNaN hb, ha, finite_notInf hb]

theorem fadd_finite_inf (ha : isFinite a = true) (hb : isInf b = true) : fadd a b = b := by
  simp [fadd, finite_notNaN ha, isInf_notNaN hb, finite_notInf ha, hb]

theorem fdiv_inf_inf (ha : isInf a = true) (hb : isInf b = true) : isNaN (fdiv a b) = true := by
  have h : fdiv a b = nanResult 1 a b := by simp [fdiv, isInf_notNaN ha, isInf_notNaN hb, ha, hb]
  rw [h]
  exact nanResult_isNaN 1 a b

theorem fdiv_inf_finite (ha : isInf a = true) (hb : isFinite b = true) :
    fdiv a b = infinity (signField a != signField b) := by
  simp [fdiv, isInf_notNaN ha, finite_notNaN hb, ha, finite_notInf hb]

theorem fdiv_finite_inf (ha : isFinite a = true) (hb : isInf b = true) :
    fdiv a b = withSign (signField a != signField b) 0 := by
  simp [fdiv, finite_notNaN ha, isInf_notNaN hb, finite_notInf ha, hb]

end

theorem magnitude_eq_zero_iff (a : F32) : magnitude a = 0 ↔ value a = 0 := by
  rw [← value_natAbs, Int.natAbs_eq_zero]

theorem fdiv_finite {a b : F32} (ha : isFinite a = true) (hb : isFinite b = true) :
    fdiv a b =
      if value b = 0 then (if value a = 0 then nanResult 1 a b else infinity (signField a != signField b))
      else roundUnits (signField a != signField b) (magnitude a * unitsPerOne) (magnitude b) := by
  simp only [fdiv, finite_notNaN ha, finite_notNaN hb, finite_notInf ha, finite_notInf hb, magnitude_eq_zero_iff, Bool.or_self,
    Bool.false_eq_true, if_false]

/-- Settles O40: one lemma for each pair of classes of operands; subtraction is addition of the number with the other sign. -/
theorem floatSpecialOperands : Obligations.FloatSpecialOperands := by
  intro a b
  refine ⟨fun hnan => ?nan, fun ha hb => ?infInf, fun ha hb => ?infFinite, fun ha hb => ?finiteInf,
    fun ha hb hzero => ?byZero⟩
  case nan => exact ⟨fadd_isNaN hnan, fadd_isNaN (isNaN_fneg b ▸ hnan), fdiv_isNaN hnan⟩
  case infInf =>
    have hb' : isInf (fneg b) = true := (isInf_fneg b).trans hb
    have hsame : signField a = signField (fneg b) ↔ signField a ≠ signField b := by
      rw [signField_fneg, Bool.eq_not_iff]
    refine ⟨fdiv_inf_inf ha hb, fadd_inf_inf_isNaN_iff ha hb, ?_, fadd_inf_same ha hb,
      fun hs => fadd_inf_same ha hb' (hsame.2 hs)⟩
    rw [fsub, fadd_inf_inf_isNaN_iff ha hb', Ne, hsame, not_not]
  case infFinite => exact ⟨fadd_inf_finite ha hb, fadd_inf_finite ha ((isFinite_fneg b).trans hb), fdiv_inf_finite ha hb⟩
  case finiteInf => exact ⟨fadd_finite_inf ha hb, fadd_finite_inf ha ((isInf_fneg b).trans hb), fdiv_finite_inf ha hb⟩
  case byZero =>
    rw [fdiv_finite ha hb, if_pos hzero]
    refine ⟨fun ha0 => ?_, fun ha0 => if_neg ha0⟩
    rw [if_pos ha0]
    exact nanResult_isNaN 1 a b

/-! ### Rounding with a sign -/

theorem abs_value (a : F32) : |value a| = magnitude a := by rw [Int.abs_eq_natAbs, value_natAbs]

/-- The sign bit of a number other than zero. -/
theorem signField_of_value_ne_zero {a : F32} (h : value a ≠ 0) : signField a = decide (value a < 0) := by
  rw [value_eq] at *
  cases hs : signField a <;> rw [hs] at h <;> simp at h ⊢
  omega

/-- A magnitude is no further from `|num / den|` than the signed value is from `num / den`. -/
theorem abs_magnitude_sub_le (c : F32) (num : Int) (den : Nat) :
    |(magnitude c * den : Int) - num.natAbs| ≤ |value c * den - num| := by
  have h := abs_abs_sub_abs_le (value c * den) num
  rwa [abs_mul, abs_value, Nat.abs_cast, Int.abs_eq_natAbs num] at h

/-- With the sign of the exact result, the two distances are the same. -/
theorem abs_value_sub_of_sign {r : F32} {num : Int} (hsign : num ≠ 0 → signField r = decide (num < 0)) (den : Nat) :
    |value r * den - num| = |(magnitude r * den : Int) - num.natAbs| := by
  rcases lt_trichotomy num 0 with hneg | rfl | hpos
  · have hv : value r = -magnitude r := by rw [value_eq, hsign hneg.ne, decide_eq_true hneg, if_pos rfl]
    rw [hv, ← abs_neg, Int.ofNat_natAbs_of_nonpos hneg.le]
    congr 1
    ring
  · simp [abs_mul, abs_value]
  · have hv : value r = magnitude r := by
      rw [value_eq, hsign hpos.ne', decide_eq_false hpos.not_gt, if_neg Bool.false_ne_true]
    rw [hv, Int.natAbs_of_nonneg hpos.le]

theorem value_eq_neg_of_magnitude_eq {r c : F32} (h : magnitude c = magnitude r) (hne : value c ≠ value r) :
    value c = -value r := by
  have habs : |value c| = |value r| := by rw [abs_value, abs_value, h]
  exact (abs_eq_abs.1 habs).resolve_left hne

/-- Opposite numbers are as far from `num` only when one of the three is zero. -/
theorem eq_zero_of_opposite_tie {x num : Int} (h : |x - num| = |-x - num|) : x = 0 ∨ num = 0 := by
  rcases abs_eq_abs.1 h with h | h <;> omega

/-- The distances of `roundUnits_spec`. -/
theorem natAbs_sub_eq_abs (m den n : Nat) : (((m * den : Nat) - (n : Int)).natAbs : Int) = |(m * den : Int) - n| := by
  rw [Int.abs_eq_natAbs, Nat.cast_mul]

/-- Rule R156: rounding the magnitude and giving it the sign of the exact result is rounding the exact result. -/
theorem roundsTo_roundUnits {neg : Bool} {num : Int} {den : Nat} (hden : 0 < den)
    (hneg : num ≠ 0 → neg = decide (num < 0)) : RoundsTo (roundUnits neg num.natAbs den) num den := by
  obtain ⟨hnan, hsign, hfinite, hnearest⟩ := roundUnits_spec neg num.natAbs den hden
  generalize roundUnits neg num.natAbs den = r at *
  have hdistance := abs_value_sub_of_sign (r := r) (fun h0 => hsign.trans (hneg h0)) den
  have hle : isFinite r = true → ∀ c, isFinite c = true → |value r * den - num| ≤ |value c * den - num| := by
    intro hr c hc
    rw [hdistance]
    refine le_trans ?_ (abs_magnitude_sub_le c num den)
    rw [← natAbs_sub_eq_abs, ← natAbs_sub_eq_abs]
    rcases hnearest hr c hc with heq | hlt | ⟨heq, -⟩
    · rw [heq]
    · exact_mod_cast hlt.le
    · rw [heq]
  refine ⟨hnan, hfinite, fun hinf => ?sign, hle, fun hr c hc hne htie => ?even⟩
  case sign =>
    refine hsign.trans (hneg fun h0 => ?_)
    have hr : isFinite r = true := hfinite.2 (by rw [h0]; exact Nat.mul_pos (by decide) hden)
    rw [finite_notInf hr] at hinf
    cases hinf
  case even =>
    rcases hnearest hr c hc with heq | hlt | ⟨-, heven⟩
    · have hopposite := value_eq_neg_of_magnitude_eq heq hne
      rw [hopposite, neg_mul] at htie
      have hzero : value r * den = 0 := (eq_zero_of_opposite_tie htie).elim id fun hnum => by
        have h0 := hle hr _ (zero_value false).1
        rw [(zero_value false).2, hnum, zero_mul, sub_zero, sub_zero, abs_zero] at h0
        exact abs_nonpos_iff.1 h0
      have hr0 : value r = 0 := (mul_eq_zero.1 hzero).resolve_right (by omega)
      exact absurd (by rw [hopposite, hr0, neg_zero]) hne
    · have hc' := abs_magnitude_sub_le c num den
      rw [← htie, hdistance, ← natAbs_sub_eq_abs, ← natAbs_sub_eq_abs] at hc'
      omega
    · exact heven

/-! ### Finite operands -/

theorem withSign_zero_eq_roundUnits (neg : Bool) : withSign neg 0 = roundUnits neg 0 1 := by
  simp [roundUnits, roundHalfEven, excessBits]

theorem roundsTo_fadd {a b : F32} (ha : isFinite a = true) (hb : isFinite b = true) :
    RoundsTo (fadd a b) (value a + value b) 1 := by
  simp only [fadd, finite_notNaN ha, finite_notNaN hb, finite_notInf ha, finite_notInf hb, Bool.or_self, Bool.false_eq_true,
    if_false]
  split
  case isTrue hsum =>
    have hzero := roundsTo_roundUnits (neg := signField a && signField b) (num := 0) Nat.one_pos fun h => absurd rfl h
    rwa [hsum, withSign_zero_eq_roundUnits]
  case isFalse => exact roundsTo_roundUnits Nat.one_pos fun _ => rfl

theorem roundsTo_fsub {a b : F32} (ha : isFinite a = true) (hb : isFinite b = true) :
    RoundsTo (fsub a b) (value a - value b) 1 := by
  have h := roundsTo_fadd ha ((isFinite_fneg b).trans hb)
  rwa [value_fneg, ← sub_eq_add_neg] at h

/-- The sign of an exact quotient. -/
theorem sign_of_quotient {a b : F32} (hb : value b ≠ 0) (h : value a * unitsPerOne * (value b).sign ≠ 0) :
    (signField a != signField b) = decide (value a * unitsPerOne * (value b).sign < 0) := by
  have ha : value a ≠ 0 := fun h0 => h (by rw [h0, zero_mul, zero_mul])
  have hunits : (0 : Int) < unitsPerOne := by decide
  rw [signField_of_value_ne_zero ha, signField_of_value_ne_zero hb]
  rcases lt_or_gt_of_ne hb with hb | hb
  · rw [Int.sign_eq_neg_one_of_neg hb, mul_neg_one, decide_eq_true hb, Bool.bne_true, ← decide_not]
    refine decide_eq_decide.2 ?_
    rw [neg_lt_zero, mul_pos_iff_of_pos_right hunits]
    omega
  · rw [Int.sign_eq_one_of_pos hb, mul_one, decide_eq_false hb.not_gt, Bool.bne_false]
    refine decide_eq_decide.2 ?_
    rw [← neg_pos, ← neg_pos (a := value a * _), ← neg_mul, mul_pos_iff_of_pos_right hunits]

theorem roundsTo_fdiv {a b : F32} (ha : isFinite a = true) (hb : isFinite b = true) (hzero : value b ≠ 0) :
    RoundsTo (fdiv a b) (value a * unitsPerOne * (value b).sign) (value b).natAbs := by
  have hnum : magnitude a * unitsPerOne = (value a * unitsPerOne * (value b).sign).natAbs := by
    rw [Int.natAbs_mul, Int.natAbs_mul, value_natAbs, Int.natAbs_natCast, Int.natAbs_sign_of_ne_zero hzero, Nat.mul_one]
  rw [fdiv_finite ha hb, if_neg hzero, hnum, ← value_natAbs b]
  exact roundsTo_roundUnits (Int.natAbs_pos.2 hzero) (sign_of_quotient hzero)

/-- Settles O39: the three operations on finite operands. -/
theorem floatOperationsRoundOnce : Obligations.FloatOperationsRoundOnce :=
  fun _ _ ha hb => ⟨roundsTo_fadd ha hb, roundsTo_fsub ha hb, roundsTo_fdiv ha hb⟩

end Sys2Proof.Proofs
end

section
/-! SUPPORT. Conversions to `i32` (rules R157, R158): the whole number by the bounds of a quotient, then saturation. -/

namespace Sys2Proof.Proofs

open Sys2Proof Sys2Proof.Machine

theorem unitsPerOne_pos : (0 : Int) < unitsPerOne := by decide

/-! ### Saturation -/

theorem saturate_toInt (v : Int) :
    (2 ^ 31 ≤ v → (saturate v).toInt = 2147483647) ∧ (v ≤ -2 ^ 31 → (saturate v).toInt = -2147483648) ∧
    (-2 ^ 31 < v → v < 2 ^ 31 → (saturate v).toInt = v) := by
  unfold saturate
  refine ⟨fun h => ?_, fun h => ?_, fun hlow hhigh => ?_⟩
  · rw [if_pos h]
    rfl
  · rw [if_neg (by omega), if_pos h]
    rfl
  · rw [if_neg (by omega), if_neg (by omega), BitVec.toInt_ofInt, Int.bmod_def]
    omega

/-! ### `f2i` -/

/-- Truncation toward zero by a positive divisor. -/
theorem tdiv_bounds (v : Int) {d : Int} (hd : 0 < d) :
    |v.tdiv d| * d ≤ |v| ∧ |v| < (|v.tdiv d| + 1) * d ∧ (0 ≤ v → 0 ≤ v.tdiv d) ∧ (v ≤ 0 → v.tdiv d ≤ 0) := by
  have habs : |v.tdiv d| = |v| / d := by
    rw [Int.abs_eq_natAbs, Int.natAbs_tdiv, Int.abs_eq_natAbs]
    show ((v.natAbs / d.natAbs : Nat) : Int) = _
    rw [Int.natCast_ediv, Int.natAbs_of_nonneg hd.le]
  rw [habs]
  refine ⟨Int.ediv_mul_le _ hd.ne', Int.lt_ediv_add_one_mul_self _ hd, fun h => Int.tdiv_nonneg h hd.le, fun h => ?_⟩
  rw [← neg_nonneg, ← Int.neg_tdiv]
  exact Int.tdiv_nonneg (neg_nonneg.2 h) hd.le

theorem f2i_of_notNaN {v : F32} (h : isNaN v = false) : f2i v = saturate ((value v).tdiv unitsPerOne) := by
  rw [f2i, h, if_neg Bool.false_ne_true]

/-- Settles O42: the examples by computation, and the bounds of the truncated quotient against the limits of saturation. -/
theorem f2iTruncatesAndSaturates : Obligations.F2iTruncatesAndSaturates := by
  refine ⟨by decide, fun v => ⟨fun hnan => ?nan, fun hnan hv => ?above, fun hnan hv => ?below, fun hnan hv => ?inside⟩⟩
  case nan => rw [f2i, hnan, if_pos rfl]
  all_goals
    rw [f2i_of_notNaN hnan]
    obtain ⟨hlow, hhigh, hnonneg, hnonpos⟩ := tdiv_bounds (value v) unitsPerOne_pos
    obtain ⟨htop, hbottom, hbetween⟩ := saturate_toInt ((value v).tdiv unitsPerOne)
  case above =>
    have hv0 : 0 ≤ value v := le_trans (by decide) hv
    rw [abs_of_nonneg hv0] at hhigh
    have hq := lt_of_mul_lt_mul_right (hv.trans_lt hhigh) unitsPerOne_pos.le
    rw [abs_of_nonneg (hnonneg hv0)] at hq
    exact htop (by omega)
  case below =>
    have hv0 : value v ≤ 0 := hv.trans (by decide)
    rw [abs_of_nonpos hv0] at hhigh
    have hq := lt_of_mul_lt_mul_right ((le_neg_of_le_neg hv).trans_lt hhigh) unitsPerOne_pos.le
    rw [abs_of_nonpos (hnonpos hv0)] at hq
    exact hbottom (by omega)
  case inside =>
    have hq := lt_of_mul_lt_mul_right (hlow.trans_lt hv) unitsPerOne_pos.le
    obtain ⟨hq1, hq2⟩ := abs_lt.1 hq
    rw [hbetween hq1 hq2]
    exact ⟨hlow, hhigh, hnonneg, hnonpos⟩

/-! ### `ceil_i32` -/

theorem ceilI32_of_notNaN {v : F32} (h : isNaN v = false) :
    ceilI32 v = saturate (-(-value v / (unitsPerOne : Int))) := by
  rw [ceilI32, h, if_neg Bool.false_ne_true]

/-- The least whole number not below `v / d`. -/
theorem neg_neg_ediv_bounds (v : Int) {d : Int} (hd : 0 < d) : v ≤ -(-v / d) * d ∧ (-(-v / d) - 1) * d < v := by
  have hlow := Int.ediv_mul_le (-v) hd.ne'
  have hhigh := Int.lt_ediv_add_one_mul_self (-v) hd
  generalize -v / d = q at *
  constructor <;> linarith

/-- A finite number below a bound of at least `2^24` stands at least 1.0 below it: so far from zero it is whole. -/
theorem magnitude_le_of_lt {a : F32} {k : Nat} (ha : isFinite a = true) (hk : 2 ^ 24 ≤ k)
    (h : magnitude a < k * unitsPerOne) : magnitude a ≤ (k - 1) * unitsPerOne := by
  obtain ⟨m, e, hmag, hm, -, -⟩ := magnitude_form a ha
  rw [hmag] at h ⊢
  rcases Nat.lt_or_ge e 149 with he | he
  · exact Nat.mul_le_mul (by omega) (Nat.pow_le_pow_right (by decide) he.le)
  · have hsplit : m * 2 ^ e = m * 2 ^ (e - 149) * unitsPerOne := by
      rw [unitsPerOne, Nat.mul_assoc, ← Nat.pow_add, Nat.sub_add_cancel he]
    rw [hsplit] at h ⊢
    exact Nat.mul_le_mul_right _ (Nat.le_sub_one_of_lt (Nat.lt_of_mul_lt_mul_right h))

/-- What lies strictly between infinities is finite. -/
theorem isFinite_of_abs_lt {a : F32} (hnan : isNaN a = false) (h : |value a| < 2 ^ 277) : isFinite a = true := by
  rcases classify a with ⟨hnan', -⟩ | ⟨-, hinf, -⟩ | ⟨-, -, hfin⟩
  · rw [hnan'] at hnan
    cases hnan
  · rw [abs_value, magnitude_of_isInf hinf] at h
    exact absurd h (by norm_num)
  · exact hfin

/-- Settles O43: the examples by computation, and the bounds of the quotient rounded up against the limits of saturation. -/
theorem ceilIsTheLeastIntegerAbove : Obligations.CeilIsTheLeastIntegerAbove := by
  refine ⟨by decide, fun v => ⟨fun hnan => ?nan, fun hnan hv => ?above, fun hnan hv => ?below, fun hnan hv => ?inside⟩⟩
  case nan => rw [ceilI32, hnan, if_pos rfl]
  all_goals
    rw [ceilI32_of_notNaN hnan]
    obtain ⟨hlow, hhigh⟩ := neg_neg_ediv_bounds (value v) unitsPerOne_pos
    obtain ⟨htop, hbottom, hbetween⟩ := saturate_toInt (-(-value v / (unitsPerOne : Int)))
  case above => exact htop (le_of_mul_le_mul_right (hv.trans hlow) unitsPerOne_pos)
  case below =>
    rw [← neg_mul] at hv
    have hq := lt_of_mul_lt_mul_right (hhigh.trans_le hv) unitsPerOne_pos.le
    exact hbottom (by omega)
  case inside =>
    have hbound : 2 ^ 31 * (unitsPerOne : Int) = 2 ^ 180 := by decide
    have hfin := isFinite_of_abs_lt hnan ((hbound ▸ hv).trans (pow_lt_pow_right₀ one_lt_two (by norm_num)))
    have hmag : magnitude v < 2 ^ 31 * unitsPerOne := by rw [abs_value] at hv; exact_mod_cast hv
    have hwhole : |value v| ≤ 2147483647 * (unitsPerOne : Int) := by
      rw [abs_value]
      exact_mod_cast magnitude_le_of_lt hfin (by norm_num) hmag
    obtain ⟨hv1, hv2⟩ := abs_le.1 hwhole
    rw [← neg_mul] at hv1
    have hq1 := le_of_mul_le_mul_right (hv1.trans hlow) unitsPerOne_pos
    have hq2 := lt_of_mul_lt_mul_right (hhigh.trans_le hv2) unitsPerOne_pos.le
    rw [hbetween (by omega) (by omega)]
    exact ⟨hlow, hhigh⟩

end Sys2Proof.Proofs
end

section
/-! SUPPORT. What a correctly rounded result is when the exact one is representable or lies beside a representable one
(rule R156), and what follows for slopes (rules R154, R155). -/

namespace Sys2Proof.Proofs

open Sys2Proof Sys2Proof.Machine

/-! ### Representable numbers -/

/-- Every significand below `2^24` with an exponent up to 253 is a magnitude: shift it up until it is full. -/
theorem exists_magnitude (neg : Bool) (e : Nat) : ∀ q : Nat, q < 2 ^ 24 → e ≤ 253 →
    ∃ c, isFinite c = true ∧ magnitude c = q * 2 ^ e ∧ signField c = neg := by
  induction e with
  | zero => exact fun q hq _ => ⟨_, withSign_value neg 0 q hq.le (.inl rfl) (by omega)⟩
  | succ e ih =>
    intro q hq he
    by_cases hfull : 2 ^ 23 ≤ q
    · exact ⟨_, withSign_value neg (e + 1) q hq.le (.inr hfull) (by omega)⟩
    · obtain ⟨c, hfin, hmag, hsign⟩ := ih (2 * q) (by omega) (by omega)
      exact ⟨c, hfin, by rw [hmag, Nat.pow_succ]; ring, hsign⟩

/-- Every whole number below `2^24` times a power of two is a finite number. -/
theorem exists_finite {n : Int} {e : Nat} (hn : n.natAbs < 2 ^ 24) (he : e ≤ 253) :
    ∃ c, isFinite c = true ∧ value c = n * 2 ^ e := by
  obtain ⟨c, hfin, hmag, hsign⟩ := exists_magnitude (decide (n < 0)) e n.natAbs hn he
  refine ⟨c, hfin, ?_⟩
  rw [value_eq, hsign, hmag, Nat.cast_mul, Nat.cast_pow, Nat.cast_ofNat]
  rcases lt_or_ge n 0 with hneg | hpos
  · rw [decide_eq_true hneg, if_pos rfl, Int.ofNat_natAbs_of_nonpos hneg.le, neg_mul, neg_neg]
  · rw [decide_eq_false hpos.not_gt, if_neg Bool.false_ne_true, Int.natAbs_of_nonneg hpos]

theorem magnitude_lt_overflowLimit {a : F32} (ha : isFinite a = true) : magnitude a < overflowLimit := by
  obtain ⟨m, e, hmag, hm, he, -⟩ := magnitude_form a ha
  calc
    magnitude a = m * 2 ^ e := hmag
    _ ≤ (2 ^ 24 - 1) * 2 ^ 253 := Nat.mul_le_mul (Nat.le_sub_one_of_lt hm) (Nat.pow_le_pow_right (by decide) he)
    _ < overflowLimit := by decide

/-! ### Correctly rounded results -/

section
variable {r c : F32} {num : Int}

/-- A representable result is exact. -/
theorem roundsTo_exact {den : Nat} (h : RoundsTo r num den) (hden : 0 < den) (hc : isFinite c = true) (hv : value c * den = num) :
    isFinite r = true ∧ value r = value c := by
  have hnum : num.natAbs = magnitude c * den := by rw [← hv, Int.natAbs_mul, value_natAbs, Int.natAbs_natCast]
  have hr : isFinite r = true := h.finite.2 (hnum ▸ Nat.mul_lt_mul_of_pos_right (magnitude_lt_overflowLimit hc) hden)
  refine ⟨hr, ?_⟩
  have hnearest := h.nearest hr c hc
  rw [hv, sub_self, abs_zero, abs_nonpos_iff, sub_eq_zero, ← hv] at hnearest
  exact mul_right_cancel₀ (Nat.cast_ne_zero.2 hden.ne') hnearest

section
variable (h : RoundsTo r num 1) (hr : isFinite r = true) (hc : isFinite c = true)
include h hr hc

theorem roundsTo_nearest_whole : |value r - num| ≤ |value c - num| := by
  simpa only [Nat.cast_one, mul_one] using h.nearest hr c hc

/-- Rounding does not pass a representable number from above. -/
theorem roundsTo_ge_of_ge (hv : value c ≤ num) : value c ≤ value r := by
  have hnearest := roundsTo_nearest_whole h hr hc
  rw [abs_of_nonpos (sub_nonpos.2 hv)] at hnearest
  have hlow := (abs_le.1 hnearest).1
  omega

/-- Rounding does not pass a representable number from below. -/
theorem roundsTo_le_of_le (hv : num ≤ value c) : value r ≤ value c := by
  have hnearest := roundsTo_nearest_whole h hr hc
  rw [abs_of_nonneg (sub_nonneg.2 hv)] at hnearest
  have hhigh := (abs_le.1 hnearest).2
  omega

end

/-- Only zero units round to zero: one unit is representable. -/
theorem roundsTo_value_eq_zero_iff (h : RoundsTo r num 1) : value r = 0 ↔ num = 0 := by
  constructor
  · intro hzero
    have hr : isFinite r = true := isFinite_of_abs_lt h.notNaN (by rw [hzero, abs_zero]; positivity)
    by_contra hnum
    rcases lt_or_gt_of_ne hnum with hneg | hpos
    · obtain ⟨c, hc, hv⟩ := exists_finite (n := -1) (e := 0) (by decide) (by decide)
      have := roundsTo_le_of_le h hr hc (by omega)
      omega
    · obtain ⟨c, hc, hv⟩ := exists_finite (n := 1) (e := 0) (by decide) (by decide)
      have := roundsTo_ge_of_ge h hr hc (by omega)
      omega
  · rintro rfl
    have hexact := roundsTo_exact h Nat.one_pos (zero_value false).1 (by rw [(zero_value false).2, zero_mul])
    rw [hexact.2, (zero_value false).2]

end

/-! ### Slopes -/

/-- The check of rule R154 is whether the two y are equal: their difference rounds to zero only when it is zero. -/
theorem edgeSlope_eq {s : State} {a b : Word} (ha : isFinite (vy s a) = true) (hb : isFinite (vy s b) = true) :
    edgeSlope s a b =
      if value (vy s b) = value (vy s a) then 0#32 else fdiv (fsub (vx s b) (vx s a)) (fsub (vy s b) (vy s a)) := by
  have hround := roundsTo_fsub hb ha
  obtain ⟨-, -, -, hfeq⟩ := comparisons_eq_decide hround.notNaN (show isNaN 0#32 = false by decide)
  rw [show value 0#32 = 0 by decide] at hfeq
  simp only [edgeSlope, hfeq, decide_eq_true_eq, roundsTo_value_eq_zero_iff hround, sub_eq_zero]

/-- Settles O45: `edgeSlope_eq` in its two cases, and the divisor is the rounded difference of different numbers. -/
theorem slopeNeverDividesByZero : Obligations.SlopeNeverDividesByZero := by
  intro s a b ha hb
  rw [edgeSlope_eq ha hb]
  refine ⟨fun heq => if_pos heq, fun hne => ⟨if_neg hne, ?_⟩⟩
  rw [Ne, roundsTo_value_eq_zero_iff (roundsTo_fsub hb ha), sub_eq_zero]
  exact hne

end Sys2Proof.Proofs
end

section
/-! SUPPORT. The bounds of a row (rule R162): for `v` from 0 up to `2^23`, `f2i(fadd(v, 0.5))` is the whole part of the exact
`v + 0.5`, because the sum is rounded to a number with the same whole part, at every `v` but `0x3EFFFFFF`. -/

namespace Sys2Proof.Proofs

open Sys2Proof Sys2Proof.Machine

theorem half_value : isFinite half = true ∧ value half = 2 ^ 148 := by decide

theorem unitsPerOne_eq : (unitsPerOne : Int) = 2 * 2 ^ 148 := by decide

/-- `f2i` of a number that is not negative is its whole part. -/
theorem f2i_toInt_of_between {r : F32} {n : Int} (hnan : isNaN r = false) (hn : 0 ≤ n) (hn31 : n < 2 ^ 31)
    (hlow : n * unitsPerOne ≤ value r) (hhigh : value r < (n + 1) * unitsPerOne) : (f2i r).toInt = n := by
  have hr : 0 ≤ value r := (mul_nonneg hn unitsPerOne_pos.le).trans hlow
  have hle := Int.le_ediv_of_mul_le unitsPerOne_pos hlow
  have hlt := Int.ediv_lt_of_lt_mul unitsPerOne_pos hhigh
  have hquotient : (value r).tdiv unitsPerOne = n := by
    rw [Int.tdiv_eq_ediv_of_nonneg hr]
    omega
  rw [f2i_of_notNaN hnan, hquotient]
  exact (saturate_toInt n).2.2 (by omega) hn31

/-- A pattern is its three fields (rule R93). -/
theorem toNat_eq_fields (a : F32) : a.toNat = (if signField a then 2 ^ 31 else 0) + expField a * 2 ^ 23 + fracField a := by
  have hlt := a.isLt
  rw [expField_eq, fracField_eq, signField_eq]
  by_cases h : 2 ^ 31 ≤ a.toNat
  · rw [decide_eq_true h, if_pos rfl]
    omega
  · rw [decide_eq_false h, if_neg Bool.false_ne_true]
    omega

/-- The number just below 0.5 is `0x3EFFFFFF`, and the one before it is a whole step of `2^-25` lower. -/
theorem value_le_of_lt_half {v : F32} (hlt : value v < 2 ^ 148) (hne : v ≠ 0x3EFFFFFF#32) :
    value v ≤ 16777214 * 2 ^ 124 := by
  by_contra hgt
  have hpos : 0 < value v := lt_trans (by decide) (not_le.1 hgt)
  have hsign : signField v = false := by
    rw [signField_of_value_ne_zero hpos.ne', decide_eq_false hpos.not_gt]
  have hmag : value v = magnitude v := by rw [value_eq, hsign, if_neg Bool.false_ne_true]
  have hfrac : fracField v < 2 ^ 23 := by rw [fracField_eq]; exact Nat.mod_lt _ (by decide)
  have hhigh : magnitude v < 2 ^ 148 := by rw [hmag] at hlt; exact_mod_cast hlt
  have hlow : 16777214 * 2 ^ 124 < magnitude v := by rw [hmag, not_le] at hgt; exact_mod_cast hgt
  unfold magnitude at hhigh hlow
  split at hlow
  case isTrue h0 => omega
  case isFalse h0 =>
    rw [if_neg h0] at hhigh
    have hexp : expField v = 125 := by
      rcases Nat.lt_trichotomy (expField v) 125 with hless | heq | hmore
      · have := Nat.mul_le_mul (show 2 ^ 23 + fracField v ≤ 2 ^ 24 by omega)
          (Nat.pow_le_pow_right Nat.two_pos (show expField v - 1 ≤ 123 by omega))
        omega
      · exact heq
      · have := Nat.mul_le_mul (show 2 ^ 23 ≤ 2 ^ 23 + fracField v by omega)
          (Nat.pow_le_pow_right Nat.two_pos (show 125 ≤ expField v - 1 by omega))
        omega
    rw [hexp] at hlow
    have hbits := toNat_eq_fields v
    rw [hsign, if_neg Bool.false_ne_true, hexp] at hbits
    exact hne (BitVec.eq_of_toNat_eq (show v.toNat = 0x3EFFFFFF by omega))

/-- From 1.0 on, `v + 0.5` is a number when it has the whole part of `v`: it lies in the same binade. -/
theorem exists_finite_add_half {v : F32} {n : Int} (hfin : isFinite v = true) (hv0 : (unitsPerOne : Int) ≤ value v)
    (hv23 : value v < 2 ^ 23 * (unitsPerOne : Int)) (hn : n * unitsPerOne ≤ value v)
    (hsum : value v + 2 ^ 148 < (n + 1) * unitsPerOne) : ∃ c, isFinite c = true ∧ value c = value v + 2 ^ 148 := by
  obtain ⟨m, e, hmag, hm, -, hfull⟩ := magnitude_form v hfin
  have hv : value v = m * 2 ^ e := by
    rw [← abs_of_nonneg (unitsPerOne_pos.le.trans hv0), abs_value, hmag, Nat.cast_mul, Nat.cast_pow, Nat.cast_ofNat]
  have he : 125 ≤ e ∧ e ≤ 148 := by
    rw [hv] at hv0 hv23
    constructor <;> by_contra hout
    · have := Nat.mul_le_mul hm.le (Nat.pow_le_pow_right Nat.two_pos (show e ≤ 124 by omega))
      exact absurd hv0 (not_le.2 (by exact_mod_cast this.trans_lt (by decide)))
    · have := Nat.mul_le_mul (hfull.resolve_left (by omega)) (Nat.pow_le_pow_right Nat.two_pos (show 149 ≤ e by omega))
      exact absurd hv23 (not_lt.2 (by exact_mod_cast this))
  have hhalf : (2 : Int) ^ (148 - e) * 2 ^ e = 2 ^ 148 := by rw [← pow_add, Nat.sub_add_cancel he.2]
  have hbinade : (2 : Int) ^ 24 * 2 ^ e = 2 ^ (e - 125) * unitsPerOne := by
    rw [unitsPerOne, Nat.cast_pow, Nat.cast_ofNat, ← pow_add, ← pow_add,
      show 24 + e = e - 125 + 149 by omega]
  have hsplit : value v + 2 ^ 148 = (m + 2 ^ (148 - e)) * 2 ^ e := by rw [hv, add_mul, hhalf]
  have hfits : (m : Int) + 2 ^ (148 - e) < 2 ^ 24 := by
    by_contra hover
    have hbelow : n * (unitsPerOne : Int) < 2 ^ (e - 125) * unitsPerOne := by
      rw [← hbinade]
      refine (hn.trans_eq hv).trans_lt (mul_lt_mul_of_pos_right ?_ (by positivity))
      exact_mod_cast hm
    have habove : 2 ^ (e - 125) * (unitsPerOne : Int) < (n + 1) * unitsPerOne := by
      rw [← hbinade]
      exact (mul_le_mul_of_nonneg_right (not_lt.1 hover) (by positivity)).trans_lt (hsplit ▸ hsum)
    have h1 := lt_of_mul_lt_mul_right hbelow unitsPerOne_pos.le
    have h2 := lt_of_mul_lt_mul_right habove unitsPerOne_pos.le
    omega
  rw [hsplit]
  have hpos : (0 : Int) < 2 ^ (148 - e) := by positivity
  exact exists_finite (by omega) (by omega)

/-! ### The rounded sum -/

section
variable {v : F32} {n : Int} (hfin : isFinite v = true) (hv23 : value v < 2 ^ 23 * (unitsPerOne : Int)) (hn : 0 ≤ n)
  (hhigh : value v + 2 ^ 148 < (n + 1) * unitsPerOne)
include hfin hv23 hn hhigh

/-- Beyond half of the way to the next whole number a representable number lies between `v + 0.5` and that whole number. -/
theorem exists_finite_above (hv0 : 0 ≤ value v) (hne : v ≠ 0x3EFFFFFF#32) (hfrac : n * unitsPerOne ≤ value v) :
    ∃ c, isFinite c = true ∧ value v + 2 ^ 148 ≤ value c ∧ value c < (n + 1) * unitsPerOne := by
  have hunits := unitsPerOne_eq
  by_cases hhalf : value v < 2 ^ 148
  · obtain ⟨c, hc, hvc⟩ := exists_finite (n := 16777215) (e := 125) (by decide) (by decide)
    have hv := value_le_of_lt_half hhalf hne
    have hone : (unitsPerOne : Int) ≤ (n + 1) * unitsPerOne := le_mul_of_one_le_left unitsPerOne_pos.le (by omega)
    exact ⟨c, hc, by omega, by omega⟩
  · have hn1 : 1 ≤ n := by
      by_contra hless
      rw [show n = 0 by omega, zero_add, one_mul] at hhigh
      omega
    have hone : (unitsPerOne : Int) ≤ value v := (le_mul_of_one_le_left unitsPerOne_pos.le hn1).trans hfrac
    obtain ⟨c, hc, hvc⟩ := exists_finite_add_half hfin hone hv23 hfrac hhigh
    exact ⟨c, hc, hvc.ge, hvc ▸ hhigh⟩

/-- The sum is rounded to a number with the whole part of the exact sum. -/
theorem fadd_half_between (hv0 : 0 ≤ value v) (hne : v ≠ 0x3EFFFFFF#32) (hlow : n * unitsPerOne ≤ value v + 2 ^ 148) :
    n * unitsPerOne ≤ value (fadd v half) ∧ value (fadd v half) < (n + 1) * unitsPerOne := by
  have hunits := unitsPerOne_eq
  have hround := roundsTo_fadd hfin half_value.1
  rw [half_value.2] at hround
  have hr : isFinite (fadd v half) = true := hround.finite.2 (by
    have hlimit : (2 ^ 173 : Nat) ≤ overflowLimit * 1 := by decide
    omega)
  have hn24 : n.natAbs < 2 ^ 24 := by
    have h := lt_of_mul_lt_mul_right (hlow.trans_lt (show value v + 2 ^ 148 < 2 ^ 24 * (unitsPerOne : Int) by omega))
      unitsPerOne_pos.le
    omega
  obtain ⟨c, hc, hvc⟩ := exists_finite (e := 149) hn24 (by decide)
  replace hvc : value c = n * unitsPerOne := by rw [hvc, unitsPerOne, Nat.cast_pow, Nat.cast_ofNat]
  refine ⟨hvc ▸ roundsTo_ge_of_ge hround hr hc (hvc ▸ hlow), ?_⟩
  by_cases hfrac : n * unitsPerOne ≤ value v
  · obtain ⟨d, hd, hle, hlt⟩ := exists_finite_above hfin hv23 hn hhigh hv0 hne hfrac
    exact (roundsTo_le_of_le hround hr hd hle).trans_lt hlt
  · have hnearest := roundsTo_nearest_whole hround hr hc
    rw [hvc, abs_of_nonpos (sub_nonpos.2 hlow)] at hnearest
    have hup := (abs_le.1 hnearest).2
    rw [add_mul, one_mul]
    omega

end

/-- Settles O44: the exception by computation; at any other number the rounded sum has the whole part of the exact one. -/
theorem boundRoundsHalfUp : Obligations.BoundRoundsHalfUp := by
  refine ⟨by decide, fun v hfin hv0 hv23 hne => ?_⟩
  have hunits := unitsPerOne_eq
  have hexact : (2 * value v + unitsPerOne) / (2 * (unitsPerOne : Int)) = (value v + 2 ^ 148) / unitsPerOne := by
    rw [← Int.mul_ediv_mul_of_pos _ (unitsPerOne : Int) two_pos]
    congr 1
    omega
  have hlow := Int.ediv_mul_le (value v + 2 ^ 148) unitsPerOne_pos.ne'
  have hhigh := Int.lt_ediv_add_one_mul_self (value v + 2 ^ 148) unitsPerOne_pos
  have hn : 0 ≤ (value v + 2 ^ 148) / (unitsPerOne : Int) := Int.ediv_nonneg (by omega) unitsPerOne_pos.le
  rw [hexact]
  generalize (value v + 2 ^ 148) / (unitsPerOne : Int) = n at *
  obtain ⟨h1, h2⟩ := fadd_half_between hfin hv23 hn hhigh hv0 hne hlow
  have hn31 := lt_of_mul_lt_mul_right (hlow.trans_lt (show value v + 2 ^ 148 < 2 ^ 24 * (unitsPerOne : Int) by omega))
    unitsPerOne_pos.le
  exact f2i_toInt_of_between (roundsTo_fadd hfin half_value.1).notNaN hn (by omega) h1 h2

end Sys2Proof.Proofs
end

section
/-! SUPPORT. FILL_POLY on an upright rectangle (rules R163, R167, R175). Whole coordinates make every operation of the walk
exact, so each row of the one band that has rows is drawn from the left edge to the right one. -/

namespace Sys2Proof.Proofs

open Sys2Proof Sys2Proof.Machine

/-! ### Whole numbers -/

/-- A whole number below `2^24` that is the exact result is the result. -/
theorem isWhole_of_roundsTo {r : F32} {num n : Int} (h : RoundsTo r num 1) (hnum : num = n * unitsPerOne) (hn : |n| < 2 ^ 24) :
    IsWhole r n := by
  obtain ⟨c, hc, hvc⟩ := exists_finite (n := n) (e := 149) (by rw [Int.abs_eq_natAbs] at hn; omega) (by decide)
  replace hvc : value c = n * unitsPerOne := by rw [hvc, unitsPerOne, Nat.cast_pow, Nat.cast_ofNat]
  obtain ⟨hr, hvr⟩ := roundsTo_exact h Nat.one_pos hc (by rw [Nat.cast_one, mul_one, hvc, hnum])
  exact ⟨hr, hvr.trans hvc⟩

section
variable {a b : F32} {m n : Int} (ha : IsWhole a m) (hb : IsWhole b n)
include ha hb

theorem isWhole_fadd (hmn : |m + n| < 2 ^ 24) : IsWhole (fadd a b) (m + n) :=
  isWhole_of_roundsTo (roundsTo_fadd ha.1 hb.1) (by rw [ha.2, hb.2, add_mul]) hmn

theorem isWhole_fsub (hmn : |m - n| < 2 ^ 24) : IsWhole (fsub a b) (m - n) :=
  isWhole_of_roundsTo (roundsTo_fsub ha.1 hb.1) (by rw [ha.2, hb.2, sub_mul]) hmn

theorem isWhole_value_le_iff : value a ≤ value b ↔ m ≤ n := by rw [ha.2, hb.2, mul_le_mul_iff_left₀ unitsPerOne_pos]

end

theorem isWhole_value_eq_zero_iff {a : F32} {n : Int} (h : IsWhole a n) : value a = 0 ↔ n = 0 := by
  rw [h.2, mul_eq_zero, or_iff_left unitsPerOne_pos.ne']

theorem isWhole_zero_fdiv {a b : F32} {n : Int} (ha : IsWhole a 0) (hb : IsWhole b n) (hn : n ≠ 0) : IsWhole (fdiv a b) 0 := by
  have hb0 : value b ≠ 0 := mt (isWhole_value_eq_zero_iff hb).1 hn
  have ha0 := (isWhole_value_eq_zero_iff ha).2 rfl
  have hround := roundsTo_fdiv ha.1 hb.1 hb0
  obtain ⟨hr, hvr⟩ := roundsTo_exact hround (Int.natAbs_pos.2 hb0) ha.1 (by rw [ha0, zero_mul, zero_mul, zero_mul])
  exact ⟨hr, hvr.trans ha.2⟩

theorem isWhole_ceilI32 {v : F32} {n : Int} (h : IsWhole v n) (hn : |n| < 2 ^ 31) : (ceilI32 v).toInt = n := by
  have hquotient : -(-value v / (unitsPerOne : Int)) = n := by
    rw [h.2, ← neg_mul, Int.mul_ediv_cancel _ unitsPerOne_pos.ne', neg_neg]
  obtain ⟨hn1, hn2⟩ := abs_lt.1 hn
  rw [ceilI32_of_notNaN (finite_notNaN h.1), hquotient]
  exact (saturate_toInt n).2.2 hn1 hn2

/-- The bound of a row at a whole number (rule R162). Below zero `f2i` goes up to the next whole number, which no pixel index
tells from `n`. -/
theorem isWhole_bound {v : F32} {n : Int} (h : IsWhole v n) (hn : |n| ≤ 2 ^ 20) (x : Nat) :
    (f2i (fadd v half)).toInt ≤ x ↔ n ≤ x := by
  obtain ⟨hn1, hn2⟩ := abs_le.1 hn
  have hunits := unitsPerOne_eq
  obtain ⟨c, hc, hvc⟩ := exists_finite (n := 2 * n + 1) (e := 148) (by omega) (by decide)
  have hround := roundsTo_fadd h.1 half_value.1
  have hexact : value c * (1 : Nat) = value v + value half := by
    rw [hvc, h.2, half_value.2, hunits, Nat.cast_one]
    ring
  have hvalue : value (fadd v half) = (2 * n + 1) * 2 ^ 148 := (roundsTo_exact hround Nat.one_pos hc hexact).2.trans hvc
  rcases lt_or_ge n 0 with hneg | hpos
  · obtain ⟨-, -, -, hinside⟩ := f2iTruncatesAndSaturates.2 (fadd v half)
    obtain ⟨-, -, -, hnonpos⟩ := hinside hround.notNaN (by rw [hvalue, hunits, abs_lt]; omega)
    have hbound := hnonpos (by rw [hvalue]; omega)
    omega
  · rw [f2i_toInt_of_between hround.notNaN hpos (by omega) (by rw [hvalue, hunits]; omega) (by rw [hvalue, hunits]; omega)]

/-! ### Bands with vertical edges -/

/-- Both accumulators are whole and both slopes are zero. -/
structure UprightBand (x0 x1 : Int) (w : Work) : Prop where
  xl : IsWhole w.xl x0
  xr : IsWhole w.xr x1
  sl : IsWhole w.sl 0
  sr : IsWhole w.sr 0

section
variable {x0 x1 : Int} (hx0 : |x0| ≤ 2 ^ 20) (hx1 : |x1| ≤ 2 ^ 20)
include hx0 hx1

theorem uprightBand_row {s : State} (h : UprightBand x0 x1 s.work) : UprightBand x0 x1 (nextRow (drawRow s)).work := by
  have hxl := isWhole_fadd h.xl h.sl (by rw [add_zero]; exact hx0.trans_lt (by norm_num))
  have hxr := isWhole_fadd h.xr h.sr (by rw [add_zero]; exact hx1.trans_lt (by norm_num))
  rw [add_zero] at hxl hxr
  rw [row_work]
  exact ⟨hxl, hxr, h.sl, h.sr⟩

/-- One row is drawn from the left accumulator to the right one. -/
theorem uprightBand_row_pixel {s : State} (h : UprightBand x0 x1 s.work) {y x : Nat} (hy : y < 240) (hx : x < 400) :
    pixel (nextRow (drawRow s)) y x =
      if s.work.y.toInt = y ∧ x0 ≤ x ∧ x < x1 then colourBit s.color x else pixel s y x := by
  show pixel (drawRow s) y x = _
  by_cases hvisible : 0 ≤ s.work.y.toInt ∧ s.work.y.toInt < 240
  · rw [drawRow_visible hvisible, span_pixel _ _ _ _ _ _ _ hy (by omega)]
    have hlow := isWhole_bound h.xl hx0 x
    have hhigh := isWhole_bound h.xr hx1 x
    congr 1
    rw [eq_iff_iff]
    omega
  · rw [drawRow_invisible (by omega), if_neg (by omega)]

theorem uprightBand_pixel {s t : State} (hrun : BandRuns s t) (h : UprightBand x0 x1 s.work) {y x : Nat} (hy : y < 240)
    (hx : x < 400) : pixel t y x =
      if s.work.y.toInt ≤ y ∧ y < s.work.yEnd.toInt ∧ x0 ≤ x ∧ x < x1 then colourBit s.color x else pixel s y x := by
  induction hrun with
  | done hstop => rw [if_neg (by omega)]
  | @row s t hlt _ ih =>
    have hyNext : (nextRow (drawRow s)).work.y.toInt = s.work.y.toInt + 1 := by rw [row_work]; exact toInt_succ _ _ hlt
    have hyEnd : (nextRow (drawRow s)).work.yEnd = s.work.yEnd := by rw [row_work]
    rw [ih (uprightBand_row hx0 hx1 h), uprightBand_row_pixel hx0 hx1 h hy hx, (row_onlyDrawing s).color, hyNext, hyEnd]
    rw [← ite_or]
    congr 1
    rw [eq_iff_iff]
    omega

end

/-! ### The rectangle -/

/-- The polygon of O58: the corners of an upright rectangle, down the left side first. -/
structure Rectangle (x0 x1 y0 y1 : Int) (s : State) : Prop where
  nvert : s.nvert = 4#32
  x_0 : IsWhole (vx s 0) x0
  y_0 : IsWhole (vy s 0) y0
  x_1 : IsWhole (vx s 1) x0
  y_1 : IsWhole (vy s 1) y1
  x_2 : IsWhole (vx s 2) x1
  y_2 : IsWhole (vy s 2) y1
  x_3 : IsWhole (vx s 3) x1
  y_3 : IsWhole (vy s 3) y0

theorem rectangle_onlyDrawing {x0 x1 y0 y1 : Int} {s t : State} (hd : OnlyDrawing s t) (h : Rectangle x0 x1 y0 y1 s) :
    Rectangle x0 x1 y0 y1 t := by
  refine ⟨hd.nvert.trans h.nvert, ?_, ?_, ?_, ?_, ?_, ?_, ?_, ?_⟩ <;> simp only [hd.vx, hd.vy]
  exacts [h.x_0, h.y_0, h.x_1, h.y_1, h.x_2, h.y_2, h.x_3, h.y_3]

/-- A vertical edge has slope zero (rules R154, R155). -/
theorem isWhole_edgeSlope {s : State} {a b : Word} {x ya yb : Int} (hxa : IsWhole (vx s a) x) (hxb : IsWhole (vx s b) x)
    (hya : IsWhole (vy s a) ya) (hyb : IsWhole (vy s b) yb) (hne : yb ≠ ya) (ha : |ya| ≤ 2 ^ 20) (hb : |yb| ≤ 2 ^ 20) :
    IsWhole (edgeSlope s a b) 0 := by
  have hdy : |yb - ya| < 2 ^ 24 := by
    rw [abs_le] at ha hb
    rw [abs_lt]
    omega
  have hdx := isWhole_fsub hxb hxa (by rw [sub_self, abs_zero]; norm_num)
  rw [sub_self] at hdx
  have hslope := (slopeNeverDividesByZero s a b hya.1 hyb.1).2 (by
    rw [hya.2, hyb.2, Ne, mul_left_inj' unitsPerOne_pos.ne']
    exact hne)
  rw [hslope.1]
  exact isWhole_zero_fdiv hdx (isWhole_fsub hyb hya hdy) (sub_ne_zero.2 hne)

theorem vertex_of_lt_four {i : Word} (h : i.toNat < 4) : i = 0 ∨ i = 1 ∨ i = 2 ∨ i = 3 := by
  simp only [← BitVec.toNat_inj]
  show i.toNat = 0 ∨ i.toNat = 1 ∨ i.toNat = 2 ∨ i.toNat = 3
  omega

theorem firstLeast_unique {f : Word → Int} {n : Nat} {b b' : Word} (h : FirstLeast f n b) (h' : FirstLeast f n b') :
    b = b' := by
  refine BitVec.eq_of_toNat_eq ?_
  rcases Nat.lt_trichotomy b.toNat b'.toNat with hlt | heq | hgt
  · exact absurd (h'.first b hlt) (h.least b' h'.lt).not_gt
  · exact heq
  · exact absurd (h.first b' hgt) (h'.least b h.lt).not_gt

/-! ### The walk of a rectangle -/

theorem walk_of_walking (n : Nat) {s : State} (h : walking s = true) : walk (n + 1) s = walk n (walkOnce s) := by
  rw [walk, if_pos h]

theorem walk_of_arrived (n : Nat) {s : State} (h : walking s = false) : walk n s = s := by
  cases n with
  | zero => rfl
  | succ n => rw [walk, h, if_neg Bool.false_ne_true]

theorem walkOnce_left {s : State} (h : leftFirst s = true) : walkOnce s = advanceLeft (fillBand (setBandEnd s)) := by
  rw [walkOnce, h, if_pos rfl]

theorem walkOnce_right {s : State} (h : leftFirst s = false) : walkOnce s = advanceRight (fillBand (setBandEnd s)) := by
  rw [walkOnce, h, if_neg Bool.false_ne_true]

/-- A band whose end is its start has no rows (rule R161). -/
theorem fillBand_empty {s : State} (h : s.work.yEnd.toInt ≤ s.work.y.toInt) : fillBand s = s :=
  (bandRuns_fillBand s).unique (.done (not_lt.2 h))

/-- The left chain stands at the top of the left side, above vertex 1, and no row is filled yet. -/
structure OnLeftSide (x0 y0 : Int) (w : Work) : Prop where
  bot : w.bot = 1
  l : w.l = 0
  ln : w.ln = 1
  xl : IsWhole w.xl x0
  sl : IsWhole w.sl 0
  y : w.y.toInt = y0

/-- The right chain stands at the top of the right side, above vertex 2. -/
structure OnRightSide (x1 : Int) (w : Work) : Prop where
  r : w.r = 3
  rn : w.rn = 2
  xr : IsWhole w.xr x1
  sr : IsWhole w.sr 0

section
variable {s : State} {x0 x1 y0 y1 : Int} (h : Rectangle x0 x1 y0 y1 s) (hy : y0 < y1)
include h hy

/-- The top vertex is vertex 0 and the bottom vertex is vertex 1: the first ones with their y. -/
theorem rectangle_topBottom : (findTopBottom s).work.top = 0 ∧ (findTopBottom s).work.bot = 1 := by
  have hn : s.nvert.toNat = 4 := congrArg BitVec.toNat h.nvert
  have hwhole : ∀ i : Word, i.toNat < 4 → ∃ y, IsWhole (vy s i) y ∧ y0 ≤ y ∧ y ≤ y1 := by
    intro i hi
    rcases vertex_of_lt_four hi with rfl | rfl | rfl | rfl
    exacts [⟨y0, h.y_0, le_rfl, hy.le⟩, ⟨y1, h.y_1, hy.le, le_rfl⟩, ⟨y1, h.y_2, hy.le, le_rfl⟩,
      ⟨y0, h.y_3, le_rfl, hy.le⟩]
  have hnan : ∀ i : Word, i.toNat < s.nvert.toNat → isNaN (vy s i) = false := by
    intro i hi
    obtain ⟨y, hw, -⟩ := hwhole i (hn ▸ hi)
    exact finite_notNaN hw.1
  obtain ⟨htop, hbot⟩ := findTopBottom_extremes (by omega) hnan
  simp only [(findTopBottom_onlyDrawing s).vy, hn] at htop hbot
  refine ⟨firstLeast_unique htop ⟨by decide, fun i hi => ?_, fun i hi => absurd hi (Nat.not_lt_zero _)⟩,
    firstLeast_unique hbot ⟨by decide, fun i hi => ?_, fun i hi => ?_⟩⟩
  · obtain ⟨y, hw, hlow, -⟩ := hwhole i hi
    exact (isWhole_value_le_iff h.y_0 hw).2 hlow
  · obtain ⟨y, hw, -, hhigh⟩ := hwhole i hi
    exact neg_le_neg ((isWhole_value_le_iff hw h.y_1).2 hhigh)
  · have hi0 : i = 0 := BitVec.eq_of_toNat_eq (Nat.lt_one_iff.1 hi)
    rw [hi0, neg_lt_neg_iff, ← not_le, isWhole_value_le_iff h.y_1 h.y_0, not_le]
    exact hy

variable (hy0 : |y0| ≤ 2 ^ 20) (hy1 : |y1| ≤ 2 ^ 20)
include hy0 hy1

/-- Lines F3 to F11. -/
theorem rectangle_start : OnLeftSide x0 y0 (startChains (findTopBottom s)).work ∧
    (startChains (findTopBottom s)).work.r = 0 ∧ (startChains (findTopBottom s)).work.rn = 3 := by
  obtain ⟨htop, hbot⟩ := rectangle_topBottom h hy
  have h' := rectangle_onlyDrawing (findTopBottom_onlyDrawing s) h
  have hslope := isWhole_edgeSlope h'.x_0 h'.x_1 h'.y_0 h'.y_1 hy.ne' hy0 hy1
  have hceil := isWhole_ceilI32 h'.y_0 (by omega)
  have hnext : nextIndex 4#32 0 = 1 := by decide
  have hprev : prevIndex 4#32 0 = 3 := by decide
  simp only [startChains, setWork_work, htop, h'.nvert, hnext, hprev, and_true]
  exact ⟨hbot, rfl, rfl, h'.x_0, hslope, hceil⟩

/-- The first iteration has no rows, because vertex 3 is as high as vertex 0; the right chain advances to vertex 3. -/
theorem rectangle_first_turn (hleft : OnLeftSide x0 y0 s.work) (hr : s.work.r = 0) (hrn : s.work.rn = 3) :
    walking s = true ∧ SameDrawing s (walkOnce s) ∧
    OnLeftSide x0 y0 (walkOnce s).work ∧ OnRightSide x1 (walkOnce s).work := by
  have hnearer := bandEndsAtTheNearerVertex.2 s
  rw [hleft.ln, hrn, isWhole_value_le_iff h.y_1 h.y_3, ← not_le, isWhole_value_le_iff h.y_1 h.y_3] at hnearer
  obtain ⟨hchoice, hend⟩ := (hnearer (finite_notNaN h.y_1.1) (finite_notNaN h.y_3.1)).2 (not_le.2 hy)
  have hempty : (setBandEnd s).work.yEnd.toInt ≤ s.work.y.toInt := by
    rw [hend, isWhole_ceilI32 h.y_3 (by omega), hleft.y]
  have hturn : walkOnce s = advanceRight (setBandEnd s) := by rw [walkOnce_right hchoice, fillBand_empty hempty]
  have hslope : IsWhole (edgeSlope s 3 2) 0 := isWhole_edgeSlope h.x_3 h.x_2 h.y_3 h.y_2 hy.ne' hy0 hy1
  have hprev : prevIndex s.nvert 3 = 2 := by
    rw [h.nvert]
    decide
  have hright : OnRightSide x1 (advanceRight s).work := by
    simp only [advanceRight, setWork_work, hrn, hprev]
    exact ⟨rfl, rfl, h.x_3, hslope⟩
  rw [hturn, walking_iff, hleft.l, hleft.bot, hr]
  exact ⟨by decide, ⟨rfl, rfl, rfl⟩, { hleft with }, { hright with }⟩

end

/-- The second iteration fills the rows from `y0` up to `y1` between the two sides; the left chain arrives at vertex 1. -/
theorem rectangle_second_turn {s : State} {x0 x1 y0 y1 : Int} (h : Rectangle x0 x1 y0 y1 s) (hx0 : |x0| ≤ 2 ^ 20)
    (hx1 : |x1| ≤ 2 ^ 20) (hy1 : |y1| ≤ 2 ^ 20) (hleft : OnLeftSide x0 y0 s.work) (hright : OnRightSide x1 s.work) :
    walking s = true ∧ walking (walkOnce s) = false ∧ ∀ y x : Nat, y < 240 → x < 400 → pixel (walkOnce s) y x =
      if y0 ≤ y ∧ y < y1 ∧ x0 ≤ x ∧ x < x1 then colourBit s.color x else pixel s y x := by
  have hnearer := bandEndsAtTheNearerVertex.2 s
  rw [hleft.ln, hright.rn, isWhole_value_le_iff h.y_1 h.y_2] at hnearer
  obtain ⟨hchoice, hend⟩ := (hnearer (finite_notNaN h.y_1.1) (finite_notNaN h.y_2.1)).1 le_rfl
  have hband := bandRuns_fillBand (setBandEnd s)
  have hkeeps := keepsCursors_filled hband
  have hturn := walkOnce_left hchoice
  refine ⟨?started, ?arrived, fun y x hy240 hx400 => ?pixels⟩
  case started =>
    rw [walking_iff, hleft.l, hleft.bot, hright.r]
    decide
  case arrived =>
    rw [hturn, Bool.eq_false_iff, Ne, walking_iff]
    exact fun hwalking => hwalking.1 ((hkeeps.ln.trans hleft.ln).trans (hkeeps.bot.trans hleft.bot).symm)
  case pixels =>
    have hupright : UprightBand x0 x1 (setBandEnd s).work := ⟨hleft.xl, hright.xr, hleft.sl, hright.sr⟩
    have hpixel := uprightBand_pixel hx0 hx1 hband hupright hy240 hx400
    rw [hend, isWhole_ceilI32 h.y_1 (by omega)] at hpixel
    rw [hturn, ← hleft.y]
    exact hpixel

/-- The whole walk of a rectangle: two iterations, and only the second one draws. -/
theorem rectangle_pixel {s : State} {x0 x1 y0 y1 : Int} (h : Rectangle x0 x1 y0 y1 s) (hy : y0 < y1) (hx0 : |x0| ≤ 2 ^ 20)
    (hx1 : |x1| ≤ 2 ^ 20) (hy0 : |y0| ≤ 2 ^ 20) (hy1 : |y1| ≤ 2 ^ 20) {y x : Nat} (hy240 : y < 240) (hx400 : x < 400) :
    pixel (fillPolygon s) y x =
      if y0 ≤ y ∧ y < y1 ∧ x0 ≤ x ∧ x < x1 then colourBit s.color x else pixel s y x := by
  obtain ⟨hleft, hr, hrn⟩ := rectangle_start h hy hy0 hy1
  have hstart : OnlyDrawing s (startChains (findTopBottom s)) :=
    (findTopBottom_onlyDrawing s).trans (startChains_onlyDrawing _)
  have h1 := rectangle_onlyDrawing hstart h
  obtain ⟨hwalking, hsame, hleft', hright'⟩ := rectangle_first_turn h1 hy hy0 hy1 hleft hr hrn
  have hturn := walkOnce_onlyDrawing (startChains (findTopBottom s))
  obtain ⟨hwalking', harrived, hpixels⟩ :=
    rectangle_second_turn (rectangle_onlyDrawing hturn h1) hx0 hx1 hy1 hleft' hright'
  have hwalk : fillPolygon s = walkOnce (walkOnce (startChains (findTopBottom s))) := by
    have hn : s.nvert.toNat = 4 := congrArg BitVec.toNat h.nvert
    rw [fillPolygon, hn, walk_of_walking 3 hwalking, walk_of_walking 2 hwalking', walk_of_arrived 2 harrived]
  rw [hwalk, hpixels y x hy240 hx400, (hstart.trans hturn).color, pixel_same hsame, pixel_same (startChains_sameDrawing s)]

/-- Settles O58: line F1 goes on, and the walk is that of a rectangle. -/
theorem rectangleFillIsExact : Obligations.RectangleFillIsExact := by
  intro s x0 x1 y0 y1 hpvalid hnvert hx0 hx1 hy0 hy1 hy x_0 y_0 x_1 y_1 x_2 y_2 x_3 y_3
  have hrectangle : Rectangle x0 x1 y0 y1 s.startCommand := ⟨hnvert, x_0, y_0, x_1, y_1, x_2, y_2, x_3, y_3⟩
  have hdrawn : ¬ (s.pvalid = false ∨ s.nvert.toNat < 3) := by
    rw [hpvalid, hnvert]
    decide
  exact ⟨_, exec_fillPoly_drawn hdrawn, fun y x hy240 hx400 => rectangle_pixel hrectangle hy hx0 hx1 hy0 hy1 hy240 hx400⟩

end Sys2Proof.Proofs
end

section
/-! SUPPORT. The polygon slot and the vertex store under the three commands that write them (rules R200 to R204), and everything
that can change `PVALID` or `NVERT` (rule R205). -/

namespace Sys2Proof.Proofs

open Sys2Proof Sys2Proof.Machine

/-! ### The vertex store after a write (rules R34, R35, R202) -/

section
variable (s : State) {i j : Word} (x y : F32)

theorem entryAt_writeVertex_same : entryAt i.toNat (s.writeVertex i x y).store = some ⟨x, y⟩ := by
  rw [writeVertex_store, entryAt_putEntry, if_pos rfl]

theorem entryAt_writeVertex_of_ne (h : j ≠ i) : entryAt j.toNat (s.writeVertex i x y).store = entryAt j.toNat s.store := by
  rw [writeVertex_store, entryAt_putEntry, if_neg (mt BitVec.eq_of_toNat_eq h)]

@[simp] theorem vx_writeVertex_same : vx (s.writeVertex i x y) i = x := by
  rw [vx, entryAt_writeVertex_same]

@[simp] theorem vy_writeVertex_same : vy (s.writeVertex i x y) i = y := by
  rw [vy, entryAt_writeVertex_same]

@[simp] theorem isWritten_writeVertex_same : isWritten (s.writeVertex i x y) i = true := by
  rw [isWritten, entryAt_writeVertex_same]
  rfl

/-- A write leaves every other vertex as it was, and an unwritten one keeps its free bits (log entry 4). -/
theorem vertex_writeVertex_of_ne (h : j ≠ i) :
    vx (s.writeVertex i x y) j = vx s j ∧ vy (s.writeVertex i x y) j = vy s j ∧
      isWritten (s.writeVertex i x y) j = isWritten s j := by
  have hentry := entryAt_writeVertex_of_ne s x y h
  refine ⟨?_, ?_, ?_⟩
  · rw [vx, hentry, writeVertex_slotEpoch, vx]
  · rw [vy, hentry, writeVertex_slotEpoch, vy]
  · rw [isWritten, hentry, isWritten]

end

/-! ### POLY_CREATE and VTX_WRITE, accepted and ignored -/

section
variable {s : State}

theorem exec_polyCreate_accepted (h : s.pvalid = false ∧ 1 ≤ s.arg0.toNat ∧ s.arg0.toNat ≤ s.vtxCap.toNat) :
    exec .polyCreate s = .next (s.startCommand.createSlot s.arg0) := if_pos h

theorem exec_polyCreate_ignored (h : ¬ (s.pvalid = false ∧ 1 ≤ s.arg0.toNat ∧ s.arg0.toNat ≤ s.vtxCap.toNat)) :
    exec .polyCreate s = .next s.startCommand := if_neg h

theorem exec_polyCreate_ignored_of_live (h : s.pvalid = true) : exec .polyCreate s = .next s.startCommand :=
  exec_polyCreate_ignored (by simp [h])

theorem exec_vtxWrite_accepted (h : s.pvalid = true ∧ s.arg0.toNat < s.nvert.toNat) :
    exec .vtxWrite s = .next (s.startCommand.writeVertex s.arg0 s.arg1 s.arg2) := if_pos h

theorem exec_vtxWrite_ignored (h : ¬ (s.pvalid = true ∧ s.arg0.toNat < s.nvert.toNat)) :
    exec .vtxWrite s = .next s.startCommand := if_neg h

theorem exec_vtxWrite_ignored_of_empty (h : s.pvalid = false) : exec .vtxWrite s = .next s.startCommand :=
  exec_vtxWrite_ignored (by simp [h])

/-- A good slot that is empty holds nothing that emptying it could change (rule R204). -/
theorem destroySlot_of_empty (hempty : s.pvalid = false) (h : SlotOk s) : s.destroySlot = s := by
  have hnvert : s.nvert = 0#32 := h.empty hempty
  have hstore : s.store = [] := List.eq_nil_iff_forall_not_mem.2 fun e he => by
    have hlt := h.written e he
    rw [hnvert] at hlt
    exact Nat.not_lt_zero _ hlt
  change ({ s with pvalid := false, nvert := 0#32, store := [] } : State) = s
  rw [← hempty, ← hnvert, ← hstore]

end

/-! ### The obligations on the three commands -/

/-- Settles O17: the check of rule R200 passes or fails, and an accepted POLY_CREATE is `createSlot`. -/
theorem polyCreateMakesTheSlotLive : Obligations.PolyCreateMakesTheSlotLive :=
  ⟨fun _ hempty hpos hcap => ⟨_, exec_polyCreate_accepted ⟨hempty, hpos, hcap⟩, rfl, rfl, isWritten_of_store_nil rfl, rfl, rfl⟩,
    fun _ => exec_polyCreate_ignored⟩

/-- Settles O18: each corner case fails the check of rule R200, and with one or two vertices FILL_POLY returns at line F1. -/
theorem polyCreateCornerCases : Obligations.PolyCreateCornerCases := by
  refine ⟨fun s hcorner => exec_polyCreate_ignored ?ignored, fun s hempty hn hcap => ?small⟩
  case ignored =>
    rintro ⟨hempty, hpos, hle⟩
    rcases hcorner with hzero | hbig | hlive
    · simp [hzero] at hpos
    · omega
    · simp [hlive] at hempty
  case small =>
    have hbounds : 1 ≤ s.arg0.toNat ∧ s.arg0.toNat < 3 := by
      rcases hn with hn | hn <;> rw [hn] <;> decide
    exact ⟨_, exec_polyCreate_accepted ⟨hempty, hbounds.1, by omega⟩, rfl, rfl, exec_fillPoly_ignored (.inr hbounds.2)⟩

/-- Settles O19: an accepted VTX_WRITE is `writeVertex`, which leaves the other vertices alone. -/
theorem vtxWriteStoresTheVertex : Obligations.VtxWriteStoresTheVertex :=
  ⟨fun _ hlive hindex => ⟨_, exec_vtxWrite_accepted ⟨hlive, hindex⟩, vx_writeVertex_same _ _ _, vy_writeVertex_same _ _ _,
      isWritten_writeVertex_same _ _ _, fun _ hj => vertex_writeVertex_of_ne _ _ _ hj, rfl⟩,
    fun _ => exec_vtxWrite_ignored⟩

/-- Settles O20: the slot stays live and `ARG0` stays, so the second write is accepted as well. -/
theorem vtxWriteCornerCases : Obligations.VtxWriteCornerCases := by
  refine ⟨fun s hcorner => exec_vtxWrite_ignored ?_, fun s x y hlive hindex => ?_⟩
  · rintro ⟨hlive, hindex⟩
    rcases hcorner with hempty | hbig
    · simp [hempty] at hlive
    · omega
  · have hfirst := exec_vtxWrite_accepted ⟨hlive, hindex⟩
    have hsecond := exec_vtxWrite_accepted
      (s := { s.startCommand.writeVertex s.arg0 s.arg1 s.arg2 with arg1 := x, arg2 := y }) ⟨hlive, hindex⟩
    exact ⟨_, _, hfirst, hsecond, vx_writeVertex_same _ _ _, vy_writeVertex_same _ _ _⟩

/-! ### What a command does to the slot -/

/-- `t` has the `PVALID` and the `NVERT` of `s`. -/
structure SameSlot (s t : State) : Prop where
  pvalid : t.pvalid = s.pvalid
  nvert : t.nvert = s.nvert

/-- What a command that takes `s` to `t` can do to the slot (rule R205); `exec_slotEffect` says that it is all. -/
inductive SlotEffect (s t : State) : Instr → Prop where
  | kept {i : Instr} (h : SameSlot s t) : SlotEffect s t i
  | created (hempty : s.pvalid = false) (hlive : t.pvalid = true) (hstore : t.store = []) : SlotEffect s t .polyCreate
  | destroyed (hempty : t.pvalid = false) (hnvert : t.nvert = 0#32) : SlotEffect s t .polyDestroy

theorem exec_slotEffect {i : Instr} {s t : State} (hexec : exec i s = .next t) : SlotEffect s t i := by
  cases i with
  | polyCreate =>
    rcases execPolyCreate_cases s with ⟨⟨hempty, -, -⟩, ht⟩ | ⟨-, ht⟩ <;> cases ht.symm.trans hexec
    · exact .created hempty rfl rfl
    · exact .kept ⟨rfl, rfl⟩
  | vtxWrite => rcases execVtxWrite_cases s with ⟨-, ht⟩ | ⟨-, ht⟩ <;> cases ht.symm.trans hexec <;> exact .kept ⟨rfl, rfl⟩
  | polyDestroy =>
    cases (exec_polyDestroy s).symm.trans hexec
    exact .destroyed rfl rfl
  | drawSpan =>
    cases (exec_drawSpan s).symm.trans hexec
    have hdrawn := span_onlyDrawing s.arg0 s.arg1 s.arg2 s.color s.startCommand
    exact .kept ⟨hdrawn.pvalid, hdrawn.nvert⟩
  | fillPoly =>
    rcases execFillPoly_cases s with ⟨-, ht⟩ | ⟨-, ht⟩ <;> cases ht.symm.trans hexec
    · exact .kept ⟨rfl, rfl⟩
    · have hdrawn := fillPolygon_onlyDrawing s.startCommand
      exact .kept ⟨hdrawn.pvalid, hdrawn.nvert⟩

/-- Settles O21: POLY_DESTROY is `destroySlot`, the check of VTX_WRITE and of FILL_POLY fails on an empty slot, and the one
command whose effect makes an empty slot live is POLY_CREATE. -/
theorem polyDestroyEmptiesTheSlot : Obligations.PolyDestroyEmptiesTheSlot := by
  refine ⟨fun s => ⟨_, exec_polyDestroy s, rfl, rfl, isWritten_of_store_nil rfl, rfl, ?onEmpty⟩, ?idle, ?revived⟩
  case onEmpty => exact fun hempty h => destroySlot_of_empty hempty (slotOk_startCommand h)
  case idle => exact fun s hempty => ⟨exec_vtxWrite_ignored_of_empty hempty, exec_fillPoly_ignored (.inl hempty)⟩
  case revived =>
    intro i s t hempty hexec hlive
    cases exec_slotEffect hexec with
    | kept h => simp [h.pvalid, hempty] at hlive
    | created _ _ hstore => exact ⟨rfl, isWritten_of_store_nil hstore⟩
    | destroyed hdestroyed => simp [hdestroyed] at hlive

/-! ### What a step does to the slot (rule R205) -/

theorem IssueEffect.slotOk {u t : State} (heffect : IssueEffect u t) (h : SlotOk u) : SlotOk t := by
  cases heffect with
  | command i hexec => exact exec_slotOk h hexec
  | reservedWord => exact slotOk_startCommand h

theorem HostEffect.slotOk {u t : State} (heffect : HostEffect u t) (h : SlotOk u) : SlotOk t := by
  cases heffect with
  | registers ht =>
    rw [ht]
    exact slotOk_congr h rfl rfl rfl rfl
  | issued hissue => exact hissue.slotOk h
  | hostByte => exact slotOk_congr h rfl rfl rfl rfl
  | reset => exact slotOk_resetBlock u
  | resetDuring => exact slotOk_resetBlock _

theorem step_slotOk {s t : State} (h : SlotOk s) (hstep : step s = .next t) : SlotOk t := by
  rcases step_effect hstep with rfl | ⟨rest, heffect⟩
  · exact h
  · exact heffect.slotOk (slotOk_congr h rfl rfl rfl rfl)

/-- Only a 32-bit access at offset 0 reaches `CMD` (rules R21, R22). -/
theorem eq_of_reached_cmd {size o : Nat} (h : reached size o = .ok .cmd) : size = 4 ∧ o = 0 := by
  have honly : ∀ o < 64, regAt o = some .cmd → o = 0 := by decide
  unfold reached at h
  split at h
  · cases h
  · split at h
    · split at h <;> cases h
      exact ⟨‹_›, honly o (Nat.not_le.1 ‹_›) ‹_›⟩
    · cases h

/-- A store to any register but `CMD` keeps the slot. -/
theorem writeReg_sameSlot {u t : State} {v : Word} {r : Reg} (hr : r ≠ .cmd) (h : writeReg u v r = .next t) : SameSlot u t := by
  cases r
  case cmd => exact absurd rfl hr
  all_goals
    cases h
    exact ⟨rfl, rfl⟩

/-- A command word keeps the slot or has the effect of the command it encodes. -/
theorem issue_slotEffect {w : Word} {u t : State} (h : issue w u = .next t) :
    SameSlot u t ∨ ∃ i, w = encode i ∧ SlotEffect u t i := by
  cases hdecode : decode w with
  | ok i =>
    rw [issue_of_decode hdecode] at h
    exact .inr ⟨i, eq_encode_of_decode hdecode, exec_slotEffect h⟩
  | error e =>
    cases (issue_of_reserved hdecode u).symm.trans h
    exact .inl ⟨rfl, rfl⟩

/-- A store keeps the slot, or it is a `CMD` write with the effect of the command it encodes. -/
theorem store_slotEffect {size o : Nat} {v : Word} {u t : State} (h : hostAccess (.store size o v) u = .next t) :
    SameSlot u t ∨ ∃ i, HostAccess.store size o v = .store 4 0 (encode i) ∧ SlotEffect u t i := by
  simp only [hostAccess] at h
  split at h
  case h_2 => cases h
  case h_1 r hreached =>
    by_cases hr : r = .cmd
    · subst hr
      obtain ⟨rfl, rfl⟩ := eq_of_reached_cmd hreached
      rcases issue_slotEffect h with hsame | ⟨i, rfl, heffect⟩
      · exact .inl hsame
      · exact .inr ⟨i, rfl, heffect⟩
    · exact .inl (writeReg_sameSlot hr h)

/-- A host access keeps the slot, or it is a `CMD` write with the effect of the command it encodes, or it is a reset event and
empties the slot. -/
theorem hostAccess_slotEffect {a : HostAccess} {u t : State} (h : hostAccess a u = .next t) :
    SameSlot u t ∨ (∃ i, a = .store 4 0 (encode i) ∧ SlotEffect u t i) ∨
      ((a = .reset ∨ ∃ w n, a = .resetDuring w n) ∧ t.pvalid = false ∧ t.nvert = 0#32) := by
  cases a with
  | store size o v => exact (store_slotEffect h).imp_right .inl
  | load size o =>
    simp only [hostAccess] at h
    split at h <;> cases h
    exact .inl ⟨rfl, rfl⟩
  | memStore | memLoad =>
    cases h
    exact .inl ⟨rfl, rfl⟩
  | reset =>
    cases h
    exact .inr (.inr ⟨.inl rfl, rfl, rfl⟩)
  | resetDuring w n =>
    simp only [hostAccess] at h
    split at h <;> cases h
    exact .inr (.inr ⟨.inr ⟨w, n, rfl⟩, rfl, rfl⟩)

theorem step_idle {s : State} (h : s.bus = []) : step s = .next s := by
  rw [step, stepHost, h]

/-- Every `CMD` write completes: a command ends normally and a reserved word is ignored (rules R95, R250). -/
theorem issue_total (w : Word) (s : State) : ∃ t, issue w s = .next t := by
  cases hdecode : decode w with
  | ok i =>
    rw [issue_of_decode hdecode]
    exact exec_total i s
  | error e => exact ⟨_, issue_of_reserved hdecode s⟩

/-- A reset during a command completes too: the command it ends would have completed (rule R283). -/
theorem step_resetDuring {s : State} {w : Word} {n : Nat} {rest : List HostAccess} (h : s.bus = .resetDuring w n :: rest) :
    ∃ whole, issue w { s with bus := rest } = .next whole ∧ step s = .next (interrupted n { s with bus := rest } whole) := by
  obtain ⟨whole, hissue⟩ := issue_total w { s with bus := rest }
  exact ⟨whole, hissue, by rw [step_access s _ rest h, hostAccess, hissue]⟩

/-- A step that changes `PVALID` or `NVERT` did one of the three things of rule R205. -/
theorem step_changes_slot {s t : State} (hstep : step s = .next t) (hchange : t.pvalid ≠ s.pvalid ∨ t.nvert ≠ s.nvert) :
    ∃ (a : HostAccess) (rest : List HostAccess), s.bus = a :: rest ∧
      (a = .store 4 0 (encode .polyCreate) ∧ s.pvalid = false ∧ t.pvalid = true ∨
        (a = .store 4 0 (encode .polyDestroy) ∨ a = .reset ∨ ∃ w n, a = .resetDuring w n) ∧
          t.pvalid = false ∧ t.nvert = 0#32) := by
  have hnot : ∀ rest, ¬ SameSlot { s with bus := rest } t := fun rest hsame =>
    hchange.elim (absurd hsame.pvalid) (absurd hsame.nvert)
  cases hbus : s.bus with
  | nil =>
    cases (step_idle hbus).symm.trans hstep
    exact absurd ⟨rfl, rfl⟩ (hnot s.bus)
  | cons a rest =>
    refine ⟨a, rest, rfl, ?_⟩
    rw [step_access s a rest hbus] at hstep
    rcases hostAccess_slotEffect hstep with hsame | ⟨i, ha, heffect⟩ | ⟨ha, hempty⟩
    · exact absurd hsame (hnot rest)
    · cases heffect with
      | kept hsame => exact absurd hsame (hnot rest)
      | created hempty hlive => exact .inl ⟨ha, hempty, hlive⟩
      | destroyed hempty hnvert => exact .inr ⟨.inl ha, hempty, hnvert⟩
    · exact .inr ⟨.inr ha, hempty⟩

/-- Both reset events complete and leave the slot empty. -/
theorem step_reset_empties {s : State} {rest : List HostAccess}
    (h : s.bus = .reset :: rest ∨ ∃ w n, s.bus = .resetDuring w n :: rest) :
    ∃ t, step s = .next t ∧ t.pvalid = false ∧ t.nvert = 0#32 := by
  rcases h with h | ⟨w, n, h⟩
  · exact ⟨_, step_reset h, rfl, rfl⟩
  · obtain ⟨whole, -, hstep⟩ := step_resetDuring h
    exact ⟨_, hstep, rfl, rfl⟩

/-- Settles O22: the step lemmas of this section, and command by command the effect on the slot. -/
theorem slotLifeCycle : Obligations.SlotLifeCycle := by
  refine ⟨fun _ _ => step_slotOk, fun _ _ => step_changes_slot, fun _ _ => step_reset_empties,
    fun i s t hexec => ⟨?accepted, ?ignored, ?destroyed, ?others⟩⟩
  case accepted =>
    rintro rfl hempty hpos hcap
    cases (exec_polyCreate_accepted ⟨hempty, hpos, hcap⟩).symm.trans hexec
    exact ⟨rfl, rfl⟩
  case ignored =>
    rintro rfl hlive
    cases (exec_polyCreate_ignored_of_live hlive).symm.trans hexec
    exact ⟨hlive, rfl, rfl⟩
  case destroyed =>
    rintro rfl
    cases (exec_polyDestroy s).symm.trans hexec
    exact ⟨rfl, rfl⟩
  case others =>
    intro hcreate hdestroy
    cases exec_slotEffect hexec with
    | kept h => exact ⟨h.pvalid, h.nvert⟩
    | created => exact absurd rfl hcreate
    | destroyed => exact absurd rfl hdestroy

end Sys2Proof.Proofs
end

section
/-! SUPPORT. A host whose pending accesses are all defined never stops the machine (rules R250, R254): every defined access
completes, and no access changes what the host still has to do. -/

namespace Sys2Proof.Proofs

open Sys2Proof Sys2Proof.Machine

/-! ### Defined accesses complete -/

theorem registerAccessDefined_iff {size o : Nat} : registerAccessDefined size o = true ↔ size = 4 ∧ o % 4 = 0 ∧ o < 64 := by
  simp [registerAccessDefined, and_assoc]

/-- Every aligned offset of the window has a register, reserved or not (rules R21, R31). -/
theorem mem_registerMap_of_aligned {o : Nat} (hlt : o < 64) (haligned : o % 4 = 0) : ∃ r, (o, r) ∈ registerMap := by
  have hoffsets : ∀ o < 64, o % 4 = 0 → o ∈ registerMap.map Prod.fst := by decide
  obtain ⟨⟨_, r⟩, hmem, rfl⟩ := List.mem_map.1 (hoffsets o hlt haligned)
  exact ⟨r, hmem⟩

theorem reached_of_defined {size o : Nat} (h : registerAccessDefined size o = true) : ∃ r, reached size o = .ok r := by
  obtain ⟨rfl, haligned, hlt⟩ := registerAccessDefined_iff.1 h
  obtain ⟨r, hmem⟩ := mem_registerMap_of_aligned hlt haligned
  exact ⟨r, reached_of_mem hmem⟩

theorem writeReg_total (s : State) (v : Word) (r : Reg) : ∃ t, writeReg s v r = .next t := by
  cases r
  case cmd => exact issue_total v s
  all_goals exact ⟨_, rfl⟩

theorem hostAccess_total {a : HostAccess} (h : a.wellFormed = true) (s : State) : ∃ t, hostAccess a s = .next t := by
  cases a with
  | store size o v =>
    obtain ⟨r, hr⟩ := reached_of_defined h
    rw [hostAccess, hr]
    exact writeReg_total s v r
  | load size o =>
    obtain ⟨r, hr⟩ := reached_of_defined h
    exact ⟨_, by rw [hostAccess, hr]⟩
  | memStore | memLoad | reset => exact ⟨_, rfl⟩
  | resetDuring w n =>
    obtain ⟨whole, hissue⟩ := issue_total w s
    exact ⟨_, by rw [hostAccess, hissue]⟩

/-! ### What the host still has to do -/

theorem IssueEffect.bus {u t : State} (h : IssueEffect u t) : t.bus = u.bus := by
  cases h with
  | command i h => rw [exec_keeps i u t h]
  | reservedWord => rfl

theorem HostEffect.bus {u t : State} (h : HostEffect u t) : t.bus = u.bus := by
  cases h with
  | registers h => rw [h]
  | issued h => exact h.bus
  | hostByte | reset | resetDuring => rfl

/-- A step uses up the host's next access and adds none. -/
theorem step_bus {s t : State} (h : step s = .next t) : t.bus = s.bus.tail := by
  cases hbus : s.bus with
  | nil =>
    cases (step_idle hbus).symm.trans h
    exact hbus
  | cons a rest =>
    rw [step_access s a rest hbus] at h
    exact (hostAccess_effect h).bus

/-! ### Steps and runs of a defined host -/

theorem step_total_of_definedHost {s : State} (h : DefinedHost s) : ∃ t, step s = .next t := by
  cases hbus : s.bus with
  | nil => exact ⟨s, step_idle hbus⟩
  | cons a rest =>
    rw [step_access s a rest hbus]
    exact hostAccess_total (h a (by simp [hbus])) _

theorem step_definedHost {s t : State} (h : DefinedHost s) (hstep : step s = .next t) : DefinedHost t := by
  intro a ha
  rw [step_bus hstep] at ha
  exact h a (List.mem_of_mem_tail ha)

/-- Settles O36, by induction on the number of steps: each step completes and leaves a state of the same kind. -/
theorem definedHostNeverStops : Obligations.DefinedHostNeverStops := by
  intro s hdefined n
  induction n generalizing s with
  | zero => exact ⟨s, rfl, hdefined⟩
  | succ n ih =>
    obtain ⟨u, hstep⟩ := step_total_of_definedHost hdefined
    rw [runSteps, hstep]
    exact ih u (step_definedHost hdefined hstep)

end Sys2Proof.Proofs
end

section
/-! SUPPORT. Reset and hazards: the idle block (rule R281), a reset during a command (rule R283), and what every command
leaves to the host (rule R296). -/

namespace Sys2Proof.Proofs

open Sys2Proof Sys2Proof.Machine

/-- Settles O6: `step_idle`, for every state. -/
theorem idleBlockStays : Obligations.IdleBlockStays := fun _ => step_idle

/-! ### The host's registers under a command (rule R296) -/

/-- Settles O23: `exec_keeps` lists all that a command may change, and none of these is in the list. -/
theorem commandsKeepTheRegisters : Obligations.CommandsKeepTheRegisters := by
  intro i s t hexec
  rw [exec_keeps i s t hexec]
  exact ⟨rfl, rfl, rfl, rfl, rfl, rfl, rfl, rfl⟩

/-! ### A reset during a command (rule R283) -/

section
variable (n : Nat) (s t : State)

/-- The record after the reset, oldest first, is the first `n` accesses of the whole command. -/
theorem interrupted_port_reverse : (interrupted n s t).port.reverse = t.port.reverse.take n :=
  List.reverse_reverse _

/-- The writes among the first `n` accesses stay performed, in their order (rule R70). -/
theorem interrupted_mem : (interrupted n s t).mem = replay s.mem (t.port.reverse.take n) :=
  congrArg (replay s.mem) (interrupted_port_reverse n s t)

end

/-- A command that had made no access changed no byte. -/
theorem interrupted_mem_of_zero (s t : State) : (interrupted 0 s t).mem = s.mem := by
  rw [interrupted_mem, List.take_zero]
  rfl

/-- A command that had made all its accesses changed all its bytes, since its accesses explain its memory (rule R37). -/
theorem interrupted_mem_of_complete {i : Instr} {n : Nat} {s t : State} (hexec : exec i s = .next t)
    (hn : t.port.length ≤ n) : (interrupted n s t).mem = t.mem := by
  obtain ⟨hmem, -⟩ := recordExplainsMemory i s t hexec
  rw [interrupted_mem, List.take_of_length_le (by rwa [List.length_reverse]), ← hmem]

/-- A reset during a command completes in `interrupted`, whatever command the word selects. -/
theorem step_resetDuring_of_decode {s whole : State} {w : Word} {n : Nat} {rest : List HostAccess} {i : Instr}
    (hbus : s.bus = .resetDuring w n :: rest) (hdecode : decode w = .ok i)
    (hexec : exec i { s with bus := rest } = .next whole) :
    step s = .next (interrupted n { s with bus := rest } whole) := by
  rw [step_access s _ rest hbus, hostAccess, issue_of_decode hdecode, hexec]

/-- Settles O16: the step is `interrupted`, which replays the accesses made and then resets the block. -/
theorem resetEndsARunningCommand : Obligations.ResetEndsARunningCommand := by
  intro s w n rest i whole hbus hdecode hexec
  refine ⟨_, step_resetDuring_of_decode hbus hdecode hexec, interrupted_mem n _ whole, interrupted_port_reverse n _ whole,
    ?noAccess, interrupted_mem_of_complete hexec, resetBlock_fbBase _, rfl, rfl, rfl, rfl, rfl, rfl,
    isWritten_of_store_nil rfl, rfl, rfl, rfl⟩
  case noAccess =>
    rintro rfl
    exact interrupted_mem_of_zero _ whole

end Sys2Proof.Proofs
end
